-- ==== Sys2Proof/Word.lean ====
section
/-! DEFINITION. The value types of the block (00_scope.md R9, R10; 10_state.md R21, R27, R35). -/

namespace Sys2Proof

/-- One octet, an element of GF(256): R10. -/
abbrev Octet := BitVec 8

/-- One half of an octet, the second index of a multiply table: R100. -/
abbrev Nibble := BitVec 4

/-- A row index, column index, width, count or sparse position of a command: R10. -/
abbrev Index := BitVec 16

/-- A stride, a sparse count or a sparse capacity, 0 to 65536: R21, R27, R32. -/
abbrev Extent := BitVec 17

/-- A 32-bit register, and the 32-bit operands of R83. -/
abbrev Word := BitVec 32

/-- A command word: R80. -/
abbrev Command := BitVec 128

end Sys2Proof
end

