-- ==== Sys2Proof/Syntax.lean ====
section
/-! DEFINITION. The commands of the block, one constructor for each row of spec/opcode_table.json
(30_encoding.md R82, R84), with the operands in the order of the assembler syntax (R92).
A dense slot is the octet of its field `ra`, `rb` or `rc`; a sparse slot is the 16-bit operand of R87. -/

namespace Sys2Proof

/-- One command with its operands: R82. -/
inductive Instr where
  /-- FMUL u, x: R106. -/
  | fmul (u x : Octet)
  /-- OM_RESIZE Ma, rows, cols: R111. -/
  | omResize (a : Octet) (rows cols : Index)
  /-- OM_COPY Mdst, Msrc: R112. -/
  | omCopy (dst src : Octet)
  /-- OM_DESTROY Ma: R113. -/
  | omDestroy (a : Octet)
  /-- OM_LDB Ma, off: R115. -/
  | omLdb (a : Octet) (off : Word)
  /-- OM_STB Ma, off, value: R116. -/
  | omStb (a : Octet) (off : Word) (value : Octet)
  /-- OM_GET Ma, r, c: R117. -/
  | omGet (a : Octet) (r c : Index)
  /-- OM_PUT Ma, r, c, value: R118. -/
  | omPut (a : Octet) (r c : Index) (value : Octet)
  /-- COPY_ROW Mdst, Msrc, i, j, k: R133. -/
  | copyRow (dst src : Octet) (i j k : Index)
  /-- SWAP_ROW Ma, i, j, k: R134. -/
  | swapRow (a : Octet) (i j k : Index)
  /-- SWAP_COL Ma, i, j, k, w: R135. -/
  | swapCol (a : Octet) (i j k w : Index)
  /-- AXPY Mdst, Msrc, i, j, k, u: R136. -/
  | axpy (dst src : Octet) (i j k : Index) (u : Octet)
  /-- ADD_ROW Mdst, Msrc, i, j, k: R137. -/
  | addRow (dst src : Octet) (i j k : Index)
  /-- SCALE_ROW Ma, i, k, u: R139. -/
  | scaleRow (a : Octet) (i k : Index) (u : Octet)
  /-- ZERO_ROW Ma, i, k with a 32-bit k: R141. -/
  | zeroRow (a : Octet) (i : Index) (k : Word)
  /-- GEMM Ma, Mb, Mc, n, k, m: R142. -/
  | gemm (a b c : Octet) (n k m : Index)
  /-- CR_RESIZE Ss, new_nz: R150. -/
  | crResize (s newNz : Index)
  /-- CR_COPY Sdst, Ssrc: R152. -/
  | crCopy (sd ss : Index)
  /-- CR_DESTROY Ss: R153. -/
  | crDestroy (s : Index)
  /-- CR_FIND Ss, L, R, x: R154. -/
  | crFind (s l r x : Index)
  /-- CR_SCAN Ss, L, R, x: R157. -/
  | crScan (s l r x : Index)
  /-- CR_GETNZ Ss: R158. -/
  | crGetnz (s : Index)
  /-- CR_GETCAP Ss: R159. -/
  | crGetcap (s : Index)
  /-- CR_GETIDX Ss, p: R160. -/
  | crGetidx (s p : Index)
  /-- CR_GETVAL Ss, p: R161. -/
  | crGetval (s p : Index)
  /-- CR_UNPACK Ss, Ma, i, k: R170. -/
  | crUnpack (s : Index) (a : Octet) (i k : Index)
  /-- CR_PACK Ss, Ma, i, k: R171. -/
  | crPack (s : Index) (a : Octet) (i k : Index)
  /-- CR_ADD Sa, Sb, w: R174. -/
  | crAdd (sa sb w : Index)
  /-- CR_SADD Sa, Sb, u, w: R175. -/
  | crSadd (sa sb : Index) (u : Octet) (w : Index)
  /-- CR_SWAPCOL Ss, i, j: R177. -/
  | crSwapcol (s i j : Index)
  /-- CM_RESIZE rows, cols: R190. -/
  | cmResize (rows cols : Index)
  /-- CM_DESTROY: R191. -/
  | cmDestroy
  deriving DecidableEq, Repr

end Sys2Proof
end

