-- ==== Sys2Proof/Decode.lean ====
section
/-! DEFINITION. The command word, its decoder and its encoder (30_encoding.md R80 to R90).
The decoder is total: every 128-bit word is one command or is illegal, by name (R86). -/

namespace Sys2Proof

/-- The fields of a command word: R80. -/
structure Fields where
  op : Octet
  u : Octet
  ra : Octet
  rb : Octet
  rc : Octet
  z : BitVec 24
  a0 : Index
  a1 : Index
  a2 : Index
  a3 : Index
  deriving DecidableEq, Repr

/-- The fields at the bit positions of R80. -/
def Fields.ofWord (w : Command) : Fields :=
  { op := w.extractLsb' 0 8
    u := w.extractLsb' 8 8
    ra := w.extractLsb' 16 8
    rb := w.extractLsb' 24 8
    rc := w.extractLsb' 32 8
    z := w.extractLsb' 40 24
    a0 := w.extractLsb' 64 16
    a1 := w.extractLsb' 80 16
    a2 := w.extractLsb' 96 16
    a3 := w.extractLsb' 112 16 }

/-- The word with these fields: R80. -/
def Fields.toWord (f : Fields) : Command :=
  f.a3 ++ f.a2 ++ f.a1 ++ f.a0 ++ f.z ++ f.rc ++ f.rb ++ f.ra ++ f.u ++ f.op

/-- A word with this opcode and every other field zero: the starting point of each encoding (R81). -/
def Fields.ofOp (op : Octet) : Fields :=
  { op := op, u := 0, ra := 0, rb := 0, rc := 0, z := 0, a0 := 0, a1 := 0, a2 := 0, a3 := 0 }

/-- Why a word is illegal: R85, R86. Both raise the fault ILLEGAL. -/
inductive Illegal where
  /-- The opcode is not one of R84. -/
  | undefinedOpcode
  /-- A bit of a field the command does not use is 1. -/
  | unusedBits
  deriving DecidableEq, Repr

/-- What a word decodes to: R86. -/
inductive Decoded where
  | instr (i : Instr)
  | illegal (why : Illegal)
  deriving DecidableEq, Repr

/-- The command, if the unused fields are zero: R86. -/
def Decoded.ifUnusedZero (unused : Bool) (i : Instr) : Decoded :=
  if unused then .instr i else .illegal .unusedBits

/-- The 32-bit operand `{hi, lo}`: R83. -/
def joinHalves (hi lo : Index) : Word := hi ++ lo

/-- The unused fields of a command are tested as R82 and R86 list them; `z` is always among them. -/
def Fields.decode (f : Fields) : Decoded :=
  match f.op.toNat with
  | 0x01 => .ifUnusedZero (f.ra == 0 && f.rb == 0 && f.rc == 0 && f.z == 0 && f.a0.extractLsb' 8 8 == 0
      && f.a1 == 0 && f.a2 == 0 && f.a3 == 0) (.fmul f.u (f.a0.extractLsb' 0 8))
  | 0x10 => .ifUnusedZero (f.u == 0 && f.rb == 0 && f.rc == 0 && f.z == 0 && f.a2 == 0 && f.a3 == 0)
      (.omResize f.ra f.a0 f.a1)
  | 0x11 => .ifUnusedZero (f.u == 0 && f.rc == 0 && f.z == 0 && f.a0 == 0 && f.a1 == 0 && f.a2 == 0 && f.a3 == 0)
      (.omCopy f.ra f.rb)
  | 0x12 => .ifUnusedZero (f.u == 0 && f.rb == 0 && f.rc == 0 && f.z == 0 && f.a0 == 0 && f.a1 == 0 && f.a2 == 0
      && f.a3 == 0) (.omDestroy f.ra)
  | 0x18 => .ifUnusedZero (f.u == 0 && f.rb == 0 && f.rc == 0 && f.z == 0 && f.a2 == 0 && f.a3 == 0)
      (.omLdb f.ra (joinHalves f.a1 f.a0))
  | 0x19 => .ifUnusedZero (f.rb == 0 && f.rc == 0 && f.z == 0 && f.a2 == 0 && f.a3 == 0)
      (.omStb f.ra (joinHalves f.a1 f.a0) f.u)
  | 0x1A => .ifUnusedZero (f.u == 0 && f.rb == 0 && f.rc == 0 && f.z == 0 && f.a2 == 0 && f.a3 == 0)
      (.omGet f.ra f.a0 f.a1)
  | 0x1B => .ifUnusedZero (f.rb == 0 && f.rc == 0 && f.z == 0 && f.a2 == 0 && f.a3 == 0)
      (.omPut f.ra f.a0 f.a1 f.u)
  | 0x20 => .ifUnusedZero (f.u == 0 && f.rc == 0 && f.z == 0 && f.a3 == 0) (.copyRow f.ra f.rb f.a0 f.a1 f.a2)
  | 0x21 => .ifUnusedZero (f.u == 0 && f.rb == 0 && f.rc == 0 && f.z == 0 && f.a3 == 0)
      (.swapRow f.ra f.a0 f.a1 f.a2)
  | 0x22 => .ifUnusedZero (f.u == 0 && f.rb == 0 && f.rc == 0 && f.z == 0) (.swapCol f.ra f.a0 f.a1 f.a2 f.a3)
  | 0x23 => .ifUnusedZero (f.rc == 0 && f.z == 0 && f.a3 == 0) (.axpy f.ra f.rb f.a0 f.a1 f.a2 f.u)
  | 0x24 => .ifUnusedZero (f.u == 0 && f.rc == 0 && f.z == 0 && f.a3 == 0) (.addRow f.ra f.rb f.a0 f.a1 f.a2)
  | 0x25 => .ifUnusedZero (f.rb == 0 && f.rc == 0 && f.z == 0 && f.a1 == 0 && f.a3 == 0)
      (.scaleRow f.ra f.a0 f.a2 f.u)
  | 0x26 => .ifUnusedZero (f.u == 0 && f.rb == 0 && f.rc == 0 && f.z == 0 && f.a1 == 0)
      (.zeroRow f.ra f.a0 (joinHalves f.a3 f.a2))
  | 0x27 => .ifUnusedZero (f.u == 0 && f.z == 0 && f.a3 == 0) (.gemm f.ra f.rb f.rc f.a0 f.a1 f.a2)
  | 0x30 => .ifUnusedZero (f.u == 0 && f.ra == 0 && f.rb == 0 && f.rc == 0 && f.z == 0 && f.a2 == 0 && f.a3 == 0)
      (.crResize f.a0 f.a1)
  | 0x31 => .ifUnusedZero (f.u == 0 && f.ra == 0 && f.rb == 0 && f.rc == 0 && f.z == 0 && f.a2 == 0 && f.a3 == 0)
      (.crCopy f.a0 f.a1)
  | 0x32 => .ifUnusedZero (f.u == 0 && f.ra == 0 && f.rb == 0 && f.rc == 0 && f.z == 0 && f.a1 == 0 && f.a2 == 0
      && f.a3 == 0) (.crDestroy f.a0)
  | 0x33 => .ifUnusedZero (f.u == 0 && f.ra == 0 && f.rb == 0 && f.rc == 0 && f.z == 0)
      (.crFind f.a0 f.a1 f.a2 f.a3)
  | 0x34 => .ifUnusedZero (f.u == 0 && f.ra == 0 && f.rb == 0 && f.rc == 0 && f.z == 0)
      (.crScan f.a0 f.a1 f.a2 f.a3)
  | 0x38 => .ifUnusedZero (f.u == 0 && f.ra == 0 && f.rb == 0 && f.rc == 0 && f.z == 0 && f.a1 == 0 && f.a2 == 0
      && f.a3 == 0) (.crGetnz f.a0)
  | 0x39 => .ifUnusedZero (f.u == 0 && f.ra == 0 && f.rb == 0 && f.rc == 0 && f.z == 0 && f.a1 == 0 && f.a2 == 0
      && f.a3 == 0) (.crGetcap f.a0)
  | 0x3A => .ifUnusedZero (f.u == 0 && f.ra == 0 && f.rb == 0 && f.rc == 0 && f.z == 0 && f.a2 == 0 && f.a3 == 0)
      (.crGetidx f.a0 f.a1)
  | 0x3B => .ifUnusedZero (f.u == 0 && f.ra == 0 && f.rb == 0 && f.rc == 0 && f.z == 0 && f.a2 == 0 && f.a3 == 0)
      (.crGetval f.a0 f.a1)
  | 0x40 => .ifUnusedZero (f.u == 0 && f.rb == 0 && f.rc == 0 && f.z == 0 && f.a3 == 0)
      (.crUnpack f.a0 f.ra f.a1 f.a2)
  | 0x41 => .ifUnusedZero (f.u == 0 && f.rb == 0 && f.rc == 0 && f.z == 0 && f.a3 == 0)
      (.crPack f.a0 f.ra f.a1 f.a2)
  | 0x42 => .ifUnusedZero (f.u == 0 && f.ra == 0 && f.rb == 0 && f.rc == 0 && f.z == 0 && f.a3 == 0)
      (.crAdd f.a0 f.a1 f.a2)
  | 0x43 => .ifUnusedZero (f.ra == 0 && f.rb == 0 && f.rc == 0 && f.z == 0 && f.a3 == 0)
      (.crSadd f.a0 f.a1 f.u f.a2)
  | 0x44 => .ifUnusedZero (f.u == 0 && f.ra == 0 && f.rb == 0 && f.rc == 0 && f.z == 0 && f.a3 == 0)
      (.crSwapcol f.a0 f.a1 f.a2)
  | 0x50 => .ifUnusedZero (f.u == 0 && f.ra == 0 && f.rb == 0 && f.rc == 0 && f.z == 0 && f.a2 == 0 && f.a3 == 0)
      (.cmResize f.a0 f.a1)
  | 0x51 => .ifUnusedZero (f.u == 0 && f.ra == 0 && f.rb == 0 && f.rc == 0 && f.z == 0 && f.a0 == 0 && f.a1 == 0
      && f.a2 == 0 && f.a3 == 0) .cmDestroy
  | _ => .illegal .undefinedOpcode

/-- The decoder of the command port: R84 to R86, R90. -/
def decode (w : Command) : Decoded := (Fields.ofWord w).decode

/-- Octet `n` of the sequence holds bits `8n+7 .. 8n` of the word: R66, R89. -/
def Command.ofOctets (bs : List Octet) : Command :=
  bs.foldr (fun b w => (w <<< 8) ||| b.setWidth 128) 0

/-- The 16 octets of a word, octet 0 first: R89. -/
def Command.toOctets (w : Command) : List Octet :=
  (List.range 16).map fun n => w.extractLsb' (8 * n) 8

/-- The instruction the decoder reads from an instruction whose bits are `w`, bits above `nbits` zero. -/
def decodeTableWord (nbits w : Nat) : Option Instr :=
  match decode (BitVec.ofNat 128 (w % 2 ^ nbits)) with
  | .instr i => some i
  | .illegal _ => none

/-- The fields of the word of a command; a field the command does not use is zero: R81, R82, R83. -/
def Instr.fields : Instr → Fields
  | .fmul u x => { Fields.ofOp 0x01 with u := u, a0 := x.setWidth 16 }
  | .omResize a rows cols => { Fields.ofOp 0x10 with ra := a, a0 := rows, a1 := cols }
  | .omCopy dst src => { Fields.ofOp 0x11 with ra := dst, rb := src }
  | .omDestroy a => { Fields.ofOp 0x12 with ra := a }
  | .omLdb a off => { Fields.ofOp 0x18 with ra := a, a0 := off.extractLsb' 0 16, a1 := off.extractLsb' 16 16 }
  | .omStb a off value =>
      { Fields.ofOp 0x19 with ra := a, a0 := off.extractLsb' 0 16, a1 := off.extractLsb' 16 16, u := value }
  | .omGet a r c => { Fields.ofOp 0x1A with ra := a, a0 := r, a1 := c }
  | .omPut a r c value => { Fields.ofOp 0x1B with ra := a, a0 := r, a1 := c, u := value }
  | .copyRow dst src i j k => { Fields.ofOp 0x20 with ra := dst, rb := src, a0 := i, a1 := j, a2 := k }
  | .swapRow a i j k => { Fields.ofOp 0x21 with ra := a, a0 := i, a1 := j, a2 := k }
  | .swapCol a i j k w => { Fields.ofOp 0x22 with ra := a, a0 := i, a1 := j, a2 := k, a3 := w }
  | .axpy dst src i j k u => { Fields.ofOp 0x23 with ra := dst, rb := src, a0 := i, a1 := j, a2 := k, u := u }
  | .addRow dst src i j k => { Fields.ofOp 0x24 with ra := dst, rb := src, a0 := i, a1 := j, a2 := k }
  | .scaleRow a i k u => { Fields.ofOp 0x25 with ra := a, a0 := i, a2 := k, u := u }
  | .zeroRow a i k =>
      { Fields.ofOp 0x26 with ra := a, a0 := i, a2 := k.extractLsb' 0 16, a3 := k.extractLsb' 16 16 }
  | .gemm a b c n k m => { Fields.ofOp 0x27 with ra := a, rb := b, rc := c, a0 := n, a1 := k, a2 := m }
  | .crResize s newNz => { Fields.ofOp 0x30 with a0 := s, a1 := newNz }
  | .crCopy sd ss => { Fields.ofOp 0x31 with a0 := sd, a1 := ss }
  | .crDestroy s => { Fields.ofOp 0x32 with a0 := s }
  | .crFind s l r x => { Fields.ofOp 0x33 with a0 := s, a1 := l, a2 := r, a3 := x }
  | .crScan s l r x => { Fields.ofOp 0x34 with a0 := s, a1 := l, a2 := r, a3 := x }
  | .crGetnz s => { Fields.ofOp 0x38 with a0 := s }
  | .crGetcap s => { Fields.ofOp 0x39 with a0 := s }
  | .crGetidx s p => { Fields.ofOp 0x3A with a0 := s, a1 := p }
  | .crGetval s p => { Fields.ofOp 0x3B with a0 := s, a1 := p }
  | .crUnpack s a i k => { Fields.ofOp 0x40 with a0 := s, ra := a, a1 := i, a2 := k }
  | .crPack s a i k => { Fields.ofOp 0x41 with a0 := s, ra := a, a1 := i, a2 := k }
  | .crAdd sa sb w => { Fields.ofOp 0x42 with a0 := sa, a1 := sb, a2 := w }
  | .crSadd sa sb u w => { Fields.ofOp 0x43 with a0 := sa, a1 := sb, u := u, a2 := w }
  | .crSwapcol s i j => { Fields.ofOp 0x44 with a0 := s, a1 := i, a2 := j }
  | .cmResize rows cols => { Fields.ofOp 0x50 with a0 := rows, a1 := cols }
  | .cmDestroy => Fields.ofOp 0x51

/-- The word of a command: R80 to R84. -/
def encode (i : Instr) : Command := i.fields.toWord

/-- One row of spec/opcode_table.json: R84. -/
structure OpcodeRow where
  mnemonic : String
  pattern : Command
  mask : Command
  deriving DecidableEq, Repr

/-- `w` is a well-formed word of the row: R84. -/
def OpcodeRow.admits (row : OpcodeRow) (w : Command) : Bool := w &&& row.mask == row.pattern

/-- spec/opcode_table.json: mnemonic, `match` and `mask` of each row (R84). -/
def opcodeTable : List OpcodeRow :=
  [ ⟨"FMUL", 0x00000000000000000000000000000001#128, 0xFFFFFFFFFFFFFF00FFFFFFFFFFFF00FF#128⟩
    , ⟨"OM_RESIZE", 0x00000000000000000000000000000010#128, 0xFFFFFFFF00000000FFFFFFFFFF00FFFF#128⟩
    , ⟨"OM_COPY", 0x00000000000000000000000000000011#128, 0xFFFFFFFFFFFFFFFFFFFFFFFF0000FFFF#128⟩
    , ⟨"OM_DESTROY", 0x00000000000000000000000000000012#128, 0xFFFFFFFFFFFFFFFFFFFFFFFFFF00FFFF#128⟩
    , ⟨"OM_LDB", 0x00000000000000000000000000000018#128, 0xFFFFFFFF00000000FFFFFFFFFF00FFFF#128⟩
    , ⟨"OM_STB", 0x00000000000000000000000000000019#128, 0xFFFFFFFF00000000FFFFFFFFFF0000FF#128⟩
    , ⟨"OM_GET", 0x0000000000000000000000000000001A#128, 0xFFFFFFFF00000000FFFFFFFFFF00FFFF#128⟩
    , ⟨"OM_PUT", 0x0000000000000000000000000000001B#128, 0xFFFFFFFF00000000FFFFFFFFFF0000FF#128⟩
    , ⟨"COPY_ROW", 0x00000000000000000000000000000020#128, 0xFFFF000000000000FFFFFFFF0000FFFF#128⟩
    , ⟨"SWAP_ROW", 0x00000000000000000000000000000021#128, 0xFFFF000000000000FFFFFFFFFF00FFFF#128⟩
    , ⟨"SWAP_COL", 0x00000000000000000000000000000022#128, 0x0000000000000000FFFFFFFFFF00FFFF#128⟩
    , ⟨"AXPY", 0x00000000000000000000000000000023#128, 0xFFFF000000000000FFFFFFFF000000FF#128⟩
    , ⟨"ADD_ROW", 0x00000000000000000000000000000024#128, 0xFFFF000000000000FFFFFFFF0000FFFF#128⟩
    , ⟨"SCALE_ROW", 0x00000000000000000000000000000025#128, 0xFFFF0000FFFF0000FFFFFFFFFF0000FF#128⟩
    , ⟨"ZERO_ROW", 0x00000000000000000000000000000026#128, 0x00000000FFFF0000FFFFFFFFFF00FFFF#128⟩
    , ⟨"GEMM", 0x00000000000000000000000000000027#128, 0xFFFF000000000000FFFFFF000000FFFF#128⟩
    , ⟨"CR_RESIZE", 0x00000000000000000000000000000030#128, 0xFFFFFFFF00000000FFFFFFFFFFFFFFFF#128⟩
    , ⟨"CR_COPY", 0x00000000000000000000000000000031#128, 0xFFFFFFFF00000000FFFFFFFFFFFFFFFF#128⟩
    , ⟨"CR_DESTROY", 0x00000000000000000000000000000032#128, 0xFFFFFFFFFFFF0000FFFFFFFFFFFFFFFF#128⟩
    , ⟨"CR_FIND", 0x00000000000000000000000000000033#128, 0x0000000000000000FFFFFFFFFFFFFFFF#128⟩
    , ⟨"CR_SCAN", 0x00000000000000000000000000000034#128, 0x0000000000000000FFFFFFFFFFFFFFFF#128⟩
    , ⟨"CR_GETNZ", 0x00000000000000000000000000000038#128, 0xFFFFFFFFFFFF0000FFFFFFFFFFFFFFFF#128⟩
    , ⟨"CR_GETCAP", 0x00000000000000000000000000000039#128, 0xFFFFFFFFFFFF0000FFFFFFFFFFFFFFFF#128⟩
    , ⟨"CR_GETIDX", 0x0000000000000000000000000000003A#128, 0xFFFFFFFF00000000FFFFFFFFFFFFFFFF#128⟩
    , ⟨"CR_GETVAL", 0x0000000000000000000000000000003B#128, 0xFFFFFFFF00000000FFFFFFFFFFFFFFFF#128⟩
    , ⟨"CR_UNPACK", 0x00000000000000000000000000000040#128, 0xFFFF000000000000FFFFFFFFFF00FFFF#128⟩
    , ⟨"CR_PACK", 0x00000000000000000000000000000041#128, 0xFFFF000000000000FFFFFFFFFF00FFFF#128⟩
    , ⟨"CR_ADD", 0x00000000000000000000000000000042#128, 0xFFFF000000000000FFFFFFFFFFFFFFFF#128⟩
    , ⟨"CR_SADD", 0x00000000000000000000000000000043#128, 0xFFFF000000000000FFFFFFFFFFFF00FF#128⟩
    , ⟨"CR_SWAPCOL", 0x00000000000000000000000000000044#128, 0xFFFF000000000000FFFFFFFFFFFFFFFF#128⟩
    , ⟨"CM_RESIZE", 0x00000000000000000000000000000050#128, 0xFFFFFFFF00000000FFFFFFFFFFFFFFFF#128⟩
    , ⟨"CM_DESTROY", 0x00000000000000000000000000000051#128, 0xFFFFFFFFFFFFFFFFFFFFFFFFFFFFFFFF#128⟩ ]

end Sys2Proof
end

