-- ==== Sys2Proof/Config.lean ====
section
/-! DEFINITION. The implementation parameters (00_scope.md R7): what two blocks that follow the spec
may differ in (70_reset_and_hazards.md R253). They are plain data, constant for the life of the block (R8). -/

namespace Sys2Proof.Machine

/-- The multiply tables HI and LO, each 256 × 16 octets, indexed [scalar][nibble]: R100. -/
structure Tables where
  hi : Vector (Vector Octet 16) 256
  lo : Vector (Vector Octet 16) 256
  deriving DecidableEq, Repr

/-- How CR_SWAPCOL relocates a single present entry: R7, R178, R179. -/
inductive SwapcolMode where
  | ordered
  | legacyAppend
  deriving DecidableEq, Repr

/-- The parameters of R7. -/
structure Params where
  align : Nat
  nmat : Nat
  dmCap : Nat
  nsrow : Nat
  crCap : Nat
  scrCap : Nat
  tables : Tables
  swapcolMode : SwapcolMode
  deriving DecidableEq, Repr

/-- The legal values of R7. -/
abbrev Params.Legal (p : Params) : Prop :=
  (∃ e, e < 17 ∧ p.align = 2 ^ e) ∧
  (3 ≤ p.nmat ∧ p.nmat ≤ 256) ∧
  (p.dmCap % p.align = 0 ∧ 0 < p.dmCap ∧ p.dmCap < 2 ^ 32) ∧
  (1 ≤ p.nsrow ∧ p.nsrow ≤ 65536) ∧
  (p.crCap % p.align = 0 ∧ p.align ≤ p.crCap ∧ p.crCap ≤ 65536) ∧
  (1 ≤ p.scrCap ∧ p.scrCap ≤ 65535)

end Sys2Proof.Machine
end

