-- ==== Sys2Proof/Machine/DefaultTables.lean ====
section
/-! DEFINITION. The default parameters of 00_scope.md R7, with the default table pair T_11D
(40_field_multiply.md R104). No meaning mentions either: a meaning reads the parameters of its state. -/

namespace Sys2Proof.Machine

/-- The loop of R104, `n` turns to go: `r` gathers the product, `a` doubles modulo 0x11D, `b` is consumed bit by bit. -/
def polyMulLoop : (n r a b : Nat) → Nat
  | 0, r, _, _ => r
  | n + 1, r, a, b =>
    let r' := if b % 2 = 1 then r ^^^ a else r
    let a' := if a * 2 ≥ 0x100 then (a * 2) ^^^ 0x11D else a * 2
    polyMulLoop n r' a' (b / 2)

/-- The product of two octets modulo x^8 + x^4 + x^3 + x^2 + 1: R104. -/
def polyMul11D (a b : Octet) : Octet := BitVec.ofNat 8 (polyMulLoop 8 0 a.toNat b.toNat)

/-- One multiply table from its entries, scalar by scalar: R100. -/
def tableOf (entry : Nat → Nat → Octet) : Vector (Vector Octet 16) 256 :=
  ⟨((List.range 256).map fun u => ⟨((List.range 16).map (entry u)).toArray, by simp⟩).toArray, by simp⟩

/-- T_11D: `HI[u][h] = u * (h × 16)` and `LO[u][l] = u * l`: R102, R104. -/
def tables11D : Tables :=
  { hi := tableOf fun u h => polyMul11D (BitVec.ofNat 8 u) (BitVec.ofNat 8 (h * 16))
    lo := tableOf fun u l => polyMul11D (BitVec.ofNat 8 u) (BitVec.ofNat 8 l) }

/-- The defaults of R7. -/
def defaultParams : Params :=
  { align := 16, nmat := 4, dmCap := 1048576, nsrow := 256, crCap := 65536, scrCap := 65535
    tables := tables11D, swapcolMode := .ordered }

end Sys2Proof.Machine
end

