-- ==== Sys2Proof/Machine/State.lean ====
section
/-! DEFINITION. The state of the block (10_state.md R20 to R49), as plain data, and its reset value (R48). -/

namespace Sys2Proof.Machine

/-- The content of one storage space of `w`-bit units (20_memory.md R60): address and value pairs.
An unlisted address reads 0, the value the spec fills new storage with (R111, R150).
`Memory 8` is a list of `Host.Cell`. -/
abbrev Memory (w : Nat) := List (Nat × BitVec w)

/-- The canonical form: addresses strictly rising, no listed value equal to what an unlisted address reads as. -/
abbrev Memory.wf {w : Nat} (m : Memory w) : Prop :=
  m.Pairwise (fun x y => x.1 < y.1) ∧ ∀ c ∈ m, c.2 ≠ 0

/-- Every listed address is below `n`. -/
abbrev Memory.Below {w : Nat} (m : Memory w) (n : Nat) : Prop := ∀ c ∈ m, c.1 < n

/-- One dense matrix slot: R21. -/
structure DenseSlot where
  valid : Bool
  rows : Index
  cols : Index
  stride : Extent
  buf : Memory 8
  deriving DecidableEq, Repr

/-- One sparse row slot: R27. `idx` and `val` are the parallel arrays `idxs` and `vals`. -/
structure SparseRow where
  nz : Extent
  cap : Extent
  idx : Memory 16
  val : Memory 8
  deriving DecidableEq, Repr

/-- The fault causes: 60_exceptions.md R201. Raising one is a next state in HALT (R203). -/
inductive Cause where
  /-- A request for storage exceeds the capacity that backs it. -/
  | alloc
  /-- An index, width, offset or position names storage outside the buffer or capacity. -/
  | bounds
  /-- The opcode is undefined or an unused bit is 1. -/
  | illegal
  /-- A slot number the block does not have. -/
  | slot
  /-- The product slot of GEMM is an operand slot (the spec's ALIAS). -/
  | aliasing
  deriving DecidableEq, Repr

/-- What the host can do to the block: 00_scope.md R5. The table port is `Params.tables`. -/
inductive HostEvent where
  /-- A word at the command port: R5 (a). -/
  | command (w : Command)
  /-- A read of the register at a byte address: R5 (b), R44. -/
  | regRead (addr : Nat)
  /-- The reset input: R5 (c), R230. -/
  | reset
  deriving DecidableEq, Repr

/-- What the block answered to the last host event: the outcomes of R13, or the data of a register read (R44). -/
inductive Reply where
  /-- Nothing yet since reset. -/
  | none
  /-- The command completed. -/
  | ok
  /-- The command raised the fault with this cause code. -/
  | halt (cause : Word)
  /-- The block was already in HALT. -/
  | refused
  /-- The value of the register read. -/
  | data (value : Word)
  deriving DecidableEq, Repr

/-- The state: R20. `params` are the constants of R7 (not state of the block: R38).
`pending` and `reply` are the model's own: the host's side of the ports (R14, R46). -/
structure State where
  /-- `M[0] .. M[NMAT-1]`: R21. -/
  dense : List DenseSlot
  /-- `SR[0] .. SR[NSROW-1]`: R27. -/
  sparse : List SparseRow
  /-- CM_ROWS: R32. -/
  cmRows : Extent
  /-- CM_COLS: R32. -/
  cmCols : Index
  /-- STATUS: R35. -/
  status : Word
  /-- CAUSE: R36. -/
  cause : Word
  /-- FCMD: R37. -/
  fcmd : Word
  /-- RESULT: R41. -/
  result : Word
  /-- SCR, the dense scratch buffer: R34. -/
  scr : Memory 8
  /-- The parameters: R7. No command and no reset changes them (R8). -/
  params : Params
  /-- The host events not yet taken, the next one first. -/
  pending : List HostEvent
  /-- The answer to the last event taken. -/
  reply : Reply
  deriving DecidableEq, Repr

/-- Why a step could stop without a next state. There is no such reason: the spec gives every word, legal or not,
in HALT or not, an outcome (00_scope.md R13, 70_reset_and_hazards.md R253), so this type has no constructor. -/
inductive Fault : Type
  deriving DecidableEq, Repr

/-- Why a command could have no meaning. -/
inductive Refusal where
  /-- Raised by a dispatch arm whose instruction has no meaning yet (safe: nothing can be proved of it).
  No arm raises it: every instruction has its meaning. -/
  | notModelled (mnemonic : String)
  deriving DecidableEq, Repr

/-- An empty dense slot: R21, R113. -/
def emptyDense : DenseSlot := { valid := false, rows := 0, cols := 0, stride := 0, buf := [] }

/-- An empty sparse row: R28, R153. -/
def emptyRow : SparseRow := { nz := 0, cap := 0, idx := [], val := [] }

/-- The state after reset of a block with these parameters: R48, R230, R231.
SCR is unspecified there; zero is DESIGN CHOICE, unsafe (log entry 1). -/
def State.resetWith (p : Params) : State :=
  { dense := List.replicate p.nmat emptyDense
    sparse := List.replicate p.nsrow emptyRow
    cmRows := 0
    cmCols := 0
    status := 0
    cause := 0
    fcmd := 0
    result := 0
    scr := []
    params := p
    pending := []
    reply := .none }

/-- The state after reset of a block with the default parameters of R7 (log entry 3). -/
def State.reset : State := State.resetWith defaultParams

end Sys2Proof.Machine
end

