-- ==== Sys2Proof/Machine/Flags.lean ====
section
/-! DEFINITION. The status side of the block: STATUS, CAUSE and RESULT (10_state.md R35 to R41,
60_exceptions.md R201). The block has no condition codes (R40): nothing else is computed here. -/

namespace Sys2Proof.Machine

/-- STATUS.HALT, bit 0: R35. -/
def State.halted (s : State) : Bool := s.status.getLsbD 0

/-- The cause codes: R36, R201. -/
def Cause.code : Cause → Word
  | .alloc => 1
  | .bounds => 2
  | .illegal => 3
  | .slot => 4
  | .aliasing => 5

/-- NOT_FOUND: 43_sparse_row_lifecycle_search.md R155. -/
def notFound : Word := 0xFFFFFFFF

/-- What a search leaves in RESULT: a position, or NOT_FOUND (R41, R155). -/
def positionWord : Option Nat → Word
  | some p => BitVec.ofNat 32 p
  | none => notFound

/-- `RESULT <- v`: R12, R41. -/
def State.setResult (s : State) (v : Word) : State := { s with result := v }

end Sys2Proof.Machine
end

