-- ==== Sys2Proof/Machine/Ops.lean ====
section
/-! DEFINITION. The shared operations over storage and slots, the taking of a fault (60_exceptions.md R203)
and the only exit from it, reset (R206, 70_reset_and_hazards.md R230). -/

namespace Sys2Proof.Machine

/-! ### Storage (20_memory.md R60, R68) -/

/-- The unit at an address; an unlisted address reads 0 (R49). -/
def Memory.read {w : Nat} : Memory w → Nat → BitVec w
  | [], _ => 0
  | (k, v) :: m, a => if a = k then v else Memory.read m a

/-- List an address that is not listed, at its place. -/
def Memory.insert {w : Nat} : Memory w → Nat → BitVec w → Memory w
  | [], a, v => [(a, v)]
  | (k, x) :: m, a, v => if a < k then (a, v) :: (k, x) :: m else (k, x) :: Memory.insert m a v

/-- Write one unit. Writing 0 unlists the address, so that equal contents are equal lists. -/
def Memory.write {w : Nat} (m : Memory w) (a : Nat) (v : BitVec w) : Memory w :=
  let rest := m.filter fun c => c.1 != a
  if v = 0 then rest else Memory.insert rest a v

/-- Write 0 to the `n` addresses from `lo` up. -/
def Memory.clear {w : Nat} (m : Memory w) (lo n : Nat) : Memory w :=
  m.filter fun c => !(decide (lo ≤ c.1) && decide (c.1 < lo + n))

/-- The content of the addresses below `n`. -/
def Memory.below {w : Nat} (m : Memory w) (n : Nat) : Memory w := m.filter fun c => decide (c.1 < n)

/-- The `n` units from `a` up, in ascending order. -/
def Memory.readRow {w : Nat} (m : Memory w) (a n : Nat) : List (BitVec w) :=
  (List.range n).map fun c => Memory.read m (a + c)

/-- Write the units of a list from `a` up, in ascending order. -/
def Memory.writeRow {w : Nat} : Memory w → Nat → List (BitVec w) → Memory w
  | m, _, [] => m
  | m, a, v :: vs => Memory.writeRow (Memory.write m a v) (a + 1) vs

/-- Write each (offset, value) pair at `base + offset`, in the order of the list. -/
def Memory.scatter {w : Nat} (m : Memory w) (base : Nat) (es : List (Nat × BitVec w)) : Memory w :=
  es.foldl (fun t e => Memory.write t (base + e.1) e.2) m

/-- Exchange the units at two addresses. -/
def Memory.swap {w : Nat} (m : Memory w) (a b : Nat) : Memory w :=
  Memory.write (Memory.write m a (Memory.read m b)) b (Memory.read m a)

/-! ### Slots (10_state.md R21, R25, R27) -/

/-- `M[a]`. -/
def State.slot (s : State) (a : Octet) : DenseSlot := s.dense.getD a.toNat emptyDense

/-- `M[a] <- d`; no other slot changes (R25). -/
def State.setSlot (s : State) (a : Octet) (d : DenseSlot) : State := { s with dense := s.dense.set a.toNat d }

/-- The number of octets of a slot's buffer; 0 for an empty slot (R12, R21). -/
def DenseSlot.len (d : DenseSlot) : Nat := if d.valid then d.rows.toNat * d.stride.toNat else 0

/-- `len(a)`: R12. -/
def State.len (s : State) (a : Octet) : Nat := (s.slot a).len

/-- The buffer of `M[a]`. -/
def State.buf (s : State) (a : Octet) : Memory 8 := (s.slot a).buf

/-- Replace the content of the buffer of `M[a]`; its descriptor stays. -/
def State.setBuf (s : State) (a : Octet) (m : Memory 8) : State := s.setSlot a { s.slot a with buf := m }

/-- `DRead(a, o)`: R12. -/
def State.dRead (s : State) (a : Octet) (o : Nat) : Octet := Memory.read (s.buf a) o

/-- `DWrite(a, o, v)`: R12. -/
def State.dWrite (s : State) (a : Octet) (o : Nat) (v : Octet) : State := s.setBuf a (Memory.write (s.buf a) o v)

/-- `SR[s]`. -/
def State.row (t : State) (s : Index) : SparseRow := t.sparse.getD s.toNat emptyRow

/-- `SR[s] <- r`. -/
def State.setRow (t : State) (s : Index) (r : SparseRow) : State := { t with sparse := t.sparse.set s.toNat r }

/-! ### Outcomes of a command (00_scope.md R13) -/

/-- What a command came to: `done` with the state after it, or `raise Halt(c)` with the state the fault is taken in,
which differs from the state before the command in SCR at most (R204). -/
inductive Attempt where
  | done (t : State)
  | raise (c : Cause) (t : State)

/-- TAKING A FAULT: STATUS.HALT, CAUSE and FCMD are written and nothing else (R203). `w` is the faulting word. -/
def State.takeHalt (s : State) (c : Cause) (w : Command) : State :=
  { s with status := s.status ||| 1, cause := Cause.code c, fcmd := w.extractLsb' 0 32 }

/-- LEAVING HALT: the reset input. Every piece of the block takes its reset value and the parameters stay
(R206, R230, R231). The host's events are not the block's and stay pending. -/
def State.takeReset (s : State) : State := { State.resetWith s.params with pending := s.pending }

/-- The outcome of the command with word `w`: `ok` or `halt(c)`, a next state in both cases (R13). -/
def conclude (w : Command) : Attempt → Host.Outcome State Fault Refusal
  | .done t => .next t
  | .raise c t => .next (t.takeHalt c w)

/-- The slot-number check of R87, made before the command's own rule. -/
def withSlots (s : State) (dense : List Octet) (sparse : List Index) (rest : Attempt) : Attempt :=
  if dense.all (fun a => decide (a.toNat < s.params.nmat)) && sparse.all (fun r => decide (r.toNat < s.params.nsrow)) then
    rest
  else .raise .slot s

end Sys2Proof.Machine
end

