-- ==== Sys2Proof/Machine/Operands.lean ====
section
/-! DEFINITION. How a command's operands name storage: the stride function (00_scope.md R11), the addressing
modes and the range check (20_memory.md R62 to R65), the table product (40_field_multiply.md R101, R105),
the resize, pack and search procedures that several sparse commands share (R150, R154, R171). -/

namespace Sys2Proof.Machine

/-! ### Dense addressing -/

/-- `S(k)`, the least multiple of ALIGN not below `k`: R11. -/
def Params.stride (p : Params) (k : Nat) : Nat := (k + p.align - 1) / p.align * p.align

/-- `base(i, k) = i × S(k)`, exact: R62, R63. -/
def Params.base (p : Params) (i k : Nat) : Nat := i * p.stride k

/-- The offset of element (r, c) through the slot's own stride: R23, R65 (c). -/
def State.elementOffset (s : State) (a : Octet) (r c : Index) : Nat := r.toNat * (s.slot a).stride.toNat + c.toNat

/-- `need(a, o, n)` passes: no octet is touched, or the range lies in the buffer (R64). -/
abbrev State.Fits (s : State) (a : Octet) (o n : Nat) : Prop := n = 0 ∨ o + n ≤ s.len a

/-- The `n` octets of `M[a].buf` from offset `o`. -/
def State.readRow (s : State) (a : Octet) (o n : Nat) : List Octet := Memory.readRow (s.buf a) o n

/-- Write octets to `M[a].buf` from offset `o` up. The columns of a row do not interact (R131). -/
def State.writeRow (s : State) (a : Octet) (o : Nat) (vs : List Octet) : State :=
  s.setBuf a (Memory.writeRow (s.buf a) o vs)

/-! ### The field multiply -/

/-- `HI[u][n]`: R100. -/
def Tables.hiAt (t : Tables) (u : Octet) (n : Nibble) : Octet := (t.hi[u.toNat]'u.isLt)[n.toNat]'n.isLt

/-- `LO[u][n]`: R100. -/
def Tables.loAt (t : Tables) (u : Octet) (n : Nibble) : Octet := (t.lo[u.toNat]'u.isLt)[n.toNat]'n.isLt

/-- `tmul(u, x) = HI[u][x >> 4] ^ LO[u][x & 0xF]`: R101. -/
def Tables.tmul (t : Tables) (u x : Octet) : Octet :=
  t.hiAt u (x.extractLsb' 4 4) ^^^ t.loAt u (x.extractLsb' 0 4)

/-- The product inside AXPY and GEMM for a scalar that is not 0: the scalar 1 does not read the tables (R105, R136). -/
def Tables.axpyTerm (t : Tables) (u x : Octet) : Octet := if u = 1 then x else t.tmul u x

/-- Column by column `dst ^ u * src`, the step of the scaled-accumulate engine: R136. -/
def Tables.accumulate (t : Tables) (u : Octet) (dst src : List Octet) : List Octet :=
  List.zipWith (fun d x => d ^^^ t.axpyTerm u x) dst src

/-! ### Sparse rows -/

/-- `SR[s].idx[p]`. -/
def SparseRow.idxAt (r : SparseRow) (p : Nat) : Index := Memory.read r.idx p

/-- `SR[s].val[p]`. -/
def SparseRow.valAt (r : SparseRow) (p : Nat) : Octet := Memory.read r.val p

/-- The stored entries below `.nz`, in ascending position. -/
def SparseRow.entries (r : SparseRow) : List (Nat × Octet) :=
  (List.range r.nz.toNat).map fun p => ((r.idxAt p).toNat, r.valAt p)

/-- Every index below `.nz` fits the width: the check of R170 and R174. -/
abbrev SparseRow.IndicesBelow (r : SparseRow) (w : Nat) : Prop := ∀ p, p < r.nz.toNat → (r.idxAt p).toNat < w

/-- Store entries from position 0 up. -/
def SparseRow.putEntries (r : SparseRow) (es : List (Nat × Octet)) : SparseRow :=
  { r with idx := Memory.writeRow r.idx 0 (es.map fun e => BitVec.ofNat 16 e.1)
           val := Memory.writeRow r.val 0 (es.map fun e => e.2) }

/-- `row_resize(s, n)` on one row: R150. `none` is `raise Halt(ALLOC)`. -/
def SparseRow.resize (p : Params) (r : SparseRow) (n : Nat) : Option SparseRow :=
  let c := p.stride n
  if r.cap.toNat < c then
    if p.crCap < c then none
    else some { nz := BitVec.ofNat 17 n
                cap := BitVec.ofNat 17 c
                idx := Memory.clear r.idx r.cap.toNat (c - r.cap.toNat)
                val := Memory.clear r.val r.cap.toNat (c - r.cap.toNat) }
  else some { r with nz := BitVec.ofNat 17 n }

/-- The columns of a dense sequence that are not zero, ascending, each with its octet: R171. -/
def nonzeroEntries (d : List Octet) : List (Nat × Octet) :=
  ((List.range d.length).map fun c => (c, d.getD c 0)).filter fun e => e.2 != 0

/-- `row_pack(s, d, w)` on one row, `d` the `w` octets: R171. `none` is `raise Halt(ALLOC)`. -/
def SparseRow.pack (p : Params) (r : SparseRow) (d : List Octet) : Option SparseRow :=
  (r.resize p (nonzeroEntries d).length).map fun t => t.putEntries (nonzeroEntries d)

/-- Set `SR[s]` to a resized or packed row, or raise ALLOC before any write to it: R150, R171, R204. -/
def State.putRow (t : State) (s : Index) : Option SparseRow → Attempt
  | some r => .done (t.setRow s r)
  | none => .raise .alloc t

/-- The loop of `bsearch` (R154) over integers, with at most `fuel` probes: lower midpoint, three-way compare,
first hit returned. Each probe shortens the range, so the length of the range is enough fuel. -/
def bsearchLoop (e : Nat → Index) (x : Index) : (fuel : Nat) → (lo hi : Int) → Option Nat
  | 0, _, _ => none
  | fuel + 1, lo, hi =>
    if lo ≤ hi then
      let mid := lo + (hi - lo) / 2
      if e mid.toNat = x then some mid.toNat
      else if e mid.toNat < x then bsearchLoop e x fuel (mid + 1) hi
      else bsearchLoop e x fuel lo (mid - 1)
    else none

/-- `bsearch(s, lo, hi, x)`: R154; `none` is NOT_FOUND (R155). -/
def SparseRow.bsearch (r : SparseRow) (lo hi : Int) (x : Index) : Option Nat :=
  bsearchLoop r.idxAt x (hi - lo + 1).toNat lo hi

/-- The lowest position in `[l, r]` that holds `x`: R157. -/
def SparseRow.scan (row : SparseRow) (l r : Nat) (x : Index) : Option Nat :=
  ((List.range (r + 1 - l)).map fun c => l + c).find? fun p => row.idxAt p == x

end Sys2Proof.Machine
end

