-- ==== Sys2Proof/Machine/DenseElementary.lean ====
section
/-! DEFINITION. The dense elementary operations (42_dense_elementary.md). In each the no-operation cases come
before the range checks (R132) and every check before the first write (60_exceptions.md R204). -/

namespace Sys2Proof.Machine

/-- COPY_ROW: R133. -/
def execCopyRow (dst src : Octet) (i j k : Index) (s : State) : Host.Outcome State Fault Refusal :=
  conclude (encode (.copyRow dst src i j k)) <| withSlots s [dst, src] [] <|
    let bd := s.params.base i.toNat k.toNat
    let bs := s.params.base j.toNat k.toNat
    if ¬ s.Fits dst bd k.toNat then .raise .bounds s
    else if ¬ s.Fits src bs k.toNat then .raise .bounds s
    else .done (s.writeRow dst bd (s.readRow src bs k.toNat))

/-- SWAP_ROW: R134. -/
def execSwapRow (a : Octet) (i j k : Index) (s : State) : Host.Outcome State Fault Refusal :=
  conclude (encode (.swapRow a i j k)) <| withSlots s [a] [] <|
    let bi := s.params.base i.toNat k.toNat
    let bj := s.params.base j.toNat k.toNat
    if i = j then .done s
    else if ¬ s.Fits a bi k.toNat then .raise .bounds s
    else if ¬ s.Fits a bj k.toNat then .raise .bounds s
    else .done ((s.writeRow a bi (s.readRow a bj k.toNat)).writeRow a bj (s.readRow a bi k.toNat))

/-- The loop of SWAP_COL over the rows: exchange columns `i` and `j` of rows `0 .. k-1` of stride `st` (R135). -/
def swapColumns (m : Memory 8) (st i j k : Nat) : Memory 8 :=
  (List.range k).foldl (fun t r => Memory.swap t (r * st + i) (r * st + j)) m

/-- SWAP_COL: R135. `k` counts rows and `w` is the width that gives the stride. -/
def execSwapCol (a : Octet) (i j k w : Index) (s : State) : Host.Outcome State Fault Refusal :=
  conclude (encode (.swapCol a i j k w)) <| withSlots s [a] [] <|
    let st := s.params.stride w.toNat
    if i = j then .done s
    else if k = 0 then .done s
    else if ¬ (i < w ∧ j < w) then .raise .bounds s
    else if ¬ s.Fits a ((k.toNat - 1) * st) (max i.toNat j.toNat + 1) then .raise .bounds s
    else .done (s.setBuf a (swapColumns (s.buf a) st i.toNat j.toNat k.toNat))

/-- AXPY: R136. -/
def execAxpy (dst src : Octet) (i j k : Index) (u : Octet) (s : State) : Host.Outcome State Fault Refusal :=
  conclude (encode (.axpy dst src i j k u)) <| withSlots s [dst, src] [] <|
    let bd := s.params.base i.toNat k.toNat
    let bs := s.params.base j.toNat k.toNat
    if u = 0 then .done s
    else if ¬ s.Fits dst bd k.toNat then .raise .bounds s
    else if ¬ s.Fits src bs k.toNat then .raise .bounds s
    else .done (s.writeRow dst bd
      (s.params.tables.accumulate u (s.readRow dst bd k.toNat) (s.readRow src bs k.toNat)))

/-- ADD_ROW: R137. The tables are not read. -/
def execAddRow (dst src : Octet) (i j k : Index) (s : State) : Host.Outcome State Fault Refusal :=
  conclude (encode (.addRow dst src i j k)) <| withSlots s [dst, src] [] <|
    let bd := s.params.base i.toNat k.toNat
    let bs := s.params.base j.toNat k.toNat
    if ¬ s.Fits dst bd k.toNat then .raise .bounds s
    else if ¬ s.Fits src bs k.toNat then .raise .bounds s
    else .done (s.writeRow dst bd
      (List.zipWith (fun d x => d ^^^ x) (s.readRow dst bd k.toNat) (s.readRow src bs k.toNat)))

/-- SCALE_ROW: R139. The scalar 0 leaves the row as it is; the scalar 1 reads the tables (R105). -/
def execScaleRow (a : Octet) (i k : Index) (u : Octet) (s : State) : Host.Outcome State Fault Refusal :=
  conclude (encode (.scaleRow a i k u)) <| withSlots s [a] [] <|
    let b := s.params.base i.toNat k.toNat
    if u = 0 then .done s
    else if ¬ s.Fits a b k.toNat then .raise .bounds s
    else .done (s.writeRow a b ((s.readRow a b k.toNat).map (s.params.tables.tmul u)))

/-- ZERO_ROW: R141, with the 32-bit `k` in the base too (R62). -/
def execZeroRow (a : Octet) (i : Index) (k : Word) (s : State) : Host.Outcome State Fault Refusal :=
  conclude (encode (.zeroRow a i k)) <| withSlots s [a] [] <|
    let b := s.params.base i.toNat k.toNat
    if ¬ s.Fits a b k.toNat then .raise .bounds s
    else .done (s.setBuf a (Memory.clear (s.buf a) b k.toNat))

/-- One inner step of GEMM: `c[r][:] ^= uu * b[t][:]` when `uu` is not 0 (R142). -/
def gemmTerm (tb : Tables) (bufB : Memory 8) (m sm bc : Nat) (uu : Octet) (t : Nat) (bufC : Memory 8) : Memory 8 :=
  if uu = 0 then bufC
  else Memory.writeRow bufC bc
    (tb.accumulate uu (Memory.readRow bufC bc m) (Memory.readRow bufB (t * sm) m))

/-- One output row of GEMM: zero it, then accumulate the `k` terms (R142). -/
def gemmRow (tb : Tables) (bufA bufB : Memory 8) (k m sk sm r : Nat) (bufC : Memory 8) : Memory 8 :=
  (List.range k).foldl
    (fun acc t => gemmTerm tb bufB m sm (r * sm) (Memory.read bufA (r * sk + t)) t acc)
    (Memory.clear bufC (r * sm) m)

/-- The rows of GEMM in ascending order: R142. -/
def gemmRows (tb : Tables) (bufA bufB : Memory 8) (n k m sk sm : Nat) (bufC : Memory 8) : Memory 8 :=
  (List.range n).foldl (fun acc r => gemmRow tb bufA bufB k m sk sm r acc) bufC

/-- GEMM: R142. `a` has rows of width `k`; `b` and `c` have rows of width `m`. -/
def execGemm (a b c : Octet) (n k m : Index) (s : State) : Host.Outcome State Fault Refusal :=
  conclude (encode (.gemm a b c n k m)) <| withSlots s [a, b, c] [] <|
    let sk := s.params.stride k.toNat
    let sm := s.params.stride m.toNat
    if n = 0 then .done s
    else if c = a ∨ c = b then .raise .aliasing s
    else if ¬ s.Fits c ((n.toNat - 1) * sm) m.toNat then .raise .bounds s
    else if k ≠ 0 ∧ ¬ s.Fits a ((n.toNat - 1) * sk) k.toNat then .raise .bounds s
    else if k ≠ 0 ∧ ¬ s.Fits b ((k.toNat - 1) * sm) m.toNat then .raise .bounds s
    else .done (s.setBuf c
      (gemmRows s.params.tables (s.buf a) (s.buf b) n.toNat k.toNat m.toNat sk sm (s.buf c)))

end Sys2Proof.Machine
end

