-- ==== Sys2Proof/Machine/DenseStore.lean ====
section
/-! DEFINITION. The dense matrix store: lifecycle and host access (41_dense_lifecycle_access.md). -/

namespace Sys2Proof.Machine

/-- OM_RESIZE: R111. -/
def execOmResize (a : Octet) (rows cols : Index) (s : State) : Host.Outcome State Fault Refusal :=
  conclude (encode (.omResize a rows cols)) <| withSlots s [a] [] <|
    let st := s.params.stride cols.toNat
    if s.params.dmCap < rows.toNat * st then .raise .alloc s
    else .done (s.setSlot a { valid := true, rows := rows, cols := cols, stride := BitVec.ofNat 17 st, buf := [] })

/-- OM_COPY: R112. The destination takes the descriptor and all `len(src)` octets of the source. -/
def execOmCopy (dst src : Octet) (s : State) : Host.Outcome State Fault Refusal :=
  conclude (encode (.omCopy dst src)) <| withSlots s [dst, src] [] <|
    if (s.slot dst).valid = true ∧ s.len dst < s.len src then .raise .bounds s
    else .done (s.setSlot dst { s.slot src with valid := true, buf := Memory.below (s.buf src) (s.len src) })

/-- OM_DESTROY: R113. -/
def execOmDestroy (a : Octet) (s : State) : Host.Outcome State Fault Refusal :=
  conclude (encode (.omDestroy a)) <| withSlots s [a] [] <| .done (s.setSlot a emptyDense)

/-- OM_LDB: R115. -/
def execOmLdb (a : Octet) (off : Word) (s : State) : Host.Outcome State Fault Refusal :=
  conclude (encode (.omLdb a off)) <| withSlots s [a] [] <|
    if s.len a ≤ off.toNat then .raise .bounds s
    else .done (s.setResult ((s.dRead a off.toNat).setWidth 32))

/-- OM_STB: R116. -/
def execOmStb (a : Octet) (off : Word) (value : Octet) (s : State) : Host.Outcome State Fault Refusal :=
  conclude (encode (.omStb a off value)) <| withSlots s [a] [] <|
    if s.len a ≤ off.toNat then .raise .bounds s
    else .done (s.dWrite a off.toNat value)

/-- OM_GET: R117. -/
def execOmGet (a : Octet) (r c : Index) (s : State) : Host.Outcome State Fault Refusal :=
  conclude (encode (.omGet a r c)) <| withSlots s [a] [] <|
    if ¬ (r < (s.slot a).rows ∧ c < (s.slot a).cols) then .raise .bounds s
    else .done (s.setResult ((s.dRead a (s.elementOffset a r c)).setWidth 32))

/-- OM_PUT: R118. -/
def execOmPut (a : Octet) (r c : Index) (value : Octet) (s : State) : Host.Outcome State Fault Refusal :=
  conclude (encode (.omPut a r c value)) <| withSlots s [a] [] <|
    if ¬ (r < (s.slot a).rows ∧ c < (s.slot a).cols) then .raise .bounds s
    else .done (s.dWrite a (s.elementOffset a r c) value)

end Sys2Proof.Machine
end

