-- ==== Sys2Proof/Machine/FieldMultiply.lean ====
section
/-! DEFINITION. The field-multiply unit's command, FMUL (40_field_multiply.md). -/

namespace Sys2Proof.Machine

/-- FMUL: R106. No fast path. -/
def execFmul (u x : Octet) (s : State) : Host.Outcome State Fault Refusal :=
  conclude (encode (.fmul u x)) (.done (s.setResult ((s.params.tables.tmul u x).setWidth 32)))

end Sys2Proof.Machine
end

