-- ==== Sys2Proof/Machine/SparseArith.lean ====
section
/-! DEFINITION. The converters, the sparse arithmetic through the scratch buffer and the sparse column swap
(44_sparse_convert_arith.md). -/

namespace Sys2Proof.Machine

/-- CR_UNPACK: R170. It writes only the positions the row names. -/
def execCrUnpack (r : Index) (a : Octet) (i k : Index) (s : State) : Host.Outcome State Fault Refusal :=
  conclude (encode (.crUnpack r a i k)) <| withSlots s [a] [r] <|
    let b := s.params.base i.toNat k.toNat
    if (s.row r).nz = 0 then .done s
    else if ¬ (s.row r).IndicesBelow k.toNat then .raise .bounds s
    else if ¬ s.Fits a b k.toNat then .raise .bounds s
    else .done (s.setBuf a (Memory.scatter (s.buf a) b (s.row r).entries))

/-- CR_PACK: R171. -/
def execCrPack (r : Index) (a : Octet) (i k : Index) (s : State) : Host.Outcome State Fault Refusal :=
  conclude (encode (.crPack r a i k)) <| withSlots s [a] [r] <|
    let b := s.params.base i.toNat k.toNat
    if ¬ s.Fits a b k.toNat then .raise .bounds s
    else s.putRow r ((s.row r).pack s.params (s.readRow a b k.toNat))

/-- XOR each (offset, value) pair of `b`, scaled by `f`, into the scratch buffer, in the order of the list: R174, R175. -/
def xorInto (f : Octet → Octet) (m : Memory 8) (es : List (Nat × Octet)) : Memory 8 :=
  es.foldl (fun t e => Memory.write t e.1 (Memory.read t e.1 ^^^ f e.2)) m

/-- The content of SCR after the scratch computation of CR_ADD and CR_SADD, `f` the scaling of `b`: R174, R175. -/
def scratchSum (f : Octet → Octet) (scr : Memory 8) (ra rb : SparseRow) (w : Nat) : Memory 8 :=
  xorInto f (Memory.scatter (Memory.clear scr 0 w) 0 ra.entries) rb.entries

/-- CR_ADD and CR_SADD once their no-operation case is past: the checks, the scratch computation, the re-pack
(R173, R174). The ALLOC of the re-pack is raised with SCR written (log entry 5). -/
def addThroughScratch (f : Octet → Octet) (sa sb w : Index) (s : State) : Attempt :=
  if ¬ (s.row sa).IndicesBelow w.toNat then .raise .bounds s
  else if ¬ (s.row sb).IndicesBelow w.toNat then .raise .bounds s
  else if s.params.scrCap < w.toNat then .raise .alloc s
  else
    let scr := scratchSum f s.scr (s.row sa) (s.row sb) w.toNat
    State.putRow { s with scr := scr } sa ((s.row sa).pack s.params (Memory.readRow scr 0 w.toNat))

/-- CR_ADD: R174. -/
def execCrAdd (sa sb w : Index) (s : State) : Host.Outcome State Fault Refusal :=
  conclude (encode (.crAdd sa sb w)) <| withSlots s [] [sa, sb] <| addThroughScratch (fun v => v) sa sb w s

/-- CR_SADD: R175. The scalar 0 is a no-operation before every check; the scalar 1 reads the tables (R105). -/
def execCrSadd (sa sb : Index) (u : Octet) (w : Index) (s : State) : Host.Outcome State Fault Refusal :=
  conclude (encode (.crSadd sa sb u w)) <| withSlots s [] [sa, sb] <|
    if u = 0 then .done s else addThroughScratch (s.params.tables.tmul u) sa sb w s

/-- Relocation in mode ORDERED: the entry at position `p` is removed and (t, its value) is inserted before the
first entry with a larger index: R178. -/
def SparseRow.relocateOrdered (r : SparseRow) (p : Nat) (t : Index) : SparseRow :=
  let e := r.entries.eraseIdx p
  r.putEntries (e.takeWhile (fun z => decide (z.1 ≤ t.toNat)) ++ (t.toNat, r.valAt p) ::
    e.dropWhile (fun z => decide (z.1 ≤ t.toNat)))

/-- Relocation in mode LEGACY_APPEND: grow by one, append, and keep the old entry with a zero value: R179. -/
def SparseRow.relocateAppend (ps : Params) (r : SparseRow) (p : Nat) (t : Index) : Option SparseRow :=
  (r.resize ps (r.nz.toNat + 1)).map fun g =>
    { g with idx := Memory.write g.idx r.nz.toNat t
             val := Memory.write (Memory.write g.val r.nz.toNat (r.valAt p)) p 0 }

/-- Relocate the entry at position `p` to index `t`, by the mode of the block: R177. -/
def SparseRow.relocate (ps : Params) (r : SparseRow) (p : Nat) (t : Index) : Option SparseRow :=
  match ps.swapcolMode with
  | .ordered => some (r.relocateOrdered p t)
  | .legacyAppend => r.relocateAppend ps p t

/-- CR_SWAPCOL: R177. Both searches are made on the row as it is before any change. -/
def execCrSwapcol (r i j : Index) (s : State) : Host.Outcome State Fault Refusal :=
  conclude (encode (.crSwapcol r i j)) <| withSlots s [] [r] <|
    let row := s.row r
    match row.bsearch 0 ((row.nz.toNat : Int) - 1) i, row.bsearch 0 ((row.nz.toNat : Int) - 1) j with
    | none, none => .done s
    | some pi, some pj => .done (s.setRow r { row with val := Memory.swap row.val pi pj })
    | some pi, none => s.putRow r (row.relocate s.params pi j)
    | none, some pj => s.putRow r (row.relocate s.params pj i)

end Sys2Proof.Machine
end

