-- ==== Sys2Proof/Machine/SparseMatrix.lean ====
section
/-! DEFINITION. The sparse matrix aggregate (45_sparse_matrix.md). -/

namespace Sys2Proof.Machine

/-- Empty the first `n` sparse slots: R190, R191. -/
def emptyRows : (n : Nat) → List SparseRow → List SparseRow
  | 0, rs => rs
  | _ + 1, [] => []
  | n + 1, _ :: rs => emptyRow :: emptyRows n rs

/-- CM_RESIZE: R190. -/
def execCmResize (rows cols : Index) (s : State) : Host.Outcome State Fault Refusal :=
  conclude (encode (.cmResize rows cols)) <|
    if s.params.nsrow < rows.toNat then .raise .alloc s
    else .done { s with sparse := emptyRows rows.toNat s.sparse, cmRows := rows.setWidth 17, cmCols := cols }

/-- CM_DESTROY: R191. -/
def execCmDestroy (s : State) : Host.Outcome State Fault Refusal :=
  conclude (encode .cmDestroy) <|
    .done { s with sparse := emptyRows s.cmRows.toNat s.sparse, cmRows := 0, cmCols := 0 }

end Sys2Proof.Machine
end

