-- ==== Sys2Proof/Machine/SparseStore.lean ====
section
/-! DEFINITION. The sparse row store: lifecycle, search and read-back (43_sparse_row_lifecycle_search.md). -/

namespace Sys2Proof.Machine

/-- CR_RESIZE: R150. -/
def execCrResize (r newNz : Index) (s : State) : Host.Outcome State Fault Refusal :=
  conclude (encode (.crResize r newNz)) <| withSlots s [] [r] <|
    s.putRow r ((s.row r).resize s.params newNz.toNat)

/-- CR_COPY: R152. -/
def execCrCopy (sd ss : Index) (s : State) : Host.Outcome State Fault Refusal :=
  conclude (encode (.crCopy sd ss)) <| withSlots s [] [sd, ss] <|
    s.putRow sd (((s.row sd).resize s.params (s.row ss).nz.toNat).map fun t => t.putEntries (s.row ss).entries)

/-- CR_DESTROY: R153. -/
def execCrDestroy (r : Index) (s : State) : Host.Outcome State Fault Refusal :=
  conclude (encode (.crDestroy r)) <| withSlots s [] [r] <| .done (s.setRow r emptyRow)

/-- CR_FIND: R154. -/
def execCrFind (row l r x : Index) (s : State) : Host.Outcome State Fault Refusal :=
  conclude (encode (.crFind row l r x)) <| withSlots s [] [row] <|
    if r < l then .done (s.setResult notFound)
    else if (s.row row).cap.toNat ≤ r.toNat then .raise .bounds s
    else .done (s.setResult (positionWord ((s.row row).bsearch l.toNat r.toNat x)))

/-- CR_SCAN: R157. -/
def execCrScan (row l r x : Index) (s : State) : Host.Outcome State Fault Refusal :=
  conclude (encode (.crScan row l r x)) <| withSlots s [] [row] <|
    if r < l then .done (s.setResult notFound)
    else if (s.row row).cap.toNat ≤ r.toNat then .raise .bounds s
    else .done (s.setResult (positionWord ((s.row row).scan l.toNat r.toNat x)))

/-- CR_GETNZ: R158. -/
def execCrGetnz (r : Index) (s : State) : Host.Outcome State Fault Refusal :=
  conclude (encode (.crGetnz r)) <| withSlots s [] [r] <| .done (s.setResult ((s.row r).nz.setWidth 32))

/-- CR_GETCAP: R159. -/
def execCrGetcap (r : Index) (s : State) : Host.Outcome State Fault Refusal :=
  conclude (encode (.crGetcap r)) <| withSlots s [] [r] <| .done (s.setResult ((s.row r).cap.setWidth 32))

/-- CR_GETIDX: R160. -/
def execCrGetidx (r p : Index) (s : State) : Host.Outcome State Fault Refusal :=
  conclude (encode (.crGetidx r p)) <| withSlots s [] [r] <|
    if (s.row r).cap.toNat ≤ p.toNat then .raise .bounds s
    else .done (s.setResult (((s.row r).idxAt p.toNat).setWidth 32))

/-- CR_GETVAL: R161. -/
def execCrGetval (r p : Index) (s : State) : Host.Outcome State Fault Refusal :=
  conclude (encode (.crGetval r p)) <| withSlots s [] [r] <|
    if (s.row r).cap.toNat ≤ p.toNat then .raise .bounds s
    else .done (s.setResult (((s.row r).valAt p.toNat).setWidth 32))

end Sys2Proof.Machine
end

