-- ==== Sys2Proof/Machine/Dispatch.lean ====
section
/-! DEFINITION. One arm for each command (30_encoding.md R84). -/

namespace Sys2Proof.Machine

-- exec is applied to a decoded command of a block that is not in HALT (R88): see Machine/Port.lean.
def exec (i : Instr) (s : State) : Host.Outcome State Fault Refusal :=
  match i with
  | .fmul u x => Sys2Proof.Machine.execFmul u x s
  | .omResize a rows cols => Sys2Proof.Machine.execOmResize a rows cols s
  | .omCopy dst src => Sys2Proof.Machine.execOmCopy dst src s
  | .omDestroy a => Sys2Proof.Machine.execOmDestroy a s
  | .omLdb a off => Sys2Proof.Machine.execOmLdb a off s
  | .omStb a off value => Sys2Proof.Machine.execOmStb a off value s
  | .omGet a r c => Sys2Proof.Machine.execOmGet a r c s
  | .omPut a r c value => Sys2Proof.Machine.execOmPut a r c value s
  | .copyRow dst src ri rj k => Sys2Proof.Machine.execCopyRow dst src ri rj k s
  | .swapRow a ri rj k => Sys2Proof.Machine.execSwapRow a ri rj k s
  | .swapCol a ci cj k w => Sys2Proof.Machine.execSwapCol a ci cj k w s
  | .axpy dst src ri rj k u => Sys2Proof.Machine.execAxpy dst src ri rj k u s
  | .addRow dst src ri rj k => Sys2Proof.Machine.execAddRow dst src ri rj k s
  | .scaleRow a ri k u => Sys2Proof.Machine.execScaleRow a ri k u s
  | .zeroRow a ri k => Sys2Proof.Machine.execZeroRow a ri k s
  | .gemm a b c n k m => Sys2Proof.Machine.execGemm a b c n k m s
  | .crResize r newNz => Sys2Proof.Machine.execCrResize r newNz s
  | .crCopy sd ss => Sys2Proof.Machine.execCrCopy sd ss s
  | .crDestroy r => Sys2Proof.Machine.execCrDestroy r s
  | .crFind row l r x => Sys2Proof.Machine.execCrFind row l r x s
  | .crScan row l r x => Sys2Proof.Machine.execCrScan row l r x s
  | .crGetnz r => Sys2Proof.Machine.execCrGetnz r s
  | .crGetcap r => Sys2Proof.Machine.execCrGetcap r s
  | .crGetidx r p => Sys2Proof.Machine.execCrGetidx r p s
  | .crGetval r p => Sys2Proof.Machine.execCrGetval r p s
  | .crUnpack r a ri k => Sys2Proof.Machine.execCrUnpack r a ri k s
  | .crPack r a ri k => Sys2Proof.Machine.execCrPack r a ri k s
  | .crAdd sa sb w => Sys2Proof.Machine.execCrAdd sa sb w s
  | .crSadd sa sb u w => Sys2Proof.Machine.execCrSadd sa sb u w s
  | .crSwapcol r ci cj => Sys2Proof.Machine.execCrSwapcol r ci cj s
  | .cmResize rows cols => Sys2Proof.Machine.execCmResize rows cols s
  | .cmDestroy => Sys2Proof.Machine.execCmDestroy s

end Sys2Proof.Machine
end

