-- ==== Sys2Proof/Machine/Port.lean ====
section
/-! DEFINITION. The ports of the block (00_scope.md R5): the register read port (10_state.md R42 to R44), the
command port with its order of processing (30_encoding.md R88), and how one host event is taken. -/

namespace Sys2Proof.Machine

/-- CFG_MODE: R43. -/
def SwapcolMode.code : SwapcolMode → Word
  | .ordered => 0
  | .legacyAppend => 1

/-- The fixed registers at their byte addresses: R44. -/
def State.fixedRegister (s : State) : Nat → Option Word
  | 0x000 => some s.status
  | 0x004 => some s.cause
  | 0x008 => some s.fcmd
  | 0x00C => some s.result
  | 0x010 => some (s.cmRows.setWidth 32)
  | 0x014 => some (s.cmCols.setWidth 32)
  | 0x020 => some (BitVec.ofNat 32 s.params.align)
  | 0x024 => some (BitVec.ofNat 32 s.params.nmat)
  | 0x028 => some (BitVec.ofNat 32 s.params.dmCap)
  | 0x02C => some (BitVec.ofNat 32 s.params.nsrow)
  | 0x030 => some (BitVec.ofNat 32 s.params.crCap)
  | 0x034 => some (BitVec.ofNat 32 s.params.scrCap)
  | 0x038 => some (SwapcolMode.code s.params.swapcolMode)
  | _ => none

/-- The descriptor register of a dense slot at offset 0, 4, 8 or 12 of its group of four: R42, R44. -/
def DenseSlot.descriptor (d : DenseSlot) : Nat → Word
  | 0 => if d.valid then 1 else 0
  | 4 => d.rows.setWidth 32
  | 8 => d.cols.setWidth 32
  | 12 => d.stride.setWidth 32
  | _ => 0

/-- The register read port: R44. An address outside the map, or not a multiple of 4, returns 0. -/
def State.readRegister (s : State) (addr : Nat) : Word :=
  match s.fixedRegister addr with
  | some v => v
  | none =>
    if 0x100 ≤ addr ∧ (addr - 0x100) / 0x10 < s.params.nmat then
      DenseSlot.descriptor (s.dense.getD ((addr - 0x100) / 0x10) emptyDense) ((addr - 0x100) % 0x10)
    else 0

/-- What the host learns from the state a command left a block in that was not in HALT before it: R13. -/
def State.outcomeReply (t : State) : Reply := if t.halted then .halt t.cause else .ok

/-- A completed step of the command port, with the outcome told to the host: R13. -/
def tellOutcome : Host.Outcome State Fault Refusal → Host.Outcome State Fault Refusal
  | .next t => .next { t with reply := t.outcomeReply }
  | .fault r => .fault r
  | .refused r => .refused r

/-- A word at the command port: refused in HALT without being decoded, then ILLEGAL, then the command, whose
meaning begins with the SLOT check (R88, R205, R210). -/
def issue (w : Command) (s : State) : Host.Outcome State Fault Refusal :=
  if s.halted then .next { s with reply := .refused }
  else match decode w with
    | .illegal _ => tellOutcome (conclude w (.raise .illegal s))
    | .instr i => tellOutcome (exec i s)

/-- Take one host event: R5, R44, R72, R230. -/
def takeEvent (e : HostEvent) (s : State) : Host.Outcome State Fault Refusal :=
  match e with
  | .command w => issue w s
  | .regRead addr => .next { s with reply := .data (s.readRegister addr) }
  | .reset => .next s.takeReset

/-- Take the next host event; with none pending the block is idle and keeps all state (R222). -/
def advance (s : State) : Host.Outcome State Fault Refusal :=
  match s.pending with
  | [] => .next s
  | e :: rest => takeEvent e { s with pending := rest }

/-- `s` with the command word of `nbits` bits `w` (the bits above `nbits` zero) as the next host event. -/
def State.putNextWord (s : State) (nbits w : Nat) : State :=
  { s with pending := .command (BitVec.ofNat 128 (w % 2 ^ nbits)) :: s.pending }

end Sys2Proof.Machine
end

