-- ==== Sys2Proof/Machine/Step.lean ====
section
/-! DEFINITION. One step of the block: one host event taken to completion (00_scope.md R6, 20_memory.md R72). -/

namespace Sys2Proof.Machine

/-- One step: R6. It never faults and never refuses: a fault of the block is a next state in HALT (R203). -/
def step (s : State) : Host.Outcome State Fault Refusal := advance s

/-- `s` with this command as the next event the host issues. It stands for the host issuing the word (log entry 2). -/
def State.withFetchWord (s : State) (nbits w : Nat) : State := s.putNextWord nbits w

end Sys2Proof.Machine
end

