-- ==== Sys2Proof/Machine/Assembler.lean ====
section
/-! DEFINITION. The assembler text of a command (30_encoding.md R92). Nothing in the machine reads it: the block
takes words only. -/

namespace Sys2Proof.Machine

/-- A dense slot in the text: `M<n>` (R92). -/
def denseText (a : Octet) : String := "M" ++ toString a.toNat

/-- A sparse slot in the text: `S<n>` (R92). -/
def sparseText (s : Index) : String := "S" ++ toString s.toNat

/-- Any other operand in the text, in decimal (R92). -/
def numberText {w : Nat} (v : BitVec w) : String := toString v.toNat

/-- The mnemonic of a command: R84, R92. -/
def mnemonicOf : Instr → String
  | .fmul _ _ => "FMUL"
  | .omResize _ _ _ => "OM_RESIZE"
  | .omCopy _ _ => "OM_COPY"
  | .omDestroy _ => "OM_DESTROY"
  | .omLdb _ _ => "OM_LDB"
  | .omStb _ _ _ => "OM_STB"
  | .omGet _ _ _ => "OM_GET"
  | .omPut _ _ _ _ => "OM_PUT"
  | .copyRow _ _ _ _ _ => "COPY_ROW"
  | .swapRow _ _ _ _ => "SWAP_ROW"
  | .swapCol _ _ _ _ _ => "SWAP_COL"
  | .axpy _ _ _ _ _ _ => "AXPY"
  | .addRow _ _ _ _ _ => "ADD_ROW"
  | .scaleRow _ _ _ _ => "SCALE_ROW"
  | .zeroRow _ _ _ => "ZERO_ROW"
  | .gemm _ _ _ _ _ _ => "GEMM"
  | .crResize _ _ => "CR_RESIZE"
  | .crCopy _ _ => "CR_COPY"
  | .crDestroy _ => "CR_DESTROY"
  | .crFind _ _ _ _ => "CR_FIND"
  | .crScan _ _ _ _ => "CR_SCAN"
  | .crGetnz _ => "CR_GETNZ"
  | .crGetcap _ => "CR_GETCAP"
  | .crGetidx _ _ => "CR_GETIDX"
  | .crGetval _ _ => "CR_GETVAL"
  | .crUnpack _ _ _ _ => "CR_UNPACK"
  | .crPack _ _ _ _ => "CR_PACK"
  | .crAdd _ _ _ => "CR_ADD"
  | .crSadd _ _ _ _ => "CR_SADD"
  | .crSwapcol _ _ _ => "CR_SWAPCOL"
  | .cmResize _ _ => "CM_RESIZE"
  | .cmDestroy => "CM_DESTROY"

/-- The operands of a command as text, in the order of R92. -/
def operandTexts : Instr → List String
  | .fmul u x => [numberText u, numberText x]
  | .omResize a rows cols => [denseText a, numberText rows, numberText cols]
  | .omCopy dst src => [denseText dst, denseText src]
  | .omDestroy a => [denseText a]
  | .omLdb a off => [denseText a, numberText off]
  | .omStb a off value => [denseText a, numberText off, numberText value]
  | .omGet a r c => [denseText a, numberText r, numberText c]
  | .omPut a r c value => [denseText a, numberText r, numberText c, numberText value]
  | .copyRow dst src i j k => [denseText dst, denseText src, numberText i, numberText j, numberText k]
  | .swapRow a i j k => [denseText a, numberText i, numberText j, numberText k]
  | .swapCol a i j k w => [denseText a, numberText i, numberText j, numberText k, numberText w]
  | .axpy dst src i j k u => [denseText dst, denseText src, numberText i, numberText j, numberText k, numberText u]
  | .addRow dst src i j k => [denseText dst, denseText src, numberText i, numberText j, numberText k]
  | .scaleRow a i k u => [denseText a, numberText i, numberText k, numberText u]
  | .zeroRow a i k => [denseText a, numberText i, numberText k]
  | .gemm a b c n k m => [denseText a, denseText b, denseText c, numberText n, numberText k, numberText m]
  | .crResize s newNz => [sparseText s, numberText newNz]
  | .crCopy sd ss => [sparseText sd, sparseText ss]
  | .crDestroy s => [sparseText s]
  | .crFind s l r x => [sparseText s, numberText l, numberText r, numberText x]
  | .crScan s l r x => [sparseText s, numberText l, numberText r, numberText x]
  | .crGetnz s => [sparseText s]
  | .crGetcap s => [sparseText s]
  | .crGetidx s p => [sparseText s, numberText p]
  | .crGetval s p => [sparseText s, numberText p]
  | .crUnpack s a i k => [sparseText s, denseText a, numberText i, numberText k]
  | .crPack s a i k => [sparseText s, denseText a, numberText i, numberText k]
  | .crAdd sa sb w => [sparseText sa, sparseText sb, numberText w]
  | .crSadd sa sb u w => [sparseText sa, sparseText sb, numberText u, numberText w]
  | .crSwapcol s i j => [sparseText s, numberText i, numberText j]
  | .cmResize rows cols => [numberText rows, numberText cols]
  | .cmDestroy => []

/-- The text of a command: R92. -/
def assemblerText (i : Instr) : String :=
  match operandTexts i with
  | [] => mnemonicOf i
  | ts => mnemonicOf i ++ " " ++ ", ".intercalate ts

end Sys2Proof.Machine
end

