-- ==== Sys2Proof/WellFormed.lean ====
section
/-! DEFINITION. Which commands name only slots the block has (00_scope.md R10, 30_encoding.md R87).
Every other operand range of R82 is in the types of Syntax.lean. A command that is not well formed
still decodes and runs: it halts with SLOT. -/

namespace Sys2Proof

/-- The dense slot fields a command uses: R82, R87. -/
def Instr.denseSlots : Instr → List Octet
  | .omResize a _ _ => [a]
  | .omCopy dst src => [dst, src]
  | .omDestroy a => [a]
  | .omLdb a _ => [a]
  | .omStb a _ _ => [a]
  | .omGet a _ _ => [a]
  | .omPut a _ _ _ => [a]
  | .copyRow dst src _ _ _ => [dst, src]
  | .swapRow a _ _ _ => [a]
  | .swapCol a _ _ _ _ => [a]
  | .axpy dst src _ _ _ _ => [dst, src]
  | .addRow dst src _ _ _ => [dst, src]
  | .scaleRow a _ _ _ => [a]
  | .zeroRow a _ _ => [a]
  | .gemm a b c _ _ _ => [a, b, c]
  | .crUnpack _ a _ _ => [a]
  | .crPack _ a _ _ => [a]
  | .fmul _ _ | .crResize _ _ | .crCopy _ _ | .crDestroy _ | .crFind _ _ _ _ | .crScan _ _ _ _
  | .crGetnz _ | .crGetcap _ | .crGetidx _ _ | .crGetval _ _ | .crAdd _ _ _ | .crSadd _ _ _ _
  | .crSwapcol _ _ _ | .cmResize _ _ | .cmDestroy => []

/-- The sparse slot operands a command uses: R82, R87. -/
def Instr.sparseSlots : Instr → List Index
  | .crResize s _ => [s]
  | .crCopy sd ss => [sd, ss]
  | .crDestroy s => [s]
  | .crFind s _ _ _ => [s]
  | .crScan s _ _ _ => [s]
  | .crGetnz s => [s]
  | .crGetcap s => [s]
  | .crGetidx s _ => [s]
  | .crGetval s _ => [s]
  | .crUnpack s _ _ _ => [s]
  | .crPack s _ _ _ => [s]
  | .crAdd sa sb _ => [sa, sb]
  | .crSadd sa sb _ _ => [sa, sb]
  | .crSwapcol s _ _ => [s]
  | .fmul _ _ | .omResize _ _ _ | .omCopy _ _ | .omDestroy _ | .omLdb _ _ | .omStb _ _ _
  | .omGet _ _ _ | .omPut _ _ _ _ | .copyRow _ _ _ _ _ | .swapRow _ _ _ _ | .swapCol _ _ _ _ _
  | .axpy _ _ _ _ _ _ | .addRow _ _ _ _ _ | .scaleRow _ _ _ _ | .zeroRow _ _ _
  | .gemm _ _ _ _ _ _ | .cmResize _ _ | .cmDestroy => []

/-- Every slot the command names exists in a block with these parameters: R87. -/
abbrev Instr.WellFormed (p : Machine.Params) (i : Instr) : Prop :=
  i.denseSlots.all (fun a => decide (a.toNat < p.nmat)) = true ∧
  i.sparseSlots.all (fun s => decide (s.toNat < p.nsrow)) = true

end Sys2Proof
end

