-- ==== Sys2Proof/Safety.lean ====
section
/-! DEFINITION. The terms in which claims about the block are stated: the invariants of 10_state.md R22 and R28,
the dense view of a sparse row (R31), what a command leaves unchanged, what a halt is (60_exceptions.md R203),
the property TBL-FIELD of the tables (40_field_multiply.md R102) and a run that has gone wrong (R205). -/

namespace Sys2Proof.Machine

/-! ### The invariants -/

/-- The invariants of a dense slot: R22. -/
abbrev DenseSlot.Wf (p : Params) (d : DenseSlot) : Prop :=
  d.stride.toNat = p.stride d.cols.toNat ∧
  d.rows.toNat * d.stride.toNat ≤ p.dmCap ∧
  (d.valid = false → d.rows = 0 ∧ d.cols = 0 ∧ d.stride = 0) ∧
  Memory.wf d.buf ∧ Memory.Below d.buf (d.rows.toNat * d.stride.toNat)

/-- The structural invariants of a sparse slot: R28. -/
abbrev SparseRow.Wf (p : Params) (r : SparseRow) : Prop :=
  r.nz.toNat ≤ r.cap.toNat ∧ r.cap.toNat % p.align = 0 ∧ r.cap.toNat ≤ p.crCap ∧
  (Memory.wf r.idx ∧ Memory.Below r.idx r.cap.toNat) ∧ (Memory.wf r.val ∧ Memory.Below r.val r.cap.toNat)

/-- The invariant of the block: legal parameters (R7), NMAT dense slots and NSROW sparse slots that keep R22 and R28,
CM_ROWS at most NSROW (R32), SCR within its capacity (R34), and STATUS, CAUSE and FCMD all zero or
STATUS 1 with a cause code (R35, R36, R37). -/
abbrev State.Wf (s : State) : Prop :=
  s.params.Legal ∧
  (s.dense.length = s.params.nmat ∧ ∀ d ∈ s.dense, d.Wf s.params) ∧
  (s.sparse.length = s.params.nsrow ∧ ∀ r ∈ s.sparse, r.Wf s.params) ∧
  s.cmRows.toNat ≤ s.params.nsrow ∧
  (Memory.wf s.scr ∧ Memory.Below s.scr s.params.scrCap) ∧
  ((s.status = 0 ∧ s.cause = 0 ∧ s.fcmd = 0) ∨ (s.status = 1 ∧ 1 ≤ s.cause ∧ s.cause ≤ 5))

/-- The block has the dense slot `a`: R87. -/
abbrev State.HasSlot (s : State) (a : Octet) : Prop := a.toNat < s.params.nmat

/-- The block has the sparse slot `r`: R87. -/
abbrev State.HasRow (s : State) (r : Index) : Prop := r.toNat < s.params.nsrow

/-! ### Words, halts and runs -/

/-- The word of the command has these fields: R80, R82. -/
def EncodedAs (i : Instr) (f : Fields) : Prop := Fields.ofWord (encode i) = f

/-- The command halts with this cause: STATUS.HALT, CAUSE and FCMD are written and nothing else changes (R203). -/
def HaltsWith (i : Instr) (s : State) (c : Cause) : Prop :=
  exec i s = .next { s with status := s.status ||| 1, cause := Cause.code c, fcmd := (encode i).extractLsb' 0 32 }

/-- The last command was refused or halted, so no claim about the data should be drawn from the run: R205. -/
def State.goneWrong (s : State) : Bool :=
  s.halted || match s.reply with
    | .refused | .halt _ => true
    | .none | .ok | .data _ => false

/-- The run has ended: the host's list is exhausted or the block is in HALT (R14). -/
def State.runEnded (s : State) : Bool := s.pending.isEmpty || s.halted

/-! ### What a command leaves unchanged -/

/-- Only dense slot `a` differs. -/
def OnlySlot (a : Octet) (s t : State) : Prop :=
  t = { s with dense := t.dense } ∧ t.dense.length = s.dense.length ∧
  ∀ n, n ≠ a.toNat → t.dense[n]? = s.dense[n]?

/-- Only octets of the buffer of dense slot `a` differ. -/
def OnlyBufferOf (a : Octet) (s t : State) : Prop :=
  OnlySlot a s t ∧ t.slot a = { s.slot a with buf := t.buf a }

/-- Only sparse slot `r` differs. -/
def OnlyRow (r : Index) (s t : State) : Prop :=
  t = { s with sparse := t.sparse } ∧ t.sparse.length = s.sparse.length ∧
  ∀ n, n ≠ r.toNat → t.sparse[n]? = s.sparse[n]?

/-- The dense slot a command can write: R26. -/
def denseTarget : Instr → Option Octet
  | .omResize a _ _ => some a
  | .omCopy dst _ => some dst
  | .omDestroy a => some a
  | .omStb a _ _ => some a
  | .omPut a _ _ _ => some a
  | .copyRow dst _ _ _ _ => some dst
  | .swapRow a _ _ _ => some a
  | .swapCol a _ _ _ _ => some a
  | .axpy dst _ _ _ _ _ => some dst
  | .addRow dst _ _ _ _ => some dst
  | .scaleRow a _ _ _ => some a
  | .zeroRow a _ _ => some a
  | .gemm _ _ c _ _ _ => some c
  | .crUnpack _ a _ _ => some a
  | .fmul _ _ | .omLdb _ _ | .omGet _ _ _ | .crResize _ _ | .crCopy _ _ | .crDestroy _ | .crFind _ _ _ _
  | .crScan _ _ _ _ | .crGetnz _ | .crGetcap _ | .crGetidx _ _ | .crGetval _ _ | .crPack _ _ _ _ | .crAdd _ _ _
  | .crSadd _ _ _ _ | .crSwapcol _ _ _ | .cmResize _ _ | .cmDestroy => none

/-- The sparse slot a command other than CM_RESIZE and CM_DESTROY can write: the "State written" of each rule. -/
def sparseTarget : Instr → Option Index
  | .crResize r _ => some r
  | .crCopy sd _ => some sd
  | .crDestroy r => some r
  | .crPack r _ _ _ => some r
  | .crAdd sa _ _ => some sa
  | .crSadd sa _ _ _ => some sa
  | .crSwapcol r _ _ => some r
  | .fmul _ _ | .omResize _ _ _ | .omCopy _ _ | .omDestroy _ | .omLdb _ _ | .omStb _ _ _ | .omGet _ _ _
  | .omPut _ _ _ _ | .copyRow _ _ _ _ _ | .swapRow _ _ _ _ | .swapCol _ _ _ _ _ | .axpy _ _ _ _ _ _
  | .addRow _ _ _ _ _ | .scaleRow _ _ _ _ | .zeroRow _ _ _ | .gemm _ _ _ _ _ _ | .crFind _ _ _ _ | .crScan _ _ _ _
  | .crGetnz _ | .crGetcap _ | .crGetidx _ _ | .crGetval _ _ | .crUnpack _ _ _ _ | .cmResize _ _ | .cmDestroy => none

/-- The commands of the sparse matrix aggregate: R32. -/
def isAggregate : Instr → Bool
  | .cmResize _ _ | .cmDestroy => true
  | .fmul _ _ | .omResize _ _ _ | .omCopy _ _ | .omDestroy _ | .omLdb _ _ | .omStb _ _ _ | .omGet _ _ _
  | .omPut _ _ _ _ | .copyRow _ _ _ _ _ | .swapRow _ _ _ _ | .swapCol _ _ _ _ _ | .axpy _ _ _ _ _ _
  | .addRow _ _ _ _ _ | .scaleRow _ _ _ _ | .zeroRow _ _ _ | .gemm _ _ _ _ _ _ | .crResize _ _
  | .crCopy _ _ | .crDestroy _ | .crFind _ _ _ _ | .crScan _ _ _ _ | .crGetnz _ | .crGetcap _
  | .crGetidx _ _ | .crGetval _ _ | .crUnpack _ _ _ _ | .crPack _ _ _ _ | .crAdd _ _ _ | .crSadd _ _ _ _
  | .crSwapcol _ _ _ => false

/-- The result-producing commands: R41. -/
def producesResult : Instr → Bool
  | .fmul _ _ | .omLdb _ _ | .omGet _ _ _ | .crFind _ _ _ _ | .crScan _ _ _ _ | .crGetnz _ | .crGetcap _
  | .crGetidx _ _ | .crGetval _ _ => true
  | .omResize _ _ _ | .omCopy _ _ | .omDestroy _ | .omStb _ _ _ | .omPut _ _ _ _ | .copyRow _ _ _ _ _
  | .swapRow _ _ _ _ | .swapCol _ _ _ _ _ | .axpy _ _ _ _ _ _ | .addRow _ _ _ _ _ | .scaleRow _ _ _ _
  | .zeroRow _ _ _ | .gemm _ _ _ _ _ _ | .crResize _ _ | .crCopy _ _ | .crDestroy _ | .crUnpack _ _ _ _
  | .crPack _ _ _ _ | .crAdd _ _ _ | .crSadd _ _ _ _ | .crSwapcol _ _ _ | .cmResize _ _ | .cmDestroy => false

/-! ### Sparse rows as vectors -/

/-- The octet of the dense view at column `c`: the value of the last stored entry with that index, or 0 (R31). -/
def SparseRow.denseAt (r : SparseRow) (c : Nat) : Octet :=
  match (List.range r.nz.toNat).reverse.find? fun p => (r.idxAt p).toNat == c with
  | some p => r.valAt p
  | none => 0

/-- The XOR of `f v` over the stored entries (c, v) of column `c`: what CR_ADD and CR_SADD add there (R174, R175). -/
def SparseRow.xorAt (r : SparseRow) (f : Octet → Octet) (c : Nat) : Octet :=
  (List.range r.nz.toNat).foldl (fun acc p => if (r.idxAt p).toNat = c then acc ^^^ f (r.valAt p) else acc) 0

/-- The indices of positions `lo .. hi-1` are strictly ascending: R29 (a). -/
def SparseRow.Ascending (r : SparseRow) (lo hi : Nat) : Prop :=
  ∀ p q, lo ≤ p → p < q → q < hi → r.idxAt p < r.idxAt q

/-- Every stored value below `.nz` is nonzero: R29 (b). -/
def SparseRow.NoStoredZero (r : SparseRow) : Prop := ∀ p, p < r.nz.toNat → r.valAt p ≠ 0

/-- `row_resize(s, n)` does not raise ALLOC: R150. -/
abbrev SparseRow.CanHold (p : Params) (r : SparseRow) (n : Nat) : Prop :=
  p.stride n ≤ r.cap.toNat ∨ p.stride n ≤ p.crCap

/-- What resizing `r` to `n` entries makes of the counts (R150): `.nz = n`, and the capacity never shrinks. -/
def SparseRow.GrownTo (p : Params) (r t : SparseRow) (n : Nat) : Prop :=
  t.nz.toNat = n ∧ t.cap.toNat = max r.cap.toNat (p.stride n)

/-- From position `n` up `t` holds what `r` holds below the capacity of `r`, and zero entries above it: R30, R150. -/
def SparseRow.KeepsFrom (r t : SparseRow) (n : Nat) : Prop :=
  ∀ q, n ≤ q → (q < r.cap.toNat → t.idxAt q = r.idxAt q ∧ t.valAt q = r.valAt q) ∧
    (r.cap.toNat ≤ q → q < t.cap.toNat → t.idxAt q = 0 ∧ t.valAt q = 0)

/-- `t` is what `row_pack` makes of `r` from the dense sequence `d` of width `w` (R171): the nonzero columns of `d`
and no others, in ascending order, each with its octet. -/
def SparseRow.PackOf (p : Params) (r t : SparseRow) (d : Nat → Octet) (w : Nat) : Prop :=
  r.GrownTo p t ((List.range w).filter fun c => d c != 0).length ∧
  t.Ascending 0 t.nz.toNat ∧ t.NoStoredZero ∧
  (∀ q, q < t.nz.toNat → (t.idxAt q).toNat < w ∧ t.valAt q = d (t.idxAt q).toNat) ∧
  (∀ c, c < w → d c ≠ 0 → ∃ q, q < t.nz.toNat ∧ (t.idxAt q).toNat = c) ∧
  r.KeepsFrom t t.nz.toNat

/-- The row a command sums into and re-packs, column by column, and when it halts instead: R174, R175.
`f` is what each value of `b` is scaled by. -/
def SumsThroughScratch (i : Instr) (f : Octet → Octet) (sa sb w : Index) (s : State) : Prop :=
  let d := fun c => (s.row sa).denseAt c ^^^ (s.row sb).xorAt f c
  let cnt := ((List.range w.toNat).filter fun c => d c != 0).length
  (¬ ((s.row sa).IndicesBelow w.toNat ∧ (s.row sb).IndicesBelow w.toNat) → HaltsWith i s .bounds) ∧
  ((s.row sa).IndicesBelow w.toNat → (s.row sb).IndicesBelow w.toNat → s.params.scrCap < w.toNat →
    HaltsWith i s .alloc) ∧
  ((s.row sa).IndicesBelow w.toNat → (s.row sb).IndicesBelow w.toNat → w.toNat ≤ s.params.scrCap →
    ¬ (s.row sa).CanHold s.params cnt → ∃ scr, exec i s = .next ({ s with scr := scr }.takeHalt .alloc (encode i))) ∧
  ((s.row sa).IndicesBelow w.toNat → (s.row sb).IndicesBelow w.toNat → w.toNat ≤ s.params.scrCap →
    (s.row sa).CanHold s.params cnt →
    ∃ t, exec i s = .next t ∧ OnlyRow sa { s with scr := t.scr } t ∧
      (s.row sa).PackOf s.params (t.row sa) d w.toNat)

/-! ### The tables -/

/-- A multiplication that makes the 256 octets a field, with XOR as the addition and 1 as the unity: R102. -/
structure FieldMul (mul : Octet → Octet → Octet) : Prop where
  assoc : ∀ x y z, mul (mul x y) z = mul x (mul y z)
  comm : ∀ x y, mul x y = mul y x
  distrib : ∀ x y z, mul x (y ^^^ z) = mul x y ^^^ mul x z
  one : ∀ x, mul 1 x = x
  inverse : ∀ x, x ≠ 0 → ∃ y, mul x y = 1

/-- TBL-FIELD: the tables hold the products of a field (R102). -/
def TblField (t : Tables) (mul : Octet → Octet → Octet) : Prop :=
  FieldMul mul ∧ (∀ u (n : Nibble), t.hiAt u n = mul u (n ++ 0#4)) ∧ ∀ u (n : Nibble), t.loAt u n = mul u (n.setWidth 8)

/-- One term of an output element of GEMM: an element 0 contributes nothing and an element 1 the octet unscaled
(R142, R143). -/
def gemmProduct (t : Tables) (x y : Octet) : Octet := if x = 0 then 0 else if x = 1 then y else t.tmul x y

end Sys2Proof.Machine
end

