-- ==== Sys2Proof/Certificates/Slice0/Obligations.lean ====
section
/-! DEFINITION. The statements about the block. Each docstring names the rules it rests on.
In the statements about one command, `s` is the state before it and `t` the state after it. A command whose slots
do not exist is the subject of `Obligations.SlotNumbersAreChecked`, a word that is no command of
`Obligations.UndefinedOpcodesAreIllegal` and `Obligations.UnusedBitsAreIllegal`, and the HALT state of
`Obligations.HaltedBlockRefuses`. -/

section

open Sys2Proof Sys2Proof.Machine

/-! ### The command word -/

/-- Decoding the word of a command gives the command: 30_encoding.md R80 to R86. -/
def Obligations.DecodeOfEncode : Prop :=
  ∀ i : Instr, decode (encode i) = .instr i ∧ decodeTableWord 128 (encode i).toNat = some i

/-- A word that decodes to a command is the word of that command: no bit of a word is ignored (R81, R86). -/
def Obligations.EncodeOfDecode : Prop :=
  ∀ (w : Command) (i : Instr), decode w = .instr i → encode i = w

/-- A word is well formed for a row of the opcode table exactly when it decodes to a command of that row's mnemonic:
R84, R86. -/
def Obligations.DecoderAgreesWithOpcodeTable : Prop :=
  ∀ row ∈ opcodeTable, ∀ w : Command,
    row.admits w = true ↔ ∃ i, decode w = .instr i ∧ mnemonicOf i = row.mnemonic

/-- The opcodes that R85 lists, and no others, are undefined, and a word with one raises ILLEGAL. -/
def Obligations.UndefinedOpcodesAreIllegal : Prop :=
  ∀ w : Command, let op := (Fields.ofWord w).op.toNat
    (decode w = .illegal .undefinedOpcode ↔
      op = 0x00 ∨ (0x02 ≤ op ∧ op ≤ 0x0F) ∨ (0x13 ≤ op ∧ op ≤ 0x17) ∨ (0x1C ≤ op ∧ op ≤ 0x1F) ∨
      (0x28 ≤ op ∧ op ≤ 0x2F) ∨ (0x35 ≤ op ∧ op ≤ 0x37) ∨ (0x3C ≤ op ∧ op ≤ 0x3F) ∨
      (0x45 ≤ op ∧ op ≤ 0x4F) ∨ (0x52 ≤ op ∧ op ≤ 0xFF)) ∧
    (decode w = .illegal .undefinedOpcode → ∀ s : State, s.halted = false →
      issue w s = .next { s with
        status := s.status ||| 1, cause := 3, fcmd := w.extractLsb' 0 32, reply := .halt 3 })

/-- A word with a defined opcode and a 1 in an unused bit raises ILLEGAL: R86, with the unused bits as the masks of
the opcode table give them (R84). Every other word with a defined opcode is a command. -/
def Obligations.UnusedBitsAreIllegal : Prop :=
  ∀ row ∈ opcodeTable, ∀ w : Command, w.extractLsb' 0 8 = row.pattern.extractLsb' 0 8 →
    (w &&& row.mask ≠ row.pattern → decode w = .illegal .unusedBits ∧
      ∀ s : State, s.halted = false → issue w s = .next { s with
        status := s.status ||| 1, cause := 3, fcmd := w.extractLsb' 0 32, reply := .halt 3 }) ∧
    (w &&& row.mask = row.pattern → ∃ i, decode w = .instr i)

/-- The worked encodings of R94, both ways. -/
def Obligations.WorkedEncodings : Prop :=
  encode (.axpy 0 0 2 1 4 0x1D) = 0x00000004000100020000000000001D23#128 ∧
  decode 0x00000004000100020000000000001D23#128 = .instr (.axpy 0 0 2 1 4 0x1D) ∧
  Command.toOctets 0x00000004000100020000000000001D23#128 =
    [0x23, 0x1D, 0x00, 0x00, 0x00, 0x00, 0x00, 0x00, 0x02, 0x00, 0x01, 0x00, 0x04, 0x00, 0x00, 0x00] ∧
  encode (.gemm 0 1 2 2 2 2) = 0x00000002000200020000000201000027#128 ∧
  decode 0x00000002000200020000000201000027#128 = .instr (.gemm 0 1 2 2 2 2) ∧
  encode (.zeroRow 3 0 0x00012000) = 0x00012000000000000000000000030026#128 ∧
  decode 0x00012000000000000000000000030026#128 = .instr (.zeroRow 3 0 73728)

/-- The little-endian carriage of a command word as 16 octets, and its inverse: R89. -/
def Obligations.OctetSerialisation : Prop :=
  (∀ w : Command, let bs := Command.toOctets w; let f := Fields.ofWord w
    bs.length = 16 ∧ Command.ofOctets bs = w ∧
    (∀ n, n < 16 → bs[n]? = some (w.extractLsb' (8 * n) 8)) ∧
    bs[0]? = some f.op ∧ bs[1]? = some f.u ∧ bs[2]? = some f.ra ∧ bs[3]? = some f.rb ∧ bs[4]? = some f.rc ∧
    bs[8]? = some (f.a0.extractLsb' 0 8) ∧ bs[9]? = some (f.a0.extractLsb' 8 8) ∧
    bs[10]? = some (f.a1.extractLsb' 0 8) ∧ bs[11]? = some (f.a1.extractLsb' 8 8) ∧
    bs[12]? = some (f.a2.extractLsb' 0 8) ∧ bs[13]? = some (f.a2.extractLsb' 8 8) ∧
    bs[14]? = some (f.a3.extractLsb' 0 8) ∧ bs[15]? = some (f.a3.extractLsb' 8 8)) ∧
  (∀ i : Instr, (Command.toOctets (encode i))[5]? = some 0 ∧ (Command.toOctets (encode i))[6]? = some 0 ∧
    (Command.toOctets (encode i))[7]? = some 0) ∧
  ∀ bs : List Octet, bs.length = 16 → Command.toOctets (Command.ofOctets bs) = bs

/-! ### The ports -/

/-- A step whose next host event is the word of a command runs that command, when the block is not in HALT; the answer
is `ok`, or `halt` with the cause (R13, R72, R88). The second half is the same of `withFetchWord`. -/
def Obligations.StepRunsDecodedCommand : Prop :=
  (∀ (s : State) (w : Command) (i : Instr) (rest : List HostEvent),
    s.pending = .command w :: rest → s.halted = false → decode w = .instr i →
    ∃ t, exec i { s with pending := rest } = .next t ∧
      step s = .next { t with reply := if t.halted then .halt t.cause else .ok }) ∧
  ∀ (s : State) (nbits w : Nat) (i : Instr), s.halted = false → decodeTableWord nbits w = some i →
    ∃ t, exec i s = .next t ∧
      step (s.withFetchWord nbits w) = .next { t with reply := if t.halted then .halt t.cause else .ok }

/-- In HALT a command is refused, whatever its word, and changes nothing; register reads keep working; a run with a
refused or halted command is marked as gone wrong: R205. -/
def Obligations.HaltedBlockRefuses : Prop :=
  (∀ (s : State) (w : Command) (rest : List HostEvent), s.halted = true → s.pending = .command w :: rest →
    step s = .next { s with pending := rest, reply := .refused }) ∧
  (∀ (s : State) (addr : Nat) (rest : List HostEvent), s.halted = true → s.pending = .regRead addr :: rest →
    step s = .next { s with pending := rest, reply := .data (s.readRegister addr) }) ∧
  (∀ s : State, s.halted = true → s.goneWrong = true) ∧
  (∀ s : State, s.reply = .refused → s.goneWrong = true) ∧
  ∀ s : State, s.halted = false → s.reply = .ok → s.goneWrong = false

/-- The register read port: a read answers the 32 bits at its address and changes no state of the block, in HALT or
not; the map of the addresses; every other address reads 0 (R44). -/
def Obligations.RegisterReadPort : Prop :=
  (∀ (s : State) (addr : Nat) (rest : List HostEvent), s.pending = .regRead addr :: rest →
    step s = .next { s with pending := rest, reply := .data (s.readRegister addr) }) ∧
  ∀ s : State,
    s.readRegister 0x000 = s.status ∧ s.readRegister 0x004 = s.cause ∧
    s.readRegister 0x008 = s.fcmd ∧ s.readRegister 0x00C = s.result ∧
    s.readRegister 0x010 = s.cmRows.setWidth 32 ∧ s.readRegister 0x014 = s.cmCols.setWidth 32 ∧
    s.readRegister 0x020 = BitVec.ofNat 32 s.params.align ∧ s.readRegister 0x024 = BitVec.ofNat 32 s.params.nmat ∧
    s.readRegister 0x028 = BitVec.ofNat 32 s.params.dmCap ∧ s.readRegister 0x02C = BitVec.ofNat 32 s.params.nsrow ∧
    s.readRegister 0x030 = BitVec.ofNat 32 s.params.crCap ∧ s.readRegister 0x034 = BitVec.ofNat 32 s.params.scrCap ∧
    s.readRegister 0x038 = (if s.params.swapcolMode = .ordered then 0 else 1) ∧
    (∀ a : Octet, s.HasSlot a →
      s.readRegister (0x100 + 0x10 * a.toNat) = (if (s.slot a).valid then 1 else 0) ∧
      s.readRegister (0x104 + 0x10 * a.toNat) = (s.slot a).rows.setWidth 32 ∧
      s.readRegister (0x108 + 0x10 * a.toNat) = (s.slot a).cols.setWidth 32 ∧
      s.readRegister (0x10C + 0x10 * a.toNat) = (s.slot a).stride.setWidth 32) ∧
    ∀ addr : Nat,
      addr ∉ [0x000, 0x004, 0x008, 0x00C, 0x010, 0x014, 0x020, 0x024, 0x028, 0x02C, 0x030, 0x034, 0x038] →
      (∀ a, a < s.params.nmat → ∀ f ∈ [0x0, 0x4, 0x8, 0xC], addr ≠ 0x100 + 0x10 * a + f) →
      s.readRegister addr = 0

/-- Every step has a next state; it takes the next host event, or none when there is none (R222), and keeps the
parameters (R8). -/
def Obligations.StepAlwaysAnswers : Prop :=
  ∀ s : State, ∃ t, step s = .next t ∧ t.params = s.params ∧ t.pending = s.pending.tail ∧
    (s.pending = [] → t = s)

/-! ### Reset and HALT -/

/-- What reset leaves: R48, and what it does not change: R231. The content of SCR is left open (log entry 1).
`State.reset` is that state of the block with the default parameters, whose values are those of the table of
00_scope.md R7; that the parameters are carried in the state, and that `State.reset` takes the defaults, is the
model's choice (log entry 3, DESIGN CHOICE). -/
def Obligations.ResetLeavesTheBlockEmpty : Prop :=
  (∀ (s : State) (rest : List HostEvent), s.pending = .reset :: rest → ∃ t, step s = .next t ∧
    t.dense = List.replicate s.params.nmat { valid := false, rows := 0, cols := 0, stride := 0, buf := [] } ∧
    t.sparse = List.replicate s.params.nsrow { nz := 0, cap := 0, idx := [], val := [] } ∧
    t.cmRows = 0 ∧ t.cmCols = 0 ∧ t.status = 0 ∧ t.cause = 0 ∧ t.fcmd = 0 ∧ t.result = 0 ∧
    t.params = s.params ∧ (∀ addr, 0x20 ≤ addr → addr < 0x100 → t.readRegister addr = s.readRegister addr)) ∧
  State.reset.params =
    { align := 16, nmat := 4, dmCap := 1048576, nsrow := 256, crCap := 65536, scrCap := 65535
      tables := tables11D, swapcolMode := .ordered } ∧
  State.reset.dense = List.replicate 4 { valid := false, rows := 0, cols := 0, stride := 0, buf := [] } ∧
  State.reset.sparse = List.replicate 256 { nz := 0, cap := 0, idx := [], val := [] } ∧
  State.reset.cmRows = 0 ∧ State.reset.cmCols = 0 ∧ State.reset.status = 0 ∧ State.reset.cause = 0 ∧
  State.reset.fcmd = 0 ∧ State.reset.result = 0

/-- The invariant of the block (R7, R22, R28, R32, R34, R35, R36) holds right after reset, for the default parameters
and for every legal choice of them. -/
def Obligations.ResetStateIsWellFormed : Prop :=
  State.reset.Wf ∧ ∀ p : Params, p.Legal → (State.resetWith p).Wf

/-- Every step keeps the invariant of the block: "true after reset and after every command" (R22, R28). -/
def Obligations.StepKeepsWellFormed : Prop :=
  ∀ s t : State, s.Wf → step s = .next t → t.Wf

/-- From HALT a step leads to HALT with everything the block holds unchanged, or it is a reset, which discards all
content: R206. -/
def Obligations.HaltEndsOnlyWithReset : Prop :=
  ∀ s t : State, s.halted = true → step s = .next t →
    (t.halted = true ∧ t = { s with pending := t.pending, reply := t.reply }) ∨
    (s.pending.head? = some .reset ∧ t.halted = false ∧ t.cause = 0 ∧ t.fcmd = 0 ∧
      t.dense = List.replicate s.params.nmat emptyDense ∧ t.sparse = List.replicate s.params.nsrow emptyRow)

/-- A word issued outside HALT either completes, with STATUS, CAUSE and FCMD as they were, or halts: then STATUS.HALT,
CAUSE and FCMD (bits 31:0 of the word) are written and nothing else (R203), but that CR_ADD and CR_SADD may have
written SCR (R204). -/
def Obligations.FaultsArePrecise : Prop :=
  ∀ (w : Command) (s : State), s.halted = false → ∃ t, issue w s = .next t ∧
    ((t.reply = .ok ∧ t.status = s.status ∧ t.cause = s.cause ∧ t.fcmd = s.fcmd) ∨
     ∃ (c : Cause) (scr : Memory 8),
      t = { s with scr := scr, status := s.status ||| 1, cause := Cause.code c, fcmd := w.extractLsb' 0 32,
                   reply := .halt (Cause.code c) } ∧
      (scr = s.scr ∨ (Fields.ofWord w).op = 0x42 ∨ (Fields.ofWord w).op = 0x43))

/-- A command that names a slot the block does not have halts with SLOT, before any test of its own: R87. -/
def Obligations.SlotNumbersAreChecked : Prop :=
  ∀ (i : Instr) (s : State), ¬ i.WellFormed s.params → HaltsWith i s .slot

/-- RESULT changes only under a result-producing command that completes: R41. -/
def Obligations.ResultWrittenOnlyByReaders : Prop :=
  ∀ (i : Instr) (s t : State), s.halted = false → exec i s = .next t → t.result ≠ s.result →
    producesResult i = true ∧ t.halted = false

/-! ### What a command leaves unchanged -/

/-- A command changes no dense slot but the one R26 lists it as writing (R25), and only OM_RESIZE, OM_COPY and
OM_DESTROY change a descriptor (R42). -/
def Obligations.DenseWritesStayInNamedSlot : Prop :=
  ∀ (i : Instr) (s t : State), exec i s = .next t →
    t.dense.length = s.dense.length ∧
    (∀ a : Octet, denseTarget i ≠ some a → t.slot a = s.slot a) ∧
    ((∀ a rows cols, i ≠ .omResize a rows cols) → (∀ a b, i ≠ .omCopy a b) → (∀ a, i ≠ .omDestroy a) →
      ∀ a : Octet, (t.slot a).valid = (s.slot a).valid ∧ (t.slot a).rows = (s.slot a).rows ∧
        (t.slot a).cols = (s.slot a).cols ∧ (t.slot a).stride = (s.slot a).stride)

/-- A command other than CM_RESIZE and CM_DESTROY changes no sparse row but its own destination, and neither CM_ROWS
nor CM_COLS (R32, R192). -/
def Obligations.SparseWritesStayInNamedRow : Prop :=
  ∀ (i : Instr) (s t : State), exec i s = .next t → isAggregate i = false →
    t.sparse.length = s.sparse.length ∧ t.cmRows = s.cmRows ∧ t.cmCols = s.cmCols ∧
    ∀ r : Index, sparseTarget i ≠ some r → t.row r = s.row r

/-- The capacity of a sparse row never decreases, but under CR_DESTROY of it, CM_RESIZE and CM_DESTROY: R150, R162. -/
def Obligations.SparseCapacityNeverDecreases : Prop :=
  ∀ (i : Instr) (s t : State) (r : Index), s.Wf → s.HasRow r → exec i s = .next t →
    i ≠ .crDestroy r → isAggregate i = false → (s.row r).cap.toNat ≤ (t.row r).cap.toNat

/-! ### The stride and the field multiply -/

/-- `S(k)` is the least multiple of ALIGN that is not below `k`: R11. -/
def Obligations.StrideIsLeastMultiple : Prop :=
  (∀ p : Params, p.Legal → p.stride 0 = 0 ∧ ∀ k : Nat,
    p.stride k % p.align = 0 ∧ k ≤ p.stride k ∧ ∀ m, m % p.align = 0 → k ≤ m → p.stride k ≤ m) ∧
  ∀ p : Params, p.align = 16 → p.stride 1 = 16 ∧ p.stride 16 = 16 ∧ p.stride 17 = 32 ∧ p.stride 4096 = 4096 ∧
    p.stride 65535 = 65536

/-- FMUL returns the table product, for every pair of tables and with no fast path; it reads the tables entry by
entry; a word with a bit of `a0[15:8]` set is illegal: R106 with R101. -/
def Obligations.FmulReturnsTableProduct : Prop :=
  (∀ (s : State) (u x : Octet),
    EncodedAs (.fmul u x) { Fields.ofOp 0x01 with u := u, a0 := x.setWidth 16 } ∧
    exec (.fmul u x) s = .next { s with result :=
      (s.params.tables.hiAt u (x.extractLsb' 4 4) ^^^ s.params.tables.loAt u (x.extractLsb' 0 4)).setWidth 32 }) ∧
  (∀ (s : State) (u : Octet) (n : Nibble), exec (.fmul u (n.setWidth 8)) s =
    .next { s with result := (s.params.tables.hiAt u 0 ^^^ s.params.tables.loAt u n).setWidth 32 }) ∧
  ∀ w : Command, (Fields.ofWord w).op = 0x01 → (Fields.ofWord w).a0.extractLsb' 8 8 ≠ 0 →
    decode w = .illegal .unusedBits

/-- T_11D is the table pair of R102 for a field (TBL-FIELD) whose multiplication is the algorithm of R104; its
entries, and the sample rows and products that R104 lists. -/
def Obligations.DefaultTablesMatchSamples : Prop :=
  TblField tables11D polyMul11D ∧
  (∀ (u : Octet) (n : Nibble), tables11D.hiAt u n = polyMul11D u (n ++ 0#4) ∧
    tables11D.loAt u n = polyMul11D u (n.setWidth 8)) ∧
  (tables11D.hi[0].toList = List.replicate 16 0 ∧ tables11D.lo[0].toList = List.replicate 16 0) ∧
  (tables11D.hi[1].toList =
      [0x00, 0x10, 0x20, 0x30, 0x40, 0x50, 0x60, 0x70, 0x80, 0x90, 0xA0, 0xB0, 0xC0, 0xD0, 0xE0, 0xF0] ∧
    tables11D.lo[1].toList =
      [0x00, 0x01, 0x02, 0x03, 0x04, 0x05, 0x06, 0x07, 0x08, 0x09, 0x0A, 0x0B, 0x0C, 0x0D, 0x0E, 0x0F]) ∧
  (tables11D.hi[2].toList =
      [0x00, 0x20, 0x40, 0x60, 0x80, 0xA0, 0xC0, 0xE0, 0x1D, 0x3D, 0x5D, 0x7D, 0x9D, 0xBD, 0xDD, 0xFD] ∧
    tables11D.lo[2].toList =
      [0x00, 0x02, 0x04, 0x06, 0x08, 0x0A, 0x0C, 0x0E, 0x10, 0x12, 0x14, 0x16, 0x18, 0x1A, 0x1C, 0x1E]) ∧
  (tables11D.hi[3].toList =
      [0x00, 0x30, 0x60, 0x50, 0xC0, 0xF0, 0xA0, 0x90, 0x9D, 0xAD, 0xFD, 0xCD, 0x5D, 0x6D, 0x3D, 0x0D] ∧
    tables11D.lo[3].toList =
      [0x00, 0x03, 0x06, 0x05, 0x0C, 0x0F, 0x0A, 0x09, 0x18, 0x1B, 0x1E, 0x1D, 0x14, 0x17, 0x12, 0x11]) ∧
  (tables11D.hi[0x1D].toList =
      [0x00, 0xCD, 0x87, 0x4A, 0x13, 0xDE, 0x94, 0x59, 0x26, 0xEB, 0xA1, 0x6C, 0x35, 0xF8, 0xB2, 0x7F] ∧
    tables11D.lo[0x1D].toList =
      [0x00, 0x1D, 0x3A, 0x27, 0x74, 0x69, 0x4E, 0x53, 0xE8, 0xF5, 0xD2, 0xCF, 0x9C, 0x81, 0xA6, 0xBB]) ∧
  (tables11D.hi[0x8E].toList =
      [0x00, 0x08, 0x10, 0x18, 0x20, 0x28, 0x30, 0x38, 0x40, 0x48, 0x50, 0x58, 0x60, 0x68, 0x70, 0x78] ∧
    tables11D.lo[0x8E].toList =
      [0x00, 0x8E, 0x01, 0x8F, 0x02, 0x8C, 0x03, 0x8D, 0x04, 0x8A, 0x05, 0x8B, 0x06, 0x88, 0x07, 0x89]) ∧
  (tables11D.hi[0xFF].toList =
      [0x00, 0x4B, 0x96, 0xDD, 0x31, 0x7A, 0xA7, 0xEC, 0x62, 0x29, 0xF4, 0xBF, 0x53, 0x18, 0xC5, 0x8E] ∧
    tables11D.lo[0xFF].toList =
      [0x00, 0xFF, 0xE3, 0x1C, 0xDB, 0x24, 0x38, 0xC7, 0xAB, 0x54, 0x48, 0xB7, 0x70, 0x8F, 0x93, 0x6C]) ∧
  tables11D.tmul 2 0x80 = 0x1D ∧ tables11D.tmul 3 7 = 0x09 ∧ tables11D.tmul 0x53 0xCA = 0x8F ∧
  tables11D.tmul 0xFF 0xFF = 0xE2 ∧ tables11D.tmul 2 0x8E = 0x01 ∧ tables11D.tmul 0x1D 0x83 = 0x01 ∧
  tables11D.tmul 0x1D 0x07 = 0x53 ∧ tables11D.tmul 2 0xFF = 0xE3

/-- Under TBL-FIELD the table product is the product of the field and obeys the laws (a) to (g) of R102. -/
def Obligations.FieldTablesGiveFieldLaws : Prop :=
  ∀ (tb : Tables) (mul : Octet → Octet → Octet), TblField tb mul →
    (∀ u x, tb.tmul u x = mul u x) ∧
    (∀ x, tb.tmul 0 x = 0) ∧ (∀ u, tb.tmul u 0 = 0) ∧
    (∀ x, tb.tmul 1 x = x) ∧
    (∀ u x y, tb.tmul u (x ^^^ y) = tb.tmul u x ^^^ tb.tmul u y) ∧
    (∀ u x, tb.tmul u x = tb.tmul x u) ∧ (∀ u v x, tb.tmul u (tb.tmul v x) = tb.tmul (tb.tmul u v) x) ∧
    (∀ u, u ≠ 0 → Function.Bijective (tb.tmul u)) ∧
    (∀ u, tb.hiAt u 0 = 0 ∧ tb.loAt u 0 = 0) ∧
    ∀ n : Nibble, tb.loAt 1 n = n.setWidth 8 ∧ tb.hiAt 1 n = n ++ 0#4

/-! ### The dense matrix store -/

/-- OM_RESIZE: R111. -/
def Obligations.OmResizeMakesZeroMatrix : Prop :=
  ∀ (s : State) (a : Octet) (rows cols : Index), s.Wf → s.HasSlot a →
    let i := Instr.omResize a rows cols
    let n := rows.toNat * s.params.stride cols.toNat
    EncodedAs i { Fields.ofOp 0x10 with ra := a, a0 := rows, a1 := cols } ∧
    (s.params.dmCap < n → HaltsWith i s .alloc) ∧
    (n ≤ s.params.dmCap → ∃ t, exec i s = .next t ∧ OnlySlot a s t ∧
      (t.slot a).valid = true ∧ (t.slot a).rows = rows ∧ (t.slot a).cols = cols ∧
      (t.slot a).stride.toNat = s.params.stride cols.toNat ∧
      t.len a = n ∧ (∀ o, t.dRead a o = 0) ∧
      cols.toNat ≤ (t.slot a).stride.toNat ∧ (t.slot a).stride.toNat % s.params.align = 0)

/-- OM_COPY: R112. The destination becomes the source with its valid bit set; copying an allocated slot to itself
changes nothing. -/
def Obligations.OmCopyIsDeepCopy : Prop :=
  ∀ (s : State) (dst src : Octet), s.Wf → s.HasSlot dst → s.HasSlot src →
    let i := Instr.omCopy dst src
    EncodedAs i { Fields.ofOp 0x11 with ra := dst, rb := src } ∧
    ((s.slot dst).valid = true → s.len dst < s.len src → HaltsWith i s .bounds) ∧
    ((s.slot dst).valid = false ∨ s.len src ≤ s.len dst →
      ∃ t, exec i s = .next t ∧ OnlySlot dst s t ∧ t.slot dst = { s.slot src with valid := true }) ∧
    (dst = src → (s.slot src).valid = true → exec i s = .next s)

/-- OM_DESTROY, which is idempotent: R113. -/
def Obligations.OmDestroyEmptiesTheSlot : Prop :=
  ∀ (s : State) (a : Octet), s.Wf → s.HasSlot a →
    let i := Instr.omDestroy a
    EncodedAs i { Fields.ofOp 0x12 with ra := a } ∧
    (∃ t, exec i s = .next t ∧ OnlySlot a s t ∧
      t.slot a = { valid := false, rows := 0, cols := 0, stride := 0, buf := [] } ∧ exec i t = .next t) ∧
    ((s.slot a).valid = false → exec i s = .next s)

/-- OM_LDB: R115. -/
def Obligations.OmLdbReadsOneOctet : Prop :=
  ∀ (s : State) (a : Octet) (off : Word), s.HasSlot a →
    let i := Instr.omLdb a off
    EncodedAs i
      { Fields.ofOp 0x18 with ra := a, a0 := off.extractLsb' 0 16, a1 := off.extractLsb' 16 16 } ∧
    (s.len a ≤ off.toNat → HaltsWith i s .bounds) ∧
    (off.toNat < s.len a → exec i s = .next { s with result := (s.dRead a off.toNat).setWidth 32 })

/-- OM_STB: R116. -/
def Obligations.OmStbWritesOneOctet : Prop :=
  ∀ (s : State) (a : Octet) (off : Word) (value : Octet), s.Wf → s.HasSlot a →
    let i := Instr.omStb a off value
    EncodedAs i
      { Fields.ofOp 0x19 with ra := a, a0 := off.extractLsb' 0 16, a1 := off.extractLsb' 16 16, u := value } ∧
    (s.len a ≤ off.toNat → HaltsWith i s .bounds) ∧
    (off.toNat < s.len a → ∃ t, exec i s = .next t ∧ OnlyBufferOf a s t ∧ t.dRead a off.toNat = value ∧
      ∀ o, o ≠ off.toNat → t.dRead a o = s.dRead a o)

/-- OM_GET: R117, with the offset of R23. -/
def Obligations.OmGetReadsOneElement : Prop :=
  ∀ (s : State) (a : Octet) (r c : Index), s.HasSlot a →
    let i := Instr.omGet a r c
    EncodedAs i { Fields.ofOp 0x1A with ra := a, a0 := r, a1 := c } ∧
    (¬ (r < (s.slot a).rows ∧ c < (s.slot a).cols) → HaltsWith i s .bounds) ∧
    (r < (s.slot a).rows → c < (s.slot a).cols → exec i s = .next
      { s with result := (s.dRead a (r.toNat * (s.slot a).stride.toNat + c.toNat)).setWidth 32 })

/-- OM_PUT: R118, with the offset of R23, which lies in the buffer. -/
def Obligations.OmPutWritesOneElement : Prop :=
  ∀ (s : State) (a : Octet) (r c : Index) (value : Octet), s.Wf → s.HasSlot a →
    let i := Instr.omPut a r c value
    let off := r.toNat * (s.slot a).stride.toNat + c.toNat
    EncodedAs i { Fields.ofOp 0x1B with ra := a, a0 := r, a1 := c, u := value } ∧
    (¬ (r < (s.slot a).rows ∧ c < (s.slot a).cols) → HaltsWith i s .bounds) ∧
    (r < (s.slot a).rows → c < (s.slot a).cols → off < s.len a ∧
      ∃ t, exec i s = .next t ∧ OnlyBufferOf a s t ∧ t.dRead a off = value ∧
        ∀ o, o ≠ off → t.dRead a o = s.dRead a o)

/-! ### The dense elementary operations -/

/-- COPY_ROW: R133. -/
def Obligations.CopyRowCopiesOneRow : Prop :=
  ∀ (s : State) (dst src : Octet) (i j k : Index), s.Wf → s.HasSlot dst → s.HasSlot src →
    let ins := Instr.copyRow dst src i j k
    let bd := s.params.base i.toNat k.toNat
    let bs := s.params.base j.toNat k.toNat
    EncodedAs ins { Fields.ofOp 0x20 with ra := dst, rb := src, a0 := i, a1 := j, a2 := k } ∧
    (¬ (s.Fits dst bd k.toNat ∧ s.Fits src bs k.toNat) → HaltsWith ins s .bounds) ∧
    (s.Fits dst bd k.toNat → s.Fits src bs k.toNat → ∃ t, exec ins s = .next t ∧ OnlyBufferOf dst s t ∧
      (∀ c, c < k.toNat → t.dRead dst (bd + c) = s.dRead src (bs + c)) ∧
      (∀ o, ¬ (bd ≤ o ∧ o < bd + k.toNat) → t.dRead dst o = s.dRead dst o) ∧
      (k = 0 ∨ (dst = src ∧ i = j) → t = s))

/-- SWAP_ROW: R134; the case `i = j` makes no range check (R132). Two equal commands restore the state. -/
def Obligations.SwapRowExchangesRows : Prop :=
  ∀ (s : State) (a : Octet) (i j k : Index), s.Wf → s.HasSlot a →
    let ins := Instr.swapRow a i j k
    let bi := s.params.base i.toNat k.toNat
    let bj := s.params.base j.toNat k.toNat
    EncodedAs ins { Fields.ofOp 0x21 with ra := a, a0 := i, a1 := j, a2 := k } ∧
    (i = j → exec ins s = .next s) ∧
    (i ≠ j → ¬ (s.Fits a bi k.toNat ∧ s.Fits a bj k.toNat) → HaltsWith ins s .bounds) ∧
    (i ≠ j → s.Fits a bi k.toNat → s.Fits a bj k.toNat → ∃ t, exec ins s = .next t ∧ OnlyBufferOf a s t ∧
      (∀ c, c < k.toNat → t.dRead a (bi + c) = s.dRead a (bj + c) ∧ t.dRead a (bj + c) = s.dRead a (bi + c)) ∧
      (∀ o, ¬ (bi ≤ o ∧ o < bi + k.toNat) → ¬ (bj ≤ o ∧ o < bj + k.toNat) → t.dRead a o = s.dRead a o) ∧
      (k = 0 → t = s)) ∧
    (s.halted = false → ∀ t, exec ins s = .next t → t.halted = false → exec ins t = .next s)

/-- SWAP_COL: R135; the cases `i = j` and `k = 0` make no check (R132). Two equal commands restore the state. -/
def Obligations.SwapColExchangesColumns : Prop :=
  ∀ (s : State) (a : Octet) (i j k w : Index), s.Wf → s.HasSlot a →
    let ins := Instr.swapCol a i j k w
    let st := s.params.stride w.toNat
    EncodedAs ins { Fields.ofOp 0x22 with ra := a, a0 := i, a1 := j, a2 := k, a3 := w } ∧
    (i = j ∨ k = 0 → exec ins s = .next s) ∧
    (i ≠ j → k ≠ 0 → ¬ (i < w ∧ j < w ∧ s.Fits a ((k.toNat - 1) * st) (max i.toNat j.toNat + 1)) →
      HaltsWith ins s .bounds) ∧
    (i ≠ j → k ≠ 0 → i < w → j < w → s.Fits a ((k.toNat - 1) * st) (max i.toNat j.toNat + 1) →
      ∃ t, exec ins s = .next t ∧ OnlyBufferOf a s t ∧
      (∀ r, r < k.toNat → t.dRead a (r * st + i.toNat) = s.dRead a (r * st + j.toNat) ∧
        t.dRead a (r * st + j.toNat) = s.dRead a (r * st + i.toNat)) ∧
      (∀ o, (∀ r, r < k.toNat → o ≠ r * st + i.toNat ∧ o ≠ r * st + j.toNat) → t.dRead a o = s.dRead a o)) ∧
    (s.halted = false → ∀ t, exec ins s = .next t → t.halted = false → exec ins t = .next s)

/-- AXPY: R136, with the fast paths of R105; the case `u = 0` makes no range check (R132). -/
def Obligations.AxpyAccumulatesScaledRow : Prop :=
  ∀ (s : State) (dst src : Octet) (i j k : Index) (u : Octet), s.Wf → s.HasSlot dst → s.HasSlot src →
    let ins := Instr.axpy dst src i j k u
    let bd := s.params.base i.toNat k.toNat
    let bs := s.params.base j.toNat k.toNat
    EncodedAs ins { Fields.ofOp 0x23 with ra := dst, rb := src, a0 := i, a1 := j, a2 := k, u := u } ∧
    (u = 0 → exec ins s = .next s) ∧
    (u ≠ 0 → ¬ (s.Fits dst bd k.toNat ∧ s.Fits src bs k.toNat) → HaltsWith ins s .bounds) ∧
    (u ≠ 0 → s.Fits dst bd k.toNat → s.Fits src bs k.toNat → ∃ t, exec ins s = .next t ∧ OnlyBufferOf dst s t ∧
      (∀ c, c < k.toNat → t.dRead dst (bd + c) = s.dRead dst (bd + c) ^^^
        (if u = 1 then s.dRead src (bs + c) else s.params.tables.tmul u (s.dRead src (bs + c)))) ∧
      (∀ o, ¬ (bd ≤ o ∧ o < bd + k.toNat) → t.dRead dst o = s.dRead dst o) ∧
      (k = 0 → t = s))

/-- ADD_ROW, which reads no table: R137. -/
def Obligations.AddRowXorsRows : Prop :=
  ∀ (s : State) (dst src : Octet) (i j k : Index), s.Wf → s.HasSlot dst → s.HasSlot src →
    let ins := Instr.addRow dst src i j k
    let bd := s.params.base i.toNat k.toNat
    let bs := s.params.base j.toNat k.toNat
    EncodedAs ins { Fields.ofOp 0x24 with ra := dst, rb := src, a0 := i, a1 := j, a2 := k } ∧
    (¬ (s.Fits dst bd k.toNat ∧ s.Fits src bs k.toNat) → HaltsWith ins s .bounds) ∧
    (s.Fits dst bd k.toNat → s.Fits src bs k.toNat → ∃ t, exec ins s = .next t ∧ OnlyBufferOf dst s t ∧
      (∀ c, c < k.toNat → t.dRead dst (bd + c) = s.dRead dst (bd + c) ^^^ s.dRead src (bs + c)) ∧
      (∀ o, ¬ (bd ≤ o ∧ o < bd + k.toNat) → t.dRead dst o = s.dRead dst o) ∧
      (dst = src → i = j → ∀ c, c < k.toNat → t.dRead dst (bd + c) = 0) ∧
      (k = 0 → t = s))

/-- AXPY with the scalar 1 and ADD_ROW have the same outcome, for all states and operands and all tables, and leave the
same state (R138), except that a halt leaves bits 31 to 0 of each command's own word in FCMD (R37, R203). That R138's
"same final state" leaves out FCMD after a halt is the model's reading: log entry 11, DEDUCED. -/
def Obligations.AxpyByOneIsAddRow : Prop :=
  ∀ (s : State) (dst src : Octet) (i j k : Index), ∃ t t',
    exec (.axpy dst src i j k 1) s = .next t ∧ exec (.addRow dst src i j k) s = .next t' ∧
    t' = { t with fcmd := t'.fcmd } ∧ (s.halted = false → t.halted = false → t' = t) ∧
    (s.halted = false → t.halted = true →
      t.fcmd = (encode (.axpy dst src i j k 1)).extractLsb' 0 32 ∧
      t'.fcmd = (encode (.addRow dst src i j k)).extractLsb' 0 32)

/-- SCALE_ROW: R139. The scalar 0 leaves the row as it is and makes no range check; the scalar 1 reads the tables
(R105), which under TBL-FIELD leaves the row unchanged. -/
def Obligations.ScaleRowScalesInPlace : Prop :=
  ∀ (s : State) (a : Octet) (i k : Index) (u : Octet), s.Wf → s.HasSlot a →
    let ins := Instr.scaleRow a i k u
    let b := s.params.base i.toNat k.toNat
    EncodedAs ins { Fields.ofOp 0x25 with ra := a, a0 := i, a2 := k, u := u } ∧
    (u = 0 → exec ins s = .next s) ∧
    (u ≠ 0 → ¬ s.Fits a b k.toNat → HaltsWith ins s .bounds) ∧
    (u ≠ 0 → s.Fits a b k.toNat → ∃ t, exec ins s = .next t ∧ OnlyBufferOf a s t ∧
      (∀ c, c < k.toNat → t.dRead a (b + c) = s.params.tables.tmul u (s.dRead a (b + c))) ∧
      (∀ o, ¬ (b ≤ o ∧ o < b + k.toNat) → t.dRead a o = s.dRead a o) ∧
      (k = 0 → t = s) ∧
      (u = 1 → ∀ mul, TblField s.params.tables mul → t = s))

/-- ZERO_ROW, with the 32-bit length in the base too: R141. -/
def Obligations.ZeroRowClearsOctets : Prop :=
  ∀ (s : State) (a : Octet) (i : Index) (k : Word), s.Wf → s.HasSlot a →
    let ins := Instr.zeroRow a i k
    let b := i.toNat * s.params.stride k.toNat
    EncodedAs ins
      { Fields.ofOp 0x26 with ra := a, a0 := i, a2 := k.extractLsb' 0 16, a3 := k.extractLsb' 16 16 } ∧
    (¬ s.Fits a b k.toNat → HaltsWith ins s .bounds) ∧
    (s.Fits a b k.toNat → ∃ t, exec ins s = .next t ∧ OnlyBufferOf a s t ∧
      (∀ c, c < k.toNat → t.dRead a (b + c) = 0) ∧
      (∀ o, ¬ (b ≤ o ∧ o < b + k.toNat) → t.dRead a o = s.dRead a o) ∧
      (k = 0 → t = s) ∧
      (i = 0 → k.toNat = s.len a → ∀ o, t.dRead a o = 0))

/-- GEMM: R142, for all tables. An element 0 adds nothing and an element 1 adds its row unscaled. -/
def Obligations.GemmAccumulatesProducts : Prop :=
  ∀ (s : State) (a b c : Octet) (n k m : Index), s.Wf → s.HasSlot a → s.HasSlot b → s.HasSlot c →
    let ins := Instr.gemm a b c n k m
    let sk := s.params.stride k.toNat
    let sm := s.params.stride m.toNat
    let inRange := s.Fits c ((n.toNat - 1) * sm) m.toNat ∧
      (k ≠ 0 → s.Fits a ((n.toNat - 1) * sk) k.toNat ∧ s.Fits b ((k.toNat - 1) * sm) m.toNat)
    EncodedAs ins { Fields.ofOp 0x27 with ra := a, rb := b, rc := c, a0 := n, a1 := k, a2 := m } ∧
    (n = 0 → exec ins s = .next s) ∧
    (n ≠ 0 → c = a ∨ c = b → HaltsWith ins s .aliasing) ∧
    (n ≠ 0 → c ≠ a → c ≠ b → ¬ inRange → HaltsWith ins s .bounds) ∧
    (n ≠ 0 → c ≠ a → c ≠ b → inRange → ∃ t, exec ins s = .next t ∧ OnlyBufferOf c s t ∧
      (∀ r q, r < n.toNat → q < m.toNat → t.dRead c (r * sm + q) =
        (List.range k.toNat).foldl (fun acc x => acc ^^^
          gemmProduct s.params.tables (s.dRead a (r * sk + x)) (s.dRead b (x * sm + q))) 0) ∧
      (∀ o, (∀ r q, r < n.toNat → q < m.toNat → o ≠ r * sm + q) → t.dRead c o = s.dRead c o))

/-- Under TBL-FIELD, GEMM computes the matrix product (R143); multiplying by the identity matrix copies the rows, for
every pair of tables. -/
def Obligations.GemmIsMatrixProduct : Prop :=
  ∀ (s t : State) (a b c : Octet) (n k m : Index), s.Wf → s.halted = false →
    exec (.gemm a b c n k m) s = .next t → t.halted = false →
    let sk := s.params.stride k.toNat
    let sm := s.params.stride m.toNat
    (∀ mul, TblField s.params.tables mul → ∀ r q, r < n.toNat → q < m.toNat → t.dRead c (r * sm + q) =
      (List.range k.toNat).foldl
        (fun acc x => acc ^^^ mul (s.dRead a (r * sk + x)) (s.dRead b (x * sm + q))) 0) ∧
    (n = k → (∀ r x, r < n.toNat → x < k.toNat → s.dRead a (r * sk + x) = if r = x then 1 else 0) →
      ∀ r q, r < n.toNat → q < m.toNat → t.dRead c (r * sm + q) = s.dRead b (r * sm + q))

/-! ### The sparse row store -/

/-- CR_RESIZE: R150. Every entry below the old capacity keeps its value, added entries are zero. -/
def Obligations.CrResizeSetsTheCount : Prop :=
  ∀ (s : State) (r newNz : Index), s.Wf → s.HasRow r →
    let ins := Instr.crResize r newNz
    EncodedAs ins { Fields.ofOp 0x30 with a0 := r, a1 := newNz } ∧
    (¬ (s.row r).CanHold s.params newNz.toNat → HaltsWith ins s .alloc) ∧
    ((s.row r).CanHold s.params newNz.toNat → ∃ t, exec ins s = .next t ∧ OnlyRow r s t ∧
      (s.row r).GrownTo s.params (t.row r) newNz.toNat ∧ (s.row r).KeepsFrom (t.row r) 0)

/-- CR_COPY: R152. It cannot halt. -/
def Obligations.CrCopyCopiesEntries : Prop :=
  ∀ (s : State) (sd ss : Index), s.Wf → s.HasRow sd → s.HasRow ss →
    let ins := Instr.crCopy sd ss
    let n := (s.row ss).nz.toNat
    EncodedAs ins { Fields.ofOp 0x31 with a0 := sd, a1 := ss } ∧
    (∃ t, exec ins s = .next t ∧ OnlyRow sd s t ∧ (s.row sd).GrownTo s.params (t.row sd) n ∧
      (∀ p, p < n → (t.row sd).idxAt p = (s.row ss).idxAt p ∧ (t.row sd).valAt p = (s.row ss).valAt p) ∧
      (s.row sd).KeepsFrom (t.row sd) n) ∧
    (sd = ss → exec ins s = .next s)

/-- CR_DESTROY, which changes nothing on an empty row: R153. -/
def Obligations.CrDestroyEmptiesTheRow : Prop :=
  ∀ (s : State) (r : Index), s.Wf → s.HasRow r →
    let ins := Instr.crDestroy r
    EncodedAs ins { Fields.ofOp 0x32 with a0 := r } ∧
    (∃ t, exec ins s = .next t ∧ OnlyRow r s t ∧ t.row r = { nz := 0, cap := 0, idx := [], val := [] }) ∧
    ((s.row r).cap = 0 → exec ins s = .next s)

/-- CR_FIND: R154, with the loop of `bsearch` as its equation, over the integers; NOT_FOUND is 0xFFFFFFFF (R155). -/
def Obligations.CrFindRunsTheSearchLoop : Prop :=
  (∀ (s : State) (r lo hi x : Index), s.HasRow r →
    let ins := Instr.crFind r lo hi x
    EncodedAs ins { Fields.ofOp 0x33 with a0 := r, a1 := lo, a2 := hi, a3 := x } ∧
    (hi < lo → exec ins s = .next { s with result := 0xFFFFFFFF }) ∧
    (lo ≤ hi → (s.row r).cap.toNat ≤ hi.toNat → HaltsWith ins s .bounds) ∧
    (lo ≤ hi → hi.toNat < (s.row r).cap.toNat → exec ins s = .next { s with result :=
      (((s.row r).bsearch lo.toNat hi.toNat x).map fun p => BitVec.ofNat 32 p).getD 0xFFFFFFFF })) ∧
  ∀ (row : SparseRow) (lo hi : Int) (x : Index), row.bsearch lo hi x =
    if lo ≤ hi then
      let mid := lo + (hi - lo) / 2
      let e := row.idxAt mid.toNat
      if e = x then some mid.toNat
      else if e < x then row.bsearch (mid + 1) hi x
      else row.bsearch lo (mid - 1) x
    else none

/-- What CR_FIND guarantees: R156 (a) and (b). A position it returns is in the range and holds `x`; on strictly
ascending indices it finds the one position that holds `x`. Case (c) is `Obligations.CrFindRunsTheSearchLoop`, the
model's choice between the two readings R156 offers (log entry 7). -/
def Obligations.CrFindGuarantees : Prop :=
  ∀ (s : State) (r lo hi x : Index), s.Wf → s.HasRow r → lo ≤ hi → hi.toNat < (s.row r).cap.toNat →
    ∃ t, exec (.crFind r lo hi x) s = .next t ∧ t = { s with result := t.result } ∧
    (t.result ≠ 0xFFFFFFFF →
      lo.toNat ≤ t.result.toNat ∧ t.result.toNat ≤ hi.toNat ∧ (s.row r).idxAt t.result.toNat = x) ∧
    ((s.row r).Ascending lo.toNat (hi.toNat + 1) →
      (∀ p, lo.toNat ≤ p → p ≤ hi.toNat → (s.row r).idxAt p = x → t.result.toNat = p) ∧
      ((∀ p, lo.toNat ≤ p → p ≤ hi.toNat → (s.row r).idxAt p ≠ x) → t.result = 0xFFFFFFFF))

/-- CR_SCAN: R157. It returns the lowest position of the range that holds `x`, or NOT_FOUND; on strictly ascending
indices it does what CR_FIND does. -/
def Obligations.CrScanFindsTheLowest : Prop :=
  ∀ (s : State) (r lo hi x : Index), s.Wf → s.HasRow r →
    let ins := Instr.crScan r lo hi x
    EncodedAs ins { Fields.ofOp 0x34 with a0 := r, a1 := lo, a2 := hi, a3 := x } ∧
    (hi < lo → exec ins s = .next { s with result := 0xFFFFFFFF }) ∧
    (lo ≤ hi → (s.row r).cap.toNat ≤ hi.toNat → HaltsWith ins s .bounds) ∧
    (lo ≤ hi → hi.toNat < (s.row r).cap.toNat → ∃ t, exec ins s = .next t ∧ t = { s with result := t.result } ∧
      (∀ p, lo.toNat ≤ p → p ≤ hi.toNat → (s.row r).idxAt p = x →
        (∀ q, lo.toNat ≤ q → q < p → (s.row r).idxAt q ≠ x) → t.result.toNat = p) ∧
      ((∀ p, lo.toNat ≤ p → p ≤ hi.toNat → (s.row r).idxAt p ≠ x) → t.result = 0xFFFFFFFF) ∧
      ((s.row r).Ascending lo.toNat (hi.toNat + 1) → exec (.crFind r lo hi x) s = .next t))

/-- The read-back commands: CR_GETNZ (R158), CR_GETCAP (R159), CR_GETIDX (R160), CR_GETVAL (R161). -/
def Obligations.ReadBackReturnsStoredFields : Prop :=
  ∀ (s : State) (r p : Index), s.HasRow r →
    (EncodedAs (.crGetnz r) { Fields.ofOp 0x38 with a0 := r } ∧
      exec (.crGetnz r) s = .next { s with result := (s.row r).nz.setWidth 32 }) ∧
    (EncodedAs (.crGetcap r) { Fields.ofOp 0x39 with a0 := r } ∧
      exec (.crGetcap r) s = .next { s with result := (s.row r).cap.setWidth 32 }) ∧
    (EncodedAs (.crGetidx r p) { Fields.ofOp 0x3A with a0 := r, a1 := p } ∧
      ((s.row r).cap.toNat ≤ p.toNat → HaltsWith (.crGetidx r p) s .bounds) ∧
      (p.toNat < (s.row r).cap.toNat →
        exec (.crGetidx r p) s = .next { s with result := ((s.row r).idxAt p.toNat).setWidth 32 })) ∧
    (EncodedAs (.crGetval r p) { Fields.ofOp 0x3B with a0 := r, a1 := p } ∧
      ((s.row r).cap.toNat ≤ p.toNat → HaltsWith (.crGetval r p) s .bounds) ∧
      (p.toNat < (s.row r).cap.toNat →
        exec (.crGetval r p) s = .next { s with result := ((s.row r).valAt p.toNat).setWidth 32 }))

/-! ### The converters, the sparse arithmetic and the sparse column swap -/

/-- CR_UNPACK: R170. It writes only the positions the row names, the later entry of an index winning; onto a zeroed
row it leaves the dense view (R31). -/
def Obligations.CrUnpackScattersEntries : Prop :=
  ∀ (s : State) (r : Index) (a : Octet) (i k : Index), s.Wf → s.HasRow r → s.HasSlot a →
    let ins := Instr.crUnpack r a i k
    let b := s.params.base i.toNat k.toNat
    EncodedAs ins { Fields.ofOp 0x40 with a0 := r, ra := a, a1 := i, a2 := k } ∧
    ((s.row r).nz = 0 → exec ins s = .next s) ∧
    ((s.row r).nz ≠ 0 → ¬ ((s.row r).IndicesBelow k.toNat ∧ s.Fits a b k.toNat) → HaltsWith ins s .bounds) ∧
    ((s.row r).nz ≠ 0 → (s.row r).IndicesBelow k.toNat → s.Fits a b k.toNat →
      ∃ t, exec ins s = .next t ∧ OnlyBufferOf a s t ∧
      (∀ p, p < (s.row r).nz.toNat →
        t.dRead a (b + ((s.row r).idxAt p).toNat) = (s.row r).denseAt ((s.row r).idxAt p).toNat) ∧
      (∀ o, (∀ p, p < (s.row r).nz.toNat → o ≠ b + ((s.row r).idxAt p).toNat) → t.dRead a o = s.dRead a o) ∧
      ((∀ c, c < k.toNat → s.dRead a (b + c) = 0) →
        ∀ c, c < k.toNat → t.dRead a (b + c) = (s.row r).denseAt c))

/-- CR_PACK: R171. The row afterwards holds the nonzero columns and no others, ascending, whatever it held before. -/
def Obligations.CrPackGathersNonzeros : Prop :=
  ∀ (s : State) (r : Index) (a : Octet) (i k : Index), s.Wf → s.HasRow r → s.HasSlot a →
    let ins := Instr.crPack r a i k
    let b := s.params.base i.toNat k.toNat
    let d := fun c => s.dRead a (b + c)
    let cnt := ((List.range k.toNat).filter fun c => d c != 0).length
    EncodedAs ins { Fields.ofOp 0x41 with a0 := r, ra := a, a1 := i, a2 := k } ∧
    (¬ s.Fits a b k.toNat → HaltsWith ins s .bounds) ∧
    (s.Fits a b k.toNat → ¬ (s.row r).CanHold s.params cnt → HaltsWith ins s .alloc) ∧
    (s.Fits a b k.toNat → (s.row r).CanHold s.params cnt → ∃ t, exec ins s = .next t ∧ OnlyRow r s t ∧
      (s.row r).PackOf s.params (t.row r) d k.toNat)

/-- The round trip of R172: packing a dense row, zeroing a row and unpacking into it reproduces the dense row, and the
dense view of the packed row is the dense row. -/
def Obligations.PackThenUnpackRestores : Prop :=
  ∀ (s : State) (r : Index) (a b : Octet) (i j k : Index), s.Wf → s.HasRow r → s.HasSlot a → s.HasSlot b →
    let d := fun c => s.dRead a (s.params.base i.toNat k.toNat + c)
    s.Fits a (s.params.base i.toNat k.toNat) k.toNat → s.Fits b (s.params.base j.toNat k.toNat) k.toNat →
    (s.row r).CanHold s.params ((List.range k.toNat).filter fun c => d c != 0).length →
    ∃ t₁ t₂ t₃, exec (.crPack r a i k) s = .next t₁ ∧ exec (.zeroRow b j (k.setWidth 32)) t₁ = .next t₂ ∧
      exec (.crUnpack r b j k) t₂ = .next t₃ ∧
      ∀ c, c < k.toNat → t₃.dRead b (s.params.base j.toNat k.toNat + c) = d c ∧ (t₁.row r).denseAt c = d c

/-- CR_ADD: the pseudocode of R174, with R173. On a row added to itself (`sa = sb`) that holds one index twice the
pseudocode and R174's corner sentence "`sa = sb` gives `.nz = 0`" differ; there this statement follows the pseudocode,
which is the model's choice (log entry 10, DEDUCED). -/
def Obligations.CrAddSumsThroughScratch : Prop :=
  ∀ (s : State) (sa sb w : Index), s.Wf → s.HasRow sa → s.HasRow sb →
    EncodedAs (.crAdd sa sb w) { Fields.ofOp 0x42 with a0 := sa, a1 := sb, a2 := w } ∧
    SumsThroughScratch (.crAdd sa sb w) (fun v => v) sa sb w s

/-- CR_SADD: the pseudocode of R175. The scalar 0 is a no-operation before every check; every other scalar, 1 too,
reads the tables (R105). Where a row holds one index twice, with `sa = sb` (the corner sentence of R174) or in `sb`
(R175's sentence on dense views), the pseudocode and the sentence differ; there this statement follows the pseudocode,
which is the model's choice (log entry 10, DEDUCED). -/
def Obligations.CrSaddSumsScaledRow : Prop :=
  ∀ (s : State) (sa sb : Index) (u : Octet) (w : Index), s.Wf → s.HasRow sa → s.HasRow sb →
    EncodedAs (.crSadd sa sb u w) { Fields.ofOp 0x43 with a0 := sa, a1 := sb, u := u, a2 := w } ∧
    (u = 0 → exec (.crSadd sa sb u w) s = .next s) ∧
    (u ≠ 0 → SumsThroughScratch (.crSadd sa sb u w) (s.params.tables.tmul u) sa sb w s)

/-- The sums in terms of dense views, when no index of `b` repeats: CR_ADD adds the views (R174); under TBL-FIELD
CR_SADD adds `u` times the view of `b` (R175). -/
def Obligations.SparseSumsAddDenseViews : Prop :=
  ∀ (s t : State) (sa sb w : Index), s.Wf → s.HasRow sa → s.HasRow sb → s.halted = false →
    (∀ p q, p < q → q < (s.row sb).nz.toNat → (s.row sb).idxAt p ≠ (s.row sb).idxAt q) → t.halted = false →
    (exec (.crAdd sa sb w) s = .next t → ∀ c, c < w.toNat →
      (t.row sa).denseAt c = (s.row sa).denseAt c ^^^ (s.row sb).denseAt c) ∧
    ∀ (u : Octet) (mul : Octet → Octet → Octet), TblField s.params.tables mul →
      exec (.crSadd sa sb u w) s = .next t → ∀ c, c < w.toNat →
        (t.row sa).denseAt c = (s.row sa).denseAt c ^^^ mul u ((s.row sb).denseAt c)

/-- CR_SWAPCOL (R177), and the relocation of mode ORDERED (R178): the entry leaves position `p` and is inserted before
the first entry with a larger index. -/
def Obligations.CrSwapcolMovesEntries : Prop :=
  ∀ (s : State) (r i j : Index), s.Wf → s.HasRow r →
    let ins := Instr.crSwapcol r i j
    let row := s.row r
    let pi := row.bsearch 0 ((row.nz.toNat : Int) - 1) i
    let pj := row.bsearch 0 ((row.nz.toNat : Int) - 1) j
    let relocates := fun (p : Nat) (x : Index) => ∃ t, exec ins s = .next t ∧ OnlyRow r s t ∧
      (t.row r).nz = row.nz ∧ (t.row r).cap = row.cap ∧ row.KeepsFrom (t.row r) row.nz.toNat ∧
      ∃ q, (∀ e ∈ (row.entries.eraseIdx p).take q, e.1 ≤ x.toNat) ∧
        (∀ e, ((row.entries.eraseIdx p).drop q).head? = some e → x.toNat < e.1) ∧
        (t.row r).entries =
          (row.entries.eraseIdx p).take q ++ (x.toNat, row.valAt p) :: (row.entries.eraseIdx p).drop q
    EncodedAs ins { Fields.ofOp 0x44 with a0 := r, a1 := i, a2 := j } ∧
    (pi = none → pj = none → exec ins s = .next s) ∧
    (∀ x y, pi = some x → pj = some y → ∃ t, exec ins s = .next t ∧ OnlyRow r s t ∧
      t.row r = { row with val := (t.row r).val } ∧
      (t.row r).valAt x = row.valAt y ∧ (t.row r).valAt y = row.valAt x ∧
      ∀ q, q ≠ x → q ≠ y → (t.row r).valAt q = row.valAt q) ∧
    (s.params.swapcolMode = .ordered → ∀ x, pi = some x → pj = none → relocates x j) ∧
    (s.params.swapcolMode = .ordered → ∀ y, pi = none → pj = some y → relocates y i)

/-- The relocation of CR_SWAPCOL in mode LEGACY_APPEND: R179. The entry is appended, and its old place stays with a
zero value. -/
def Obligations.CrSwapcolLegacyAppends : Prop :=
  ∀ (s : State) (r i j : Index), s.Wf → s.HasRow r → s.params.swapcolMode = .legacyAppend →
    let ins := Instr.crSwapcol r i j
    let row := s.row r
    let n := row.nz.toNat
    let pi := row.bsearch 0 ((n : Int) - 1) i
    let pj := row.bsearch 0 ((n : Int) - 1) j
    ∀ (p : Nat) (x : Index), (pi = some p ∧ pj = none ∧ x = j) ∨ (pi = none ∧ pj = some p ∧ x = i) →
      (¬ row.CanHold s.params (n + 1) → HaltsWith ins s .alloc) ∧
      (row.CanHold s.params (n + 1) → ∃ t, exec ins s = .next t ∧ OnlyRow r s t ∧
        row.GrownTo s.params (t.row r) (n + 1) ∧
        (t.row r).idxAt n = x ∧ (t.row r).valAt n = row.valAt p ∧ (t.row r).valAt p = 0 ∧
        (∀ q, q < n → (t.row r).idxAt q = row.idxAt q) ∧
        (∀ q, q < n → q ≠ p → (t.row r).valAt q = row.valAt q) ∧
        row.KeepsFrom (t.row r) (n + 1))

/-- On a row with strictly ascending indices CR_SWAPCOL exchanges columns `i` and `j` of the dense view, in both modes
(R177); in mode ORDERED the indices stay ascending, no stored value becomes zero, and a second equal command restores
every entry (R178). -/
def Obligations.CrSwapcolExchangesColumns : Prop :=
  ∀ (s t : State) (r i j : Index), s.Wf → s.HasRow r → s.halted = false →
    (s.row r).Ascending 0 (s.row r).nz.toNat →
    exec (.crSwapcol r i j) s = .next t → t.halted = false →
    (∀ c, (t.row r).denseAt c = (s.row r).denseAt (if c = i.toNat then j.toNat else if c = j.toNat then i.toNat else c)) ∧
    (s.params.swapcolMode = .ordered → (t.row r).Ascending 0 (t.row r).nz.toNat ∧
      ((s.row r).NoStoredZero → (t.row r).NoStoredZero) ∧ exec (.crSwapcol r i j) t = .next s)

/-! ### The sparse matrix aggregate -/

/-- CM_RESIZE (R190) and CM_DESTROY (R191). Slots at and above the count are not touched. -/
def Obligations.AggregateEmptiesItsRows : Prop :=
  ∀ s : State, s.Wf →
    (∀ rows cols : Index,
      EncodedAs (.cmResize rows cols) { Fields.ofOp 0x50 with a0 := rows, a1 := cols } ∧
      (s.params.nsrow < rows.toNat → HaltsWith (.cmResize rows cols) s .alloc) ∧
      (rows.toNat ≤ s.params.nsrow → ∃ t, exec (.cmResize rows cols) s = .next t ∧
        t = { s with sparse := t.sparse, cmRows := t.cmRows, cmCols := cols } ∧ t.cmRows.toNat = rows.toNat ∧
        t.sparse.length = s.sparse.length ∧
        (∀ n, n < rows.toNat → t.sparse[n]? = some { nz := 0, cap := 0, idx := [], val := [] }) ∧
        (∀ n, rows.toNat ≤ n → t.sparse[n]? = s.sparse[n]?))) ∧
    EncodedAs .cmDestroy (Fields.ofOp 0x51) ∧
    ∃ t, exec .cmDestroy s = .next t ∧ t = { s with sparse := t.sparse, cmRows := 0, cmCols := 0 } ∧
      t.sparse.length = s.sparse.length ∧
      (∀ n, n < s.cmRows.toNat → t.sparse[n]? = some { nz := 0, cap := 0, idx := [], val := [] }) ∧
      (∀ n, s.cmRows.toNat ≤ n → t.sparse[n]? = s.sparse[n]?) ∧
      exec .cmDestroy t = .next t

end
end

