-- ==== Sys2Proof/Laws/Memory.lean ====
section
/-! SUPPORT. The laws of the storage operations: what each read gives after each write, that every operation
keeps the canonical form and the bound on addresses, and that canonical memories with the same contents are equal. -/

namespace Sys2Proof.Machine

variable {w : Nat}

/-! ### Reading -/

@[simp] theorem Memory.read_nil (a : Nat) : Memory.read ([] : Memory w) a = 0 := rfl

theorem Memory.read_cons (k : Nat) (v : BitVec w) (m : Memory w) (a : Nat) :
    Memory.read ((k, v) :: m) a = if a = k then v else Memory.read m a := rfl

theorem Memory.read_of_not_listed {m : Memory w} {a : Nat} (h : ∀ c ∈ m, c.1 ≠ a) : Memory.read m a = 0 := by
  induction m with
  | nil => rfl
  | cons c m ih =>
    obtain ⟨k, v⟩ := c
    have hk : a ≠ k := fun e => h (k, v) (by simp) e.symm
    rw [Memory.read_cons, if_neg hk]
    exact ih fun c hc => h c (by simp [hc])

theorem Memory.read_filter (f : Nat × BitVec w → Bool) (keep : Nat → Bool) (hf : ∀ c, f c = keep c.1)
    (m : Memory w) (a : Nat) : Memory.read (m.filter f) a = if keep a then Memory.read m a else 0 := by
  induction m with
  | nil => simp
  | cons c m ih =>
    obtain ⟨k, v⟩ := c
    rw [List.filter_cons, hf]
    by_cases hk : keep k
    · by_cases ha : a = k
      · subst ha; simp [hk, Memory.read_cons]
      · simp [hk, Memory.read_cons, ha, ih]
    · by_cases ha : a = k
      · subst ha; simp [hk, ih]
      · simp [hk, Memory.read_cons, ha, ih]

theorem Memory.read_insert {m : Memory w} {a : Nat} (h : ∀ c ∈ m, c.1 ≠ a) (v : BitVec w) (b : Nat) :
    Memory.read (Memory.insert m a v) b = if b = a then v else Memory.read m b := by
  induction m with
  | nil => rfl
  | cons c m ih =>
    obtain ⟨k, x⟩ := c
    have hk : k ≠ a := h (k, x) (by simp)
    have ih := ih fun c hc => h c (by simp [hc])
    unfold Memory.insert
    split
    · rfl
    · rw [Memory.read_cons, ih, Memory.read_cons]
      by_cases hb : b = k
      · subst hb; simp [hk]
      · simp [hb]

/-- What a write does to every address. -/
theorem Memory.read_write (m : Memory w) (a : Nat) (v : BitVec w) (b : Nat) :
    Memory.read (Memory.write m a v) b = if b = a then v else Memory.read m b := by
  have hf := Memory.read_filter (fun c : Nat × BitVec w => c.1 != a) (fun k => k != a) (fun _ => rfl) m b
  unfold Memory.write
  by_cases hv : v = 0
  · by_cases hb : b = a <;> simp_all
  · simp only [hv, if_false]
    rw [Memory.read_insert (by simp), hf]
    by_cases hb : b = a <;> simp_all

@[simp] theorem Memory.read_write_same (m : Memory w) (a : Nat) (v : BitVec w) :
    Memory.read (Memory.write m a v) a = v := by simp [Memory.read_write]

theorem Memory.read_write_other (m : Memory w) {a b : Nat} (v : BitVec w) (h : b ≠ a) :
    Memory.read (Memory.write m a v) b = Memory.read m b := by simp [Memory.read_write, h]

/-- What a zero fill does to every address. -/
theorem Memory.read_clear (m : Memory w) (lo n b : Nat) :
    Memory.read (Memory.clear m lo n) b = if lo ≤ b ∧ b < lo + n then 0 else Memory.read m b := by
  unfold Memory.clear
  rw [Memory.read_filter _ (fun k => !(decide (lo ≤ k) && decide (k < lo + n))) (fun _ => rfl)]
  by_cases h : lo ≤ b ∧ b < lo + n
  · simp [h]
  · rw [if_neg h, if_pos]
    simp; omega

theorem Memory.read_below (m : Memory w) (n b : Nat) :
    Memory.read (Memory.below m n) b = if b < n then Memory.read m b else 0 := by
  unfold Memory.below
  rw [Memory.read_filter _ (fun k => decide (k < n)) (fun _ => rfl)]
  simp

@[simp] theorem Memory.length_readRow (m : Memory w) (a n : Nat) : (Memory.readRow m a n).length = n := by
  simp [Memory.readRow]

@[simp] theorem Memory.getElem_readRow (m : Memory w) (a n i : Nat) (h : i < (Memory.readRow m a n).length) :
    (Memory.readRow m a n)[i] = Memory.read m (a + i) := by
  simp [Memory.readRow]

/-- What writing a row does to every address. -/
theorem Memory.read_writeRow (m : Memory w) (a : Nat) (vs : List (BitVec w)) (b : Nat) :
    Memory.read (Memory.writeRow m a vs) b =
      if h : a ≤ b ∧ b - a < vs.length then vs[b - a]'h.2 else Memory.read m b := by
  induction vs generalizing m a with
  | nil => simp [Memory.writeRow]
  | cons v vs ih =>
    rw [Memory.writeRow, ih]
    by_cases h1 : b = a
    · subst h1; simp [show ¬ b + 1 ≤ b by omega]
    · by_cases h2 : a ≤ b ∧ b - a < (v :: vs).length
      · have h3 : a + 1 ≤ b ∧ b - (a + 1) < vs.length := by simp at h2; omega
        obtain ⟨n, hn⟩ : ∃ n, b - a = n + 1 := ⟨b - a - 1, by omega⟩
        rw [dif_pos h2, dif_pos h3]
        simp only [hn, List.getElem_cons_succ]
        congr 1; omega
      · have h3 : ¬ (a + 1 ≤ b ∧ b - (a + 1) < vs.length) := by simp at h2 ⊢; omega
        rw [dif_neg h2, dif_neg h3, Memory.read_write_other _ _ h1]

theorem Memory.read_writeRow_inside (m : Memory w) (a : Nat) (vs : List (BitVec w)) (c : Nat) (h : c < vs.length) :
    Memory.read (Memory.writeRow m a vs) (a + c) = vs[c] := by
  rw [Memory.read_writeRow, dif_pos (by omega)]
  simp

theorem Memory.read_writeRow_outside (m : Memory w) (a : Nat) (vs : List (BitVec w)) (b : Nat)
    (h : ¬ (a ≤ b ∧ b < a + vs.length)) :
    Memory.read (Memory.writeRow m a vs) b = Memory.read m b := by
  rw [Memory.read_writeRow, dif_neg (by omega)]

theorem Memory.read_swap (m : Memory w) (a b c : Nat) :
    Memory.read (Memory.swap m a b) c =
      if c = b then Memory.read m a else if c = a then Memory.read m b else Memory.read m c := by
  simp [Memory.swap, Memory.read_write]

@[simp] theorem Memory.scatter_nil (m : Memory w) (base : Nat) : Memory.scatter m base [] = m := rfl

@[simp] theorem Memory.scatter_cons (m : Memory w) (base : Nat) (e : Nat × BitVec w) (es : List (Nat × BitVec w)) :
    Memory.scatter m base (e :: es) = Memory.scatter (Memory.write m (base + e.1) e.2) base es := rfl

theorem Memory.scatter_append (m : Memory w) (base : Nat) (es fs : List (Nat × BitVec w)) :
    Memory.scatter m base (es ++ fs) = Memory.scatter (Memory.scatter m base es) base fs := by
  simp [Memory.scatter]

theorem Memory.read_scatter_other (m : Memory w) (base : Nat) (es : List (Nat × BitVec w)) (b : Nat)
    (h : ∀ e ∈ es, b ≠ base + e.1) : Memory.read (Memory.scatter m base es) b = Memory.read m b := by
  induction es generalizing m with
  | nil => rfl
  | cons e es ih =>
    rw [Memory.scatter_cons, ih _ fun f hf => h f (by simp [hf]), Memory.read_write_other _ _ (h e (by simp))]

/-- The last entry with an offset wins. -/
theorem Memory.read_scatter_last (m : Memory w) (base : Nat) (es fs : List (Nat × BitVec w)) (e : Nat × BitVec w)
    (h : ∀ f ∈ fs, f.1 ≠ e.1) : Memory.read (Memory.scatter m base (es ++ e :: fs)) (base + e.1) = e.2 := by
  rw [Memory.scatter_append, Memory.scatter_cons, Memory.read_scatter_other]
  · simp
  · intro f hf
    have := h f hf
    omega

/-! ### The canonical form -/

theorem Memory.wf_nil : Memory.wf ([] : Memory w) := ⟨List.Pairwise.nil, fun _ h => absurd h List.not_mem_nil⟩

theorem Memory.wf_filter {m : Memory w} (h : Memory.wf m) (f : Nat × BitVec w → Bool) : Memory.wf (m.filter f) :=
  ⟨h.1.filter f, fun c hc => h.2 c (List.mem_filter.mp hc).1⟩

theorem Memory.mem_insert {m : Memory w} {a : Nat} {v : BitVec w} {c : Nat × BitVec w} :
    c ∈ Memory.insert m a v ↔ c = (a, v) ∨ c ∈ m := by
  induction m with
  | nil => simp [Memory.insert]
  | cons d m ih =>
    unfold Memory.insert
    split
    · simp
    · simp only [List.mem_cons, ih]; tauto

theorem Memory.wf_insert {m : Memory w} (h : Memory.wf m) {a : Nat} (ha : ∀ c ∈ m, c.1 ≠ a) {v : BitVec w}
    (hv : v ≠ 0) : Memory.wf (Memory.insert m a v) := by
  refine ⟨?_, fun c hc => ?_⟩
  · induction m with
    | nil => simp [Memory.insert]
    | cons d m ih =>
      obtain ⟨k, x⟩ := d
      obtain ⟨hp, hz⟩ := h
      rw [List.pairwise_cons] at hp
      have hk : k ≠ a := ha (k, x) (by simp)
      unfold Memory.insert
      split
      · next hlt =>
        rw [List.pairwise_cons, List.pairwise_cons]
        refine ⟨fun c hc => ?_, hp⟩
        rcases List.mem_cons.mp hc with rfl | hc
        · exact hlt
        · exact lt_trans hlt (hp.1 c hc)
      · rw [List.pairwise_cons]
        refine ⟨fun c hc => ?_, ih ⟨hp.2, fun c hc => hz c (by simp [hc])⟩ fun c hc => ha c (by simp [hc])⟩
        rcases Memory.mem_insert.mp hc with rfl | hc
        · simp; omega
        · exact hp.1 c hc
  · rcases Memory.mem_insert.mp hc with rfl | hc
    · exact hv
    · exact h.2 c hc

theorem Memory.wf_write {m : Memory w} (h : Memory.wf m) (a : Nat) (v : BitVec w) : Memory.wf (Memory.write m a v) := by
  unfold Memory.write
  by_cases hv : v = 0
  · simpa [hv] using Memory.wf_filter h _
  · simp only [hv, if_false]
    exact Memory.wf_insert (Memory.wf_filter h _) (by simp) hv

theorem Memory.wf_clear {m : Memory w} (h : Memory.wf m) (lo n : Nat) : Memory.wf (Memory.clear m lo n) :=
  Memory.wf_filter h _

theorem Memory.wf_below {m : Memory w} (h : Memory.wf m) (n : Nat) : Memory.wf (Memory.below m n) :=
  Memory.wf_filter h _

theorem Memory.wf_writeRow {m : Memory w} (h : Memory.wf m) (a : Nat) (vs : List (BitVec w)) :
    Memory.wf (Memory.writeRow m a vs) := by
  induction vs generalizing m a with
  | nil => exact h
  | cons v vs ih => exact ih (Memory.wf_write h a v) (a + 1)

theorem Memory.wf_swap {m : Memory w} (h : Memory.wf m) (a b : Nat) : Memory.wf (Memory.swap m a b) :=
  Memory.wf_write (Memory.wf_write h _ _) _ _

theorem Memory.wf_scatter {m : Memory w} (h : Memory.wf m) (base : Nat) (es : List (Nat × BitVec w)) :
    Memory.wf (Memory.scatter m base es) := by
  induction es generalizing m with
  | nil => exact h
  | cons e es ih => exact ih (Memory.wf_write h _ _)

/-! ### The bound on addresses -/

theorem Memory.below_mono {m : Memory w} {n k : Nat} (h : Memory.Below m n) (hk : n ≤ k) : Memory.Below m k :=
  fun c hc => lt_of_lt_of_le (h c hc) hk

theorem Memory.below_filter {m : Memory w} {n : Nat} (h : Memory.Below m n) (f : Nat × BitVec w → Bool) :
    Memory.Below (m.filter f) n := fun c hc => h c (List.mem_filter.mp hc).1

theorem Memory.below_write {m : Memory w} {n : Nat} (h : Memory.Below m n) {a : Nat} (ha : a < n) (v : BitVec w) :
    Memory.Below (Memory.write m a v) n := by
  unfold Memory.write
  by_cases hv : v = 0
  · rw [if_pos hv]
    exact Memory.below_filter h _
  · rw [if_neg hv]
    intro c hc
    rcases Memory.mem_insert.mp hc with rfl | hc
    · exact ha
    · exact Memory.below_filter h _ c hc

theorem Memory.below_clear {m : Memory w} {n : Nat} (h : Memory.Below m n) (lo k : Nat) :
    Memory.Below (Memory.clear m lo k) n := Memory.below_filter h _

theorem Memory.below_below (m : Memory w) (n : Nat) : Memory.Below (Memory.below m n) n := by
  intro c hc
  simpa [Memory.below] using (List.mem_filter.mp hc).2

theorem Memory.below_writeRow {m : Memory w} {n : Nat} (h : Memory.Below m n) {a : Nat} {vs : List (BitVec w)}
    (ha : vs = [] ∨ a + vs.length ≤ n) : Memory.Below (Memory.writeRow m a vs) n := by
  induction vs generalizing m a with
  | nil => exact h
  | cons v vs ih =>
    have ha : a + (vs.length + 1) ≤ n := by simpa using ha
    exact ih (Memory.below_write h (by omega) v) (.inr (by omega))

theorem Memory.below_swap {m : Memory w} {n : Nat} (h : Memory.Below m n) {a b : Nat} (ha : a < n) (hb : b < n) :
    Memory.Below (Memory.swap m a b) n := Memory.below_write (Memory.below_write h ha _) hb _

theorem Memory.below_scatter {m : Memory w} {n : Nat} (h : Memory.Below m n) {base : Nat}
    {es : List (Nat × BitVec w)} (hes : ∀ e ∈ es, base + e.1 < n) : Memory.Below (Memory.scatter m base es) n := by
  induction es generalizing m with
  | nil => exact h
  | cons e es ih => exact ih (Memory.below_write h (hes e (by simp)) _) fun f hf => hes f (by simp [hf])

theorem Memory.below_eq_self {m : Memory w} {n : Nat} (h : Memory.Below m n) : Memory.below m n = m :=
  List.filter_eq_self.mpr fun c hc => by simpa using h c hc

/-! ### Equal contents, equal lists -/

theorem Memory.read_of_mem {m : Memory w} (h : Memory.wf m) {c : Nat × BitVec w} (hc : c ∈ m) :
    Memory.read m c.1 = c.2 := by
  induction m with
  | nil => simp at hc
  | cons d m ih =>
    obtain ⟨k, x⟩ := d
    obtain ⟨hp, hz⟩ := h
    rw [List.pairwise_cons] at hp
    rcases List.mem_cons.mp hc with rfl | hm
    · simp [Memory.read_cons]
    · have hlt : k < c.1 := hp.1 c hm
      rw [Memory.read_cons, if_neg (by omega)]
      exact ih ⟨hp.2, fun c hc => hz c (by simp [hc])⟩ hm

theorem Memory.mem_iff_read {m : Memory w} (h : Memory.wf m) (c : Nat × BitVec w) :
    c ∈ m ↔ c.2 ≠ 0 ∧ Memory.read m c.1 = c.2 := by
  refine ⟨fun hc => ⟨h.2 c hc, Memory.read_of_mem h hc⟩, fun ⟨hz, hr⟩ => ?_⟩
  by_contra hn
  by_cases hk : ∃ d ∈ m, d.1 = c.1
  · obtain ⟨d, hd, hdc⟩ := hk
    have hrd := Memory.read_of_mem h hd
    rw [hdc, hr] at hrd
    exact hn (by rw [show c = d from Prod.ext hdc.symm hrd]; exact hd)
  · exact hz (hr ▸ Memory.read_of_not_listed fun d hd hdc => hk ⟨d, hd, hdc⟩)

/-- Canonical memories that read the same everywhere are the same list. -/
theorem Memory.eq_of_read_eq {m n : Memory w} (hm : Memory.wf m) (hn : Memory.wf n)
    (h : ∀ a, Memory.read m a = Memory.read n a) : m = n := by
  have hmem : ∀ c, c ∈ m ↔ c ∈ n := fun c => by rw [Memory.mem_iff_read hm, Memory.mem_iff_read hn, h]
  have hs : ∀ {l : Memory w}, Memory.wf l → l.Nodup := fun hl =>
    hl.1.imp fun hlt he => by simp [he] at hlt
  exact List.Perm.eq_of_pairwise (le := fun x y => x.1 < y.1)
    (fun a b _ _ hab hba => absurd hab (by omega)) hm.1 hn.1 ((List.perm_ext_iff_of_nodup (hs hm) (hs hn)).mpr hmem)

end Sys2Proof.Machine
end

