-- ==== Sys2Proof/Laws/State.lean ====
section
/-! SUPPORT. One lemma for each field of State and each update of it, and what reading a slot gives after an update. -/

namespace Sys2Proof.Machine

@[simp] theorem State.setResult_dense (s : State) (v : Word) : (s.setResult v).dense = s.dense := rfl
@[simp] theorem State.setResult_sparse (s : State) (v : Word) : (s.setResult v).sparse = s.sparse := rfl
@[simp] theorem State.setResult_cmRows (s : State) (v : Word) : (s.setResult v).cmRows = s.cmRows := rfl
@[simp] theorem State.setResult_cmCols (s : State) (v : Word) : (s.setResult v).cmCols = s.cmCols := rfl
@[simp] theorem State.setResult_status (s : State) (v : Word) : (s.setResult v).status = s.status := rfl
@[simp] theorem State.setResult_cause (s : State) (v : Word) : (s.setResult v).cause = s.cause := rfl
@[simp] theorem State.setResult_fcmd (s : State) (v : Word) : (s.setResult v).fcmd = s.fcmd := rfl
@[simp] theorem State.setResult_result (s : State) (v : Word) : (s.setResult v).result = v := rfl
@[simp] theorem State.setResult_scr (s : State) (v : Word) : (s.setResult v).scr = s.scr := rfl
@[simp] theorem State.setResult_params (s : State) (v : Word) : (s.setResult v).params = s.params := rfl
@[simp] theorem State.setResult_pending (s : State) (v : Word) : (s.setResult v).pending = s.pending := rfl
@[simp] theorem State.setResult_reply (s : State) (v : Word) : (s.setResult v).reply = s.reply := rfl

@[simp] theorem State.setSlot_dense (s : State) (a : Octet) (d : DenseSlot) : (s.setSlot a d).dense = s.dense.set a.toNat d := rfl
@[simp] theorem State.setSlot_sparse (s : State) (a : Octet) (d : DenseSlot) : (s.setSlot a d).sparse = s.sparse := rfl
@[simp] theorem State.setSlot_cmRows (s : State) (a : Octet) (d : DenseSlot) : (s.setSlot a d).cmRows = s.cmRows := rfl
@[simp] theorem State.setSlot_cmCols (s : State) (a : Octet) (d : DenseSlot) : (s.setSlot a d).cmCols = s.cmCols := rfl
@[simp] theorem State.setSlot_status (s : State) (a : Octet) (d : DenseSlot) : (s.setSlot a d).status = s.status := rfl
@[simp] theorem State.setSlot_cause (s : State) (a : Octet) (d : DenseSlot) : (s.setSlot a d).cause = s.cause := rfl
@[simp] theorem State.setSlot_fcmd (s : State) (a : Octet) (d : DenseSlot) : (s.setSlot a d).fcmd = s.fcmd := rfl
@[simp] theorem State.setSlot_result (s : State) (a : Octet) (d : DenseSlot) : (s.setSlot a d).result = s.result := rfl
@[simp] theorem State.setSlot_scr (s : State) (a : Octet) (d : DenseSlot) : (s.setSlot a d).scr = s.scr := rfl
@[simp] theorem State.setSlot_params (s : State) (a : Octet) (d : DenseSlot) : (s.setSlot a d).params = s.params := rfl
@[simp] theorem State.setSlot_pending (s : State) (a : Octet) (d : DenseSlot) : (s.setSlot a d).pending = s.pending := rfl
@[simp] theorem State.setSlot_reply (s : State) (a : Octet) (d : DenseSlot) : (s.setSlot a d).reply = s.reply := rfl

@[simp] theorem State.setRow_dense (s : State) (r : Index) (t : SparseRow) : (s.setRow r t).dense = s.dense := rfl
@[simp] theorem State.setRow_sparse (s : State) (r : Index) (t : SparseRow) : (s.setRow r t).sparse = s.sparse.set r.toNat t := rfl
@[simp] theorem State.setRow_cmRows (s : State) (r : Index) (t : SparseRow) : (s.setRow r t).cmRows = s.cmRows := rfl
@[simp] theorem State.setRow_cmCols (s : State) (r : Index) (t : SparseRow) : (s.setRow r t).cmCols = s.cmCols := rfl
@[simp] theorem State.setRow_status (s : State) (r : Index) (t : SparseRow) : (s.setRow r t).status = s.status := rfl
@[simp] theorem State.setRow_cause (s : State) (r : Index) (t : SparseRow) : (s.setRow r t).cause = s.cause := rfl
@[simp] theorem State.setRow_fcmd (s : State) (r : Index) (t : SparseRow) : (s.setRow r t).fcmd = s.fcmd := rfl
@[simp] theorem State.setRow_result (s : State) (r : Index) (t : SparseRow) : (s.setRow r t).result = s.result := rfl
@[simp] theorem State.setRow_scr (s : State) (r : Index) (t : SparseRow) : (s.setRow r t).scr = s.scr := rfl
@[simp] theorem State.setRow_params (s : State) (r : Index) (t : SparseRow) : (s.setRow r t).params = s.params := rfl
@[simp] theorem State.setRow_pending (s : State) (r : Index) (t : SparseRow) : (s.setRow r t).pending = s.pending := rfl
@[simp] theorem State.setRow_reply (s : State) (r : Index) (t : SparseRow) : (s.setRow r t).reply = s.reply := rfl

@[simp] theorem State.takeHalt_dense (s : State) (c : Cause) (w : Command) : (s.takeHalt c w).dense = s.dense := rfl
@[simp] theorem State.takeHalt_sparse (s : State) (c : Cause) (w : Command) : (s.takeHalt c w).sparse = s.sparse := rfl
@[simp] theorem State.takeHalt_cmRows (s : State) (c : Cause) (w : Command) : (s.takeHalt c w).cmRows = s.cmRows := rfl
@[simp] theorem State.takeHalt_cmCols (s : State) (c : Cause) (w : Command) : (s.takeHalt c w).cmCols = s.cmCols := rfl
@[simp] theorem State.takeHalt_status (s : State) (c : Cause) (w : Command) : (s.takeHalt c w).status = s.status ||| 1 := rfl
@[simp] theorem State.takeHalt_cause (s : State) (c : Cause) (w : Command) : (s.takeHalt c w).cause = Cause.code c := rfl
@[simp] theorem State.takeHalt_fcmd (s : State) (c : Cause) (w : Command) : (s.takeHalt c w).fcmd = w.extractLsb' 0 32 := rfl
@[simp] theorem State.takeHalt_result (s : State) (c : Cause) (w : Command) : (s.takeHalt c w).result = s.result := rfl
@[simp] theorem State.takeHalt_scr (s : State) (c : Cause) (w : Command) : (s.takeHalt c w).scr = s.scr := rfl
@[simp] theorem State.takeHalt_params (s : State) (c : Cause) (w : Command) : (s.takeHalt c w).params = s.params := rfl
@[simp] theorem State.takeHalt_pending (s : State) (c : Cause) (w : Command) : (s.takeHalt c w).pending = s.pending := rfl
@[simp] theorem State.takeHalt_reply (s : State) (c : Cause) (w : Command) : (s.takeHalt c w).reply = s.reply := rfl

@[simp] theorem State.takeReset_dense (s : State) : (s.takeReset).dense = List.replicate s.params.nmat emptyDense := rfl
@[simp] theorem State.takeReset_sparse (s : State) : (s.takeReset).sparse = List.replicate s.params.nsrow emptyRow := rfl
@[simp] theorem State.takeReset_cmRows (s : State) : (s.takeReset).cmRows = 0 := rfl
@[simp] theorem State.takeReset_cmCols (s : State) : (s.takeReset).cmCols = 0 := rfl
@[simp] theorem State.takeReset_status (s : State) : (s.takeReset).status = 0 := rfl
@[simp] theorem State.takeReset_cause (s : State) : (s.takeReset).cause = 0 := rfl
@[simp] theorem State.takeReset_fcmd (s : State) : (s.takeReset).fcmd = 0 := rfl
@[simp] theorem State.takeReset_result (s : State) : (s.takeReset).result = 0 := rfl
@[simp] theorem State.takeReset_scr (s : State) : (s.takeReset).scr = [] := rfl
@[simp] theorem State.takeReset_params (s : State) : (s.takeReset).params = s.params := rfl
@[simp] theorem State.takeReset_pending (s : State) : (s.takeReset).pending = s.pending := rfl
@[simp] theorem State.takeReset_reply (s : State) : (s.takeReset).reply = .none := rfl

@[simp] theorem State.putNextWord_dense (s : State) (nbits w : Nat) : (s.putNextWord nbits w).dense = s.dense := rfl
@[simp] theorem State.putNextWord_sparse (s : State) (nbits w : Nat) : (s.putNextWord nbits w).sparse = s.sparse := rfl
@[simp] theorem State.putNextWord_cmRows (s : State) (nbits w : Nat) : (s.putNextWord nbits w).cmRows = s.cmRows := rfl
@[simp] theorem State.putNextWord_cmCols (s : State) (nbits w : Nat) : (s.putNextWord nbits w).cmCols = s.cmCols := rfl
@[simp] theorem State.putNextWord_status (s : State) (nbits w : Nat) : (s.putNextWord nbits w).status = s.status := rfl
@[simp] theorem State.putNextWord_cause (s : State) (nbits w : Nat) : (s.putNextWord nbits w).cause = s.cause := rfl
@[simp] theorem State.putNextWord_fcmd (s : State) (nbits w : Nat) : (s.putNextWord nbits w).fcmd = s.fcmd := rfl
@[simp] theorem State.putNextWord_result (s : State) (nbits w : Nat) : (s.putNextWord nbits w).result = s.result := rfl
@[simp] theorem State.putNextWord_scr (s : State) (nbits w : Nat) : (s.putNextWord nbits w).scr = s.scr := rfl
@[simp] theorem State.putNextWord_params (s : State) (nbits w : Nat) : (s.putNextWord nbits w).params = s.params := rfl
@[simp] theorem State.putNextWord_pending (s : State) (nbits w : Nat) : (s.putNextWord nbits w).pending = .command (BitVec.ofNat 128 (w % 2 ^ nbits)) :: s.pending := rfl
@[simp] theorem State.putNextWord_reply (s : State) (nbits w : Nat) : (s.putNextWord nbits w).reply = s.reply := rfl

/-! ### Slots after an update -/

theorem State.dWrite_eq_setSlot (s : State) (a : Octet) (o : Nat) (v : Octet) :
    s.dWrite a o v = s.setSlot a { s.slot a with buf := Memory.write (s.buf a) o v } := rfl

theorem State.setBuf_eq_setSlot (s : State) (a : Octet) (m : Memory 8) :
    s.setBuf a m = s.setSlot a { s.slot a with buf := m } := rfl

theorem State.writeRow_eq_setBuf (s : State) (a : Octet) (o : Nat) (vs : List Octet) :
    s.writeRow a o vs = s.setBuf a (Memory.writeRow (s.buf a) o vs) := rfl

theorem State.slot_setSlot_same (s : State) (a : Octet) (d : DenseSlot) (h : a.toNat < s.dense.length) :
    (s.setSlot a d).slot a = d := by
  simp [State.slot, List.getD_eq_getElem?_getD, h]

theorem State.slot_setSlot_other (s : State) {a b : Octet} (d : DenseSlot) (h : b ≠ a) :
    (s.setSlot a d).slot b = s.slot b := by
  have : a.toNat ≠ b.toNat := fun e => h (BitVec.eq_of_toNat_eq e.symm)
  simp [State.slot, List.getD_eq_getElem?_getD, List.getElem?_set_ne this]

theorem State.row_setRow_same (s : State) (r : Index) (t : SparseRow) (h : r.toNat < s.sparse.length) :
    (s.setRow r t).row r = t := by
  simp [State.row, List.getD_eq_getElem?_getD, h]

theorem State.row_setRow_other (s : State) {r q : Index} (t : SparseRow) (h : q ≠ r) :
    (s.setRow r t).row q = s.row q := by
  have : r.toNat ≠ q.toNat := fun e => h (BitVec.eq_of_toNat_eq e.symm)
  simp [State.row, List.getD_eq_getElem?_getD, List.getElem?_set_ne this]

theorem State.slot_setBuf_same (s : State) (a : Octet) (m : Memory 8) (h : a.toNat < s.dense.length) :
    (s.setBuf a m).slot a = { s.slot a with buf := m } := State.slot_setSlot_same s a _ h

@[simp] theorem State.buf_setBuf_same (s : State) (a : Octet) (m : Memory 8) (h : a.toNat < s.dense.length) :
    (s.setBuf a m).buf a = m := by rw [State.buf, State.slot_setBuf_same s a m h]

@[simp] theorem State.len_setBuf (s : State) (a b : Octet) (m : Memory 8) :
    (s.setBuf a m).len b = s.len b := by
  by_cases h : b = a
  · subst h
    by_cases hl : b.toNat < s.dense.length
    · simp [State.len, State.slot_setBuf_same s b m hl, DenseSlot.len]
    · simp [State.len, State.setBuf, State.setSlot, State.slot, List.set_eq_of_length_le (not_lt.mp hl)]
  · simp [State.len, State.setBuf, State.slot_setSlot_other s _ h]

/-- A slot that exists is one of the list. -/
theorem State.slot_mem (s : State) (a : Octet) (h : a.toNat < s.dense.length) : s.slot a ∈ s.dense := by
  simp [State.slot, List.getD_eq_getElem?_getD, h]

theorem State.row_mem (s : State) (r : Index) (h : r.toNat < s.sparse.length) : s.row r ∈ s.sparse := by
  simp [State.row, List.getD_eq_getElem?_getD, h]

end Sys2Proof.Machine
end

