-- ==== Sys2Proof/Laws/Operations.lean ====
section
/-! SUPPORT. One lemma for each shared operation that says once what it can do: the outcome of a command, the slot
check, the stride function, the updates of one slot, the dense reads and writes. -/

namespace Sys2Proof.Machine

/-! ### The outcome of a command -/

@[simp] theorem conclude_done (w : Command) (t : State) : conclude w (.done t) = .next t := rfl

@[simp] theorem conclude_raise (w : Command) (c : Cause) (t : State) :
    conclude w (.raise c t) = .next (t.takeHalt c w) := rfl

theorem haltsWith_iff (i : Instr) (s : State) (c : Cause) :
    HaltsWith i s c ↔ exec i s = .next (s.takeHalt c (encode i)) := Iff.rfl

theorem withSlots_pass {s : State} {ds : List Octet} {rs : List Index} {rest : Attempt}
    (hd : ∀ a ∈ ds, s.HasSlot a) (hr : ∀ r ∈ rs, s.HasRow r) : withSlots s ds rs rest = rest := by
  unfold withSlots
  exact if_pos (by simp only [Bool.and_eq_true, List.all_eq_true, decide_eq_true_eq]; exact ⟨hd, hr⟩)

theorem withSlots_fail {s : State} {ds : List Octet} {rs : List Index} {rest : Attempt}
    (h : ¬ ((∀ a ∈ ds, s.HasSlot a) ∧ ∀ r ∈ rs, s.HasRow r)) : withSlots s ds rs rest = .raise .slot s := by
  unfold withSlots
  exact if_neg (by simp only [Bool.and_eq_true, List.all_eq_true, decide_eq_true_eq]; exact h)

/-- What a command that names no sparse slot and one dense slot comes to. -/
theorem withSlots_dense_one {s : State} {a : Octet} {rest : Attempt} (ha : s.HasSlot a) :
    withSlots s [a] [] rest = rest := withSlots_pass (by simpa using ha) (by simp)

theorem withSlots_dense_two {s : State} {a b : Octet} {rest : Attempt} (ha : s.HasSlot a) (hb : s.HasSlot b) :
    withSlots s [a, b] [] rest = rest := withSlots_pass (by simpa using ⟨ha, hb⟩) (by simp)

theorem withSlots_dense_three {s : State} {a b c : Octet} {rest : Attempt} (ha : s.HasSlot a) (hb : s.HasSlot b)
    (hc : s.HasSlot c) : withSlots s [a, b, c] [] rest = rest :=
  withSlots_pass (by simpa using ⟨ha, hb, hc⟩) (by simp)

theorem withSlots_sparse_one {s : State} {r : Index} {rest : Attempt} (hr : s.HasRow r) :
    withSlots s [] [r] rest = rest := withSlots_pass (by simp) (by simpa using hr)

theorem withSlots_sparse_two {s : State} {r q : Index} {rest : Attempt} (hr : s.HasRow r) (hq : s.HasRow q) :
    withSlots s [] [r, q] rest = rest := withSlots_pass (by simp) (by simpa using ⟨hr, hq⟩)

theorem withSlots_both {s : State} {a : Octet} {r : Index} {rest : Attempt} (ha : s.HasSlot a) (hr : s.HasRow r) :
    withSlots s [a] [r] rest = rest := withSlots_pass (by simpa using ha) (by simpa using hr)

/-! ### The stride function (00_scope.md R11) -/

theorem Params.Legal.align_pos {p : Params} (h : p.Legal) : 0 < p.align := by
  obtain ⟨⟨e, -, he⟩, -⟩ := h
  rw [he]; exact Nat.two_pow_pos e

theorem Params.stride_mod (p : Params) (k : Nat) : p.stride k % p.align = 0 := Nat.mul_mod_left _ _

theorem Params.stride_zero (p : Params) : p.stride 0 = 0 := by
  rcases Nat.eq_zero_or_pos p.align with h | h
  · simp [Params.stride, h]
  · rw [Params.stride, Nat.div_eq_of_lt (by omega), Nat.zero_mul]

theorem Params.le_stride {p : Params} (h : 0 < p.align) (k : Nat) : k ≤ p.stride k := by
  have h1 := Nat.div_add_mod (k + p.align - 1) p.align
  have h2 := Nat.mod_lt (k + p.align - 1) h
  rw [Params.stride, Nat.mul_comm]
  omega

theorem Params.stride_le_of_multiple {p : Params} (h : 0 < p.align) {k m : Nat} (hm : m % p.align = 0) (hk : k ≤ m) :
    p.stride k ≤ m := by
  obtain ⟨c, rfl⟩ := Nat.dvd_of_mod_eq_zero hm
  have : (k + p.align - 1) / p.align ≤ c := by
    rw [Nat.div_le_iff_le_mul_add_pred h]; omega
  calc p.stride k = (k + p.align - 1) / p.align * p.align := rfl
    _ ≤ c * p.align := Nat.mul_le_mul_right _ this
    _ = p.align * c := Nat.mul_comm _ _

theorem Params.stride_of_multiple {p : Params} (h : 0 < p.align) {k : Nat} (hk : k % p.align = 0) : p.stride k = k :=
  le_antisymm (Params.stride_le_of_multiple h hk (le_refl k)) (Params.le_stride h k)

theorem Params.stride_mono {p : Params} (h : 0 < p.align) {k m : Nat} (hk : k ≤ m) : p.stride k ≤ p.stride m :=
  Params.stride_le_of_multiple h (p.stride_mod m) (le_trans hk (Params.le_stride h m))

/-- A stride of a 16-bit width, or of a count up to 65536, fits 17 bits. -/
theorem Params.Legal.stride_le {p : Params} (h : p.Legal) {k : Nat} (hk : k ≤ 65536) : p.stride k ≤ 65536 := by
  refine Params.stride_le_of_multiple h.align_pos ?_ hk
  obtain ⟨⟨e, he, ha⟩, -⟩ := h
  rw [ha]
  exact Nat.mod_eq_zero_of_dvd (Nat.pow_dvd_pow 2 (by omega : e ≤ 16))

theorem Params.Legal.stride_index {p : Params} (h : p.Legal) (k : Index) :
    (BitVec.ofNat 17 (p.stride k.toNat)).toNat = p.stride k.toNat := by
  have := h.stride_le (k := k.toNat) (by have := k.isLt; omega)
  rw [BitVec.toNat_ofNat, Nat.mod_eq_of_lt (by omega)]

/-- Rows of one width do not overlap: 42_dense_elementary.md R131. -/
theorem Params.rows_disjoint {p : Params} (h : 0 < p.align) {i j k c d : Nat} (hij : i ≠ j) (hc : c < k) (hd : d < k) :
    p.base i k + c ≠ p.base j k + d := by
  have hk := Params.le_stride h k
  intro he
  simp only [Params.base] at he
  rcases Nat.lt_or_gt_of_ne hij with hl | hl
  · have := Nat.mul_le_mul_right (p.stride k) (show i + 1 ≤ j from hl)
    rw [Nat.add_mul] at this; omega
  · have := Nat.mul_le_mul_right (p.stride k) (show j + 1 ≤ i from hl)
    rw [Nat.add_mul] at this; omega

/-! ### The invariant, opened -/

theorem State.Wf.legal {s : State} (h : s.Wf) : s.params.Legal := h.1
theorem State.Wf.align_pos {s : State} (h : s.Wf) : 0 < s.params.align := h.legal.align_pos
theorem State.Wf.dense_length {s : State} (h : s.Wf) : s.dense.length = s.params.nmat := h.2.1.1
theorem State.Wf.sparse_length {s : State} (h : s.Wf) : s.sparse.length = s.params.nsrow := h.2.2.1.1
theorem State.Wf.slot_wf {s : State} (h : s.Wf) {a : Octet} (ha : s.HasSlot a) : (s.slot a).Wf s.params :=
  h.2.1.2 _ (s.slot_mem a (h.dense_length ▸ ha))
theorem State.Wf.row_wf {s : State} (h : s.Wf) {r : Index} (hr : s.HasRow r) : (s.row r).Wf s.params :=
  h.2.2.1.2 _ (s.row_mem r (h.sparse_length ▸ hr))
theorem State.Wf.slot_lt {s : State} (h : s.Wf) {a : Octet} (ha : s.HasSlot a) : a.toNat < s.dense.length :=
  h.dense_length ▸ ha
theorem State.Wf.row_lt {s : State} (h : s.Wf) {r : Index} (hr : s.HasRow r) : r.toNat < s.sparse.length :=
  h.sparse_length ▸ hr

/-- The length of a slot's buffer, whether or not the slot is valid. -/
theorem DenseSlot.Wf.len_eq {p : Params} {d : DenseSlot} (h : d.Wf p) : d.len = d.rows.toNat * d.stride.toNat := by
  unfold DenseSlot.len
  by_cases hv : d.valid
  · simp [hv]
  · have := h.2.2.1 (by simpa using hv)
    simp [hv, this.1]

theorem DenseSlot.Wf.below_len {p : Params} {d : DenseSlot} (h : d.Wf p) : Memory.Below d.buf d.len :=
  h.len_eq ▸ h.2.2.2.2

theorem State.Wf.buf_wf {s : State} (h : s.Wf) {a : Octet} (ha : s.HasSlot a) : Memory.wf (s.buf a) :=
  (h.slot_wf ha).2.2.2.1

theorem State.Wf.buf_below {s : State} (h : s.Wf) {a : Octet} (ha : s.HasSlot a) : Memory.Below (s.buf a) (s.len a) :=
  (h.slot_wf ha).below_len

/-! ### The update of one slot -/

/-- Putting back what a slot holds changes nothing. -/
theorem State.setSlot_self (s : State) (a : Octet) (h : a.toNat < s.dense.length) : s.setSlot a (s.slot a) = s := by
  simp [State.setSlot, State.slot, List.getD_eq_getElem?_getD, h, List.set_getElem_self]

theorem State.setRow_self (s : State) (r : Index) (h : r.toNat < s.sparse.length) : s.setRow r (s.row r) = s := by
  simp [State.setRow, State.row, List.getD_eq_getElem?_getD, h, List.set_getElem_self]

theorem State.setBuf_self (s : State) (a : Octet) (h : a.toNat < s.dense.length) : s.setBuf a (s.buf a) = s :=
  State.setSlot_self s a h

theorem State.setSlot_setSlot (s : State) (a : Octet) (d e : DenseSlot) :
    (s.setSlot a d).setSlot a e = s.setSlot a e := by simp [State.setSlot]

/-- Two updates of the buffer of one slot are the later one. -/
theorem State.setBuf_setBuf (s : State) (a : Octet) (m n : Memory 8) : (s.setBuf a m).setBuf a n = s.setBuf a n := by
  by_cases h : a.toNat < s.dense.length
  · rw [State.setBuf_eq_setSlot (s.setBuf a m), State.slot_setBuf_same s a m h]
    exact State.setSlot_setSlot s a _ _
  · simp [State.setBuf, State.setSlot, List.set_eq_of_length_le (not_lt.mp h)]

theorem onlySlot_setSlot (s : State) (a : Octet) (d : DenseSlot) : OnlySlot a s (s.setSlot a d) := by
  refine ⟨rfl, by simp, fun n hn => ?_⟩
  simp [List.getElem?_set_ne (Ne.symm hn)]

theorem onlyBufferOf_setBuf (s : State) (a : Octet) (m : Memory 8) (h : a.toNat < s.dense.length) :
    OnlyBufferOf a s (s.setBuf a m) := by
  refine ⟨onlySlot_setSlot s a _, ?_⟩
  rw [State.buf_setBuf_same s a m h, State.slot_setBuf_same s a m h]

theorem onlyRow_setRow (s : State) (r : Index) (t : SparseRow) : OnlyRow r s (s.setRow r t) := by
  refine ⟨rfl, by simp, fun n hn => ?_⟩
  simp [List.getElem?_set_ne (Ne.symm hn)]

/-- A buffer with the same contents is the same buffer. -/
theorem State.setBuf_eq_self {s : State} (hs : s.Wf) {a : Octet} (ha : s.HasSlot a) {m : Memory 8} (hm : Memory.wf m)
    (h : ∀ o, Memory.read m o = s.dRead a o) : s.setBuf a m = s := by
  rw [Memory.eq_of_read_eq hm (hs.buf_wf ha) h]
  exact s.setBuf_self a (hs.slot_lt ha)

theorem State.dRead_setBuf (s : State) (a : Octet) (m : Memory 8) (o : Nat) (h : a.toNat < s.dense.length) :
    (s.setBuf a m).dRead a o = Memory.read m o := by
  rw [State.dRead, State.buf_setBuf_same s a m h]

theorem State.dRead_writeRow (s : State) (a : Octet) (b : Nat) (vs : List Octet) (o : Nat)
    (h : a.toNat < s.dense.length) :
    (s.writeRow a b vs).dRead a o = if hb : b ≤ o ∧ o - b < vs.length then vs[o - b]'hb.2 else s.dRead a o := by
  rw [State.writeRow, State.dRead_setBuf s a _ o h, Memory.read_writeRow]; rfl

theorem State.dRead_writeRow_inside (s : State) (a : Octet) (b : Nat) (vs : List Octet) (c : Nat)
    (h : a.toNat < s.dense.length) (hc : c < vs.length) : (s.writeRow a b vs).dRead a (b + c) = vs[c] := by
  rw [State.writeRow, State.dRead_setBuf s a _ _ h, Memory.read_writeRow_inside _ _ _ _ hc]

theorem State.dRead_writeRow_outside (s : State) (a : Octet) (b : Nat) (vs : List Octet) (o : Nat)
    (h : a.toNat < s.dense.length) (ho : ¬ (b ≤ o ∧ o < b + vs.length)) :
    (s.writeRow a b vs).dRead a o = s.dRead a o := by
  rw [State.writeRow, State.dRead_setBuf s a _ _ h, Memory.read_writeRow_outside _ _ _ _ ho]; rfl

@[simp] theorem State.length_readRow (s : State) (a : Octet) (o n : Nat) : (s.readRow a o n).length = n := by
  simp [State.readRow]

@[simp] theorem State.getElem_readRow (s : State) (a : Octet) (o n i : Nat) (h : i < (s.readRow a o n).length) :
    (s.readRow a o n)[i] = s.dRead a (o + i) := by
  simp [State.readRow, State.dRead]

/-- An update of one buffer of a well-formed state keeps the invariant of its slot. -/
theorem DenseSlot.wf_withBuf {p : Params} {d : DenseSlot} (h : d.Wf p) {m : Memory 8} (hm : Memory.wf m)
    (hb : Memory.Below m d.len) : DenseSlot.Wf p { d with buf := m } := by
  refine ⟨h.1, h.2.1, h.2.2.1, hm, ?_⟩
  have := h.len_eq
  simpa [this] using hb

/-! ### Keeping the invariant of the block -/

theorem State.Wf.setSlot {s : State} (h : s.Wf) (a : Octet) {d : DenseSlot} (hd : d.Wf s.params) :
    (s.setSlot a d).Wf := by
  obtain ⟨h1, ⟨h2, h3⟩, h4⟩ := h
  refine ⟨h1, ⟨by simpa using h2, fun x hx => ?_⟩, h4⟩
  rcases List.mem_or_eq_of_mem_set hx with hx | hx
  · exact h3 x hx
  · exact hx ▸ hd

theorem State.Wf.setRow {s : State} (h : s.Wf) (r : Index) {t : SparseRow} (ht : t.Wf s.params) :
    (s.setRow r t).Wf := by
  obtain ⟨h1, h2, ⟨h3, h4⟩, h5⟩ := h
  refine ⟨h1, h2, ⟨by simpa using h3, fun x hx => ?_⟩, h5⟩
  rcases List.mem_or_eq_of_mem_set hx with hx | hx
  · exact h4 x hx
  · exact hx ▸ ht

theorem State.Wf.setBuf {s : State} (h : s.Wf) {a : Octet} (ha : s.HasSlot a) {m : Memory 8} (hm : Memory.wf m)
    (hb : Memory.Below m (s.len a)) : (s.setBuf a m).Wf :=
  h.setSlot a (DenseSlot.wf_withBuf (h.slot_wf ha) hm hb)

theorem State.Wf.setResult {s : State} (h : s.Wf) (v : Word) : (s.setResult v).Wf := h

/-- Writing a row that passed the range check keeps the invariant. -/
theorem State.Wf.writeRow {s : State} (h : s.Wf) {a : Octet} (ha : s.HasSlot a) {b : Nat} {vs : List Octet}
    (hf : s.Fits a b vs.length) : (s.writeRow a b vs).Wf := by
  refine h.setBuf ha (Memory.wf_writeRow (h.buf_wf ha) b vs) (Memory.below_writeRow (h.buf_below ha) ?_)
  rcases hf with hf | hf
  · exact .inl (List.length_eq_zero_iff.mp hf)
  · exact .inr hf

theorem emptyRow_wf (p : Params) : emptyRow.Wf p := by
  refine ⟨by simp [emptyRow], by simp [emptyRow], by simp [emptyRow], ⟨Memory.wf_nil, ?_⟩, Memory.wf_nil, ?_⟩ <;>
    simp [emptyRow, Memory.Below]

theorem emptyDense_wf (p : Params) : emptyDense.Wf p := by
  refine ⟨by simp [emptyDense, Params.stride_zero], by simp [emptyDense], by simp [emptyDense], Memory.wf_nil, ?_⟩
  simp [emptyDense, Memory.Below]

end Sys2Proof.Machine
end

