-- ==== Sys2Proof/Laws/Dense.lean ====
section
/-! SUPPORT. What the loops of SWAP_COL and GEMM leave at each offset (42_dense_elementary.md R135, R142), and that
they keep the form of the memory. -/

namespace Sys2Proof.Machine

/-! ### The loop of SWAP_COL -/

theorem swapColumns_succ (m : Memory 8) (st i j k : Nat) :
    swapColumns m st i j (k + 1) = Memory.swap (swapColumns m st i j k) (k * st + i) (k * st + j) := by
  simp [swapColumns, List.range_succ]

/-- Two places of rows of one stride are the same only in the same row and column. -/
theorem place_ne {st a b x y : Nat} (hx : x < st) (hy : y < st) (h : a ≠ b) : a * st + x ≠ b * st + y := by
  intro he
  rcases Nat.lt_or_gt_of_ne h with hl | hl
  · have := Nat.mul_le_mul_right st (show a + 1 ≤ b from hl)
    rw [Nat.add_mul] at this; omega
  · have := Nat.mul_le_mul_right st (show b + 1 ≤ a from hl)
    rw [Nat.add_mul] at this; omega

theorem read_swapColumns_other (m : Memory 8) (st i j k o : Nat)
    (h : ∀ r, r < k → o ≠ r * st + i ∧ o ≠ r * st + j) :
    Memory.read (swapColumns m st i j k) o = Memory.read m o := by
  induction k with
  | zero => rfl
  | succ k ih =>
    rw [swapColumns_succ, Memory.read_swap, if_neg (h k (by omega)).2, if_neg (h k (by omega)).1]
    exact ih fun r hr => h r (by omega)

theorem read_swapColumns_row {m : Memory 8} {st i j k r : Nat} (hi : i < st) (hj : j < st) (hr : r < k) :
    Memory.read (swapColumns m st i j k) (r * st + i) = Memory.read m (r * st + j) ∧
    Memory.read (swapColumns m st i j k) (r * st + j) = Memory.read m (r * st + i) := by
  induction k with
  | zero => omega
  | succ k ih =>
    rw [swapColumns_succ, Memory.read_swap, Memory.read_swap]
    rcases Nat.lt_succ_iff_lt_or_eq.mp hr with hl | rfl
    · have hne : r ≠ k := by omega
      rw [if_neg (place_ne hi hj hne), if_neg (place_ne hi hi hne), if_neg (place_ne hj hj hne),
        if_neg (place_ne hj hi hne)]
      exact ih hl
    · have hother : ∀ x, x < st → Memory.read (swapColumns m st i j r) (r * st + x) = Memory.read m (r * st + x) := by
        intro x hx
        refine read_swapColumns_other m st i j r _ fun q hq => ?_
        exact ⟨place_ne hx hi (by omega), place_ne hx hj (by omega)⟩
      rw [hother i hi, hother j hj]
      refine ⟨?_, by simp⟩
      by_cases hij : i = j
      · subst hij; simp
      · rw [if_neg (by omega), if_pos rfl]

theorem wf_swapColumns {m : Memory 8} (h : Memory.wf m) (st i j k : Nat) : Memory.wf (swapColumns m st i j k) := by
  induction k with
  | zero => exact h
  | succ k ih => rw [swapColumns_succ]; exact Memory.wf_swap ih _ _

theorem below_swapColumns {m : Memory 8} {n st i j k : Nat} (h : Memory.Below m n)
    (hk : ∀ r, r < k → r * st + i < n ∧ r * st + j < n) : Memory.Below (swapColumns m st i j k) n := by
  induction k with
  | zero => exact h
  | succ k ih =>
    rw [swapColumns_succ]
    exact Memory.below_swap (ih fun r hr => hk r (by omega)) (hk k (by omega)).1 (hk k (by omega)).2

/-! ### The loops of GEMM -/

@[simp] theorem length_accumulate (tb : Tables) (u : Octet) (d s : List Octet) :
    (tb.accumulate u d s).length = min d.length s.length := by simp [Tables.accumulate]

/-- One term inside the row: an element 0 adds nothing. -/
theorem read_gemmTerm_inside (tb : Tables) (bufB : Memory 8) (m sm bc : Nat) (uu : Octet) (t : Nat) (bufC : Memory 8)
    {q : Nat} (hq : q < m) : Memory.read (gemmTerm tb bufB m sm bc uu t bufC) (bc + q) =
      Memory.read bufC (bc + q) ^^^ gemmProduct tb uu (Memory.read bufB (t * sm + q)) := by
  unfold gemmTerm gemmProduct
  by_cases hu : uu = 0
  · simp [hu]
  · rw [if_neg hu, if_neg hu, Memory.read_writeRow_inside _ _ _ q (by simpa using hq)]
    simp [Tables.accumulate, Tables.axpyTerm]

theorem read_gemmTerm_outside (tb : Tables) (bufB : Memory 8) (m sm bc : Nat) (uu : Octet) (t : Nat) (bufC : Memory 8)
    {o : Nat} (ho : ¬ (bc ≤ o ∧ o < bc + m)) :
    Memory.read (gemmTerm tb bufB m sm bc uu t bufC) o = Memory.read bufC o := by
  unfold gemmTerm
  by_cases hu : uu = 0
  · simp [hu]
  · rw [if_neg hu, Memory.read_writeRow_outside _ _ _ _ (by simpa using ho)]

/-- One output row of GEMM: the sum of its terms inside, nothing outside. -/
theorem read_gemmRow_inside (tb : Tables) (bufA bufB : Memory 8) (k m sk sm r : Nat) (bufC : Memory 8) {q : Nat}
    (hq : q < m) : Memory.read (gemmRow tb bufA bufB k m sk sm r bufC) (r * sm + q) =
      (List.range k).foldl (fun acc x => acc ^^^
        gemmProduct tb (Memory.read bufA (r * sk + x)) (Memory.read bufB (x * sm + q))) 0 := by
  unfold gemmRow
  induction k with
  | zero => rw [List.range_zero, List.foldl_nil, List.foldl_nil, Memory.read_clear, if_pos (by omega)]
  | succ k ih =>
    rw [List.range_succ, List.foldl_append, List.foldl_append, List.foldl_cons, List.foldl_nil, List.foldl_cons,
      List.foldl_nil, read_gemmTerm_inside _ _ _ _ _ _ _ _ hq, ih]

theorem read_gemmRow_outside (tb : Tables) (bufA bufB : Memory 8) (k m sk sm r : Nat) (bufC : Memory 8) {o : Nat}
    (ho : ¬ (r * sm ≤ o ∧ o < r * sm + m)) :
    Memory.read (gemmRow tb bufA bufB k m sk sm r bufC) o = Memory.read bufC o := by
  unfold gemmRow
  induction k with
  | zero => rw [List.range_zero, List.foldl_nil, Memory.read_clear, if_neg ho]
  | succ k ih =>
    rw [List.range_succ, List.foldl_append, List.foldl_cons, List.foldl_nil, read_gemmTerm_outside _ _ _ _ _ _ _ _ ho,
      ih]

theorem gemmRows_succ (tb : Tables) (bufA bufB : Memory 8) (n k m sk sm : Nat) (bufC : Memory 8) :
    gemmRows tb bufA bufB (n + 1) k m sk sm bufC =
      gemmRow tb bufA bufB k m sk sm n (gemmRows tb bufA bufB n k m sk sm bufC) := by
  simp [gemmRows, List.range_succ]

theorem read_gemmRows_inside (tb : Tables) (bufA bufB : Memory 8) {n k m sk sm r q : Nat} (bufC : Memory 8)
    (hm : m ≤ sm) (hr : r < n) (hq : q < m) :
    Memory.read (gemmRows tb bufA bufB n k m sk sm bufC) (r * sm + q) =
      (List.range k).foldl (fun acc x => acc ^^^
        gemmProduct tb (Memory.read bufA (r * sk + x)) (Memory.read bufB (x * sm + q))) 0 := by
  induction n with
  | zero => omega
  | succ n ih =>
    rw [gemmRows_succ]
    rcases Nat.lt_succ_iff_lt_or_eq.mp hr with hl | rfl
    · rw [read_gemmRow_outside, ih hl]
      intro ⟨h1, h2⟩
      have := place_ne (st := sm) (a := r) (b := n) (x := q) (y := r * sm + q - n * sm) (by omega) (by omega) (by omega)
      omega
    · exact read_gemmRow_inside _ _ _ _ _ _ _ _ _ hq

theorem read_gemmRows_outside (tb : Tables) (bufA bufB : Memory 8) {n k m sk sm o : Nat} (bufC : Memory 8)
    (ho : ∀ r q, r < n → q < m → o ≠ r * sm + q) :
    Memory.read (gemmRows tb bufA bufB n k m sk sm bufC) o = Memory.read bufC o := by
  induction n with
  | zero => rfl
  | succ n ih =>
    rw [gemmRows_succ, read_gemmRow_outside, ih fun r q hr hq => ho r q (by omega) hq]
    intro ⟨h1, h2⟩
    exact ho n (o - n * sm) (by omega) (by omega) (by omega)

theorem wf_gemmTerm (tb : Tables) (bufB : Memory 8) (m sm bc : Nat) (uu : Octet) (t : Nat) {bufC : Memory 8}
    (h : Memory.wf bufC) : Memory.wf (gemmTerm tb bufB m sm bc uu t bufC) := by
  unfold gemmTerm; split
  · exact h
  · exact Memory.wf_writeRow h _ _

theorem below_gemmTerm (tb : Tables) (bufB : Memory 8) {m bc n : Nat} (sm : Nat) (uu : Octet) (t : Nat) {bufC : Memory 8}
    (h : Memory.Below bufC n) (hb : m = 0 ∨ bc + m ≤ n) : Memory.Below (gemmTerm tb bufB m sm bc uu t bufC) n := by
  unfold gemmTerm; split
  · exact h
  · refine Memory.below_writeRow h ?_
    rcases hb with hb | hb
    · left; apply List.length_eq_zero_iff.mp; simp [hb]
    · right; simpa using hb

theorem wf_gemmRow (tb : Tables) (bufA bufB : Memory 8) (k m sk sm r : Nat) {bufC : Memory 8} (h : Memory.wf bufC) :
    Memory.wf (gemmRow tb bufA bufB k m sk sm r bufC) := by
  unfold gemmRow
  induction k with
  | zero => exact Memory.wf_clear h _ _
  | succ k ih =>
    rw [List.range_succ, List.foldl_append, List.foldl_cons, List.foldl_nil]
    exact wf_gemmTerm _ _ _ _ _ _ _ ih

theorem below_gemmRow (tb : Tables) (bufA bufB : Memory 8) {m sm r n : Nat} (k sk : Nat) {bufC : Memory 8}
    (h : Memory.Below bufC n) (hb : m = 0 ∨ r * sm + m ≤ n) :
    Memory.Below (gemmRow tb bufA bufB k m sk sm r bufC) n := by
  unfold gemmRow
  induction k with
  | zero => exact Memory.below_clear h _ _
  | succ k ih =>
    rw [List.range_succ, List.foldl_append, List.foldl_cons, List.foldl_nil]
    exact below_gemmTerm _ _ _ _ _ ih hb

theorem wf_gemmRows (tb : Tables) (bufA bufB : Memory 8) (n k m sk sm : Nat) {bufC : Memory 8} (h : Memory.wf bufC) :
    Memory.wf (gemmRows tb bufA bufB n k m sk sm bufC) := by
  induction n with
  | zero => exact h
  | succ n ih => rw [gemmRows_succ]; exact wf_gemmRow _ _ _ _ _ _ _ _ ih

theorem below_gemmRows (tb : Tables) (bufA bufB : Memory 8) {n m sm len : Nat} (k sk : Nat) {bufC : Memory 8}
    (h : Memory.Below bufC len) (hb : m = 0 ∨ (n - 1) * sm + m ≤ len) :
    Memory.Below (gemmRows tb bufA bufB n k m sk sm bufC) len := by
  induction n with
  | zero => exact h
  | succ n ih =>
    rw [gemmRows_succ]
    refine below_gemmRow _ _ _ _ _ (ih ?_) (by simpa using hb)
    rcases hb with hb | hb
    · exact .inl hb
    · have := Nat.mul_le_mul_right sm (show n - 1 ≤ n by omega)
      simp only [Nat.add_sub_cancel] at hb
      omega

end Sys2Proof.Machine
end

