-- ==== Sys2Proof/Laws/Effects.lean ====
section
/-! SUPPORT. What any command can do, said once: `exec_effect`. The statements about all commands cite it instead of
unfolding the meanings. -/

namespace Sys2Proof.Machine

/-- The commands that use SCR: 10_state.md R34. -/
def UsesScratch (i : Instr) : Prop := (∃ sa sb w, i = .crAdd sa sb w) ∨ ∃ sa sb u w, i = .crSadd sa sb u w

/-- The commands that write a dense descriptor: 10_state.md R42. -/
def WritesDescriptor (i : Instr) : Prop :=
  (∃ a rows cols, i = .omResize a rows cols) ∨ (∃ a b, i = .omCopy a b) ∨ ∃ a, i = .omDestroy a

/-- What the attempt of a command can be: one kind of change to one piece of the state, or a fault. -/
inductive Effect (i : Instr) (s : State) : Attempt → Prop
  | same : Effect i s (.done s)
  | result (v : Word) (h : producesResult i = true) : Effect i s (.done (s.setResult v))
  | buffer (a : Octet) (m : Memory 8) (h : denseTarget i = some a) : Effect i s (.done (s.setBuf a m))
  | slot (a : Octet) (d : DenseSlot) (h : denseTarget i = some a) (hd : WritesDescriptor i) :
      Effect i s (.done (s.setSlot a d))
  | row (r : Index) (t : SparseRow) (scr : Memory 8) (h : sparseTarget i = some r) (hs : scr = s.scr ∨ UsesScratch i) :
      Effect i s (.done (State.setRow { s with scr := scr } r t))
  | aggregate (rows : List SparseRow) (n : Extent) (c : Index) (h : isAggregate i = true) :
      Effect i s (.done { s with sparse := rows, cmRows := n, cmCols := c })
  | raise (c : Cause) (scr : Memory 8) (hs : scr = s.scr ∨ UsesScratch i) :
      Effect i s (.raise c { s with scr := scr })

theorem Effect.raise_same (i : Instr) (s : State) (c : Cause) : Effect i s (.raise c s) := .raise c s.scr (.inl rfl)

theorem Effect.row_same {i : Instr} (s : State) {r : Index} (t : SparseRow) (h : sparseTarget i = some r) :
    Effect i s (.done (s.setRow r t)) := .row r t s.scr h (.inl rfl)

theorem Effect.ite {i : Instr} {s : State} {p : Prop} [Decidable p] {x y : Attempt} (hx : Effect i s x)
    (hy : Effect i s y) : Effect i s (if p then x else y) := by split <;> assumption

theorem Effect.withSlots {i : Instr} {s : State} {ds : List Octet} {rs : List Index} {x : Attempt}
    (hx : Effect i s x) : Effect i s (withSlots s ds rs x) := Effect.ite hx (.raise_same i s _)

theorem Effect.putRow {i : Instr} {s : State} {r : Index} (o : Option SparseRow) (scr : Memory 8)
    (h : sparseTarget i = some r) (hs : scr = s.scr ∨ UsesScratch i) :
    Effect i s (State.putRow { s with scr := scr } r o) := by
  cases o with
  | none => exact .raise _ scr hs
  | some t => exact .row r t scr h hs

theorem Effect.putRow_same {i : Instr} {s : State} {r : Index} (o : Option SparseRow) (h : sparseTarget i = some r) :
    Effect i s (s.putRow r o) := Effect.putRow o s.scr h (.inl rfl)

theorem Effect.addThroughScratch {i : Instr} {s : State} (f : Octet → Octet) (sa sb w : Index)
    (h : sparseTarget i = some sa) (hs : UsesScratch i) : Effect i s (addThroughScratch f sa sb w s) :=
  .ite (.raise_same i s _) (.ite (.raise_same i s _) (.ite (.raise_same i s _) (.putRow _ _ h (.inr hs))))

/-- Every command is the conclusion of an attempt with one of these effects. -/
theorem exec_effect (i : Instr) (s : State) : ∃ x, exec i s = conclude (encode i) x ∧ Effect i s x := by
  cases i with
  | fmul u x => exact ⟨.done _, rfl, .result _ rfl⟩
  | omResize a rows cols =>
    exact ⟨_, rfl, .withSlots (.ite (.raise_same _ s _) (.slot a _ rfl (.inl ⟨_, _, _, rfl⟩)))⟩
  | omCopy dst src =>
    exact ⟨_, rfl, .withSlots (.ite (.raise_same _ s _) (.slot dst _ rfl (.inr (.inl ⟨_, _, rfl⟩))))⟩
  | omDestroy a => exact ⟨_, rfl, .withSlots (.slot a _ rfl (.inr (.inr ⟨_, rfl⟩)))⟩
  | omLdb a off => exact ⟨_, rfl, .withSlots (.ite (.raise_same _ s _) (.result _ rfl))⟩
  | omStb a off value => exact ⟨_, rfl, .withSlots (.ite (.raise_same _ s _) (.buffer a _ rfl))⟩
  | omGet a r c => exact ⟨_, rfl, .withSlots (.ite (.raise_same _ s _) (.result _ rfl))⟩
  | omPut a r c value => exact ⟨_, rfl, .withSlots (.ite (.raise_same _ s _) (.buffer a _ rfl))⟩
  | copyRow dst src i j k =>
    exact ⟨_, rfl, .withSlots (.ite (.raise_same _ s _) (.ite (.raise_same _ s _) (.buffer dst _ rfl)))⟩
  | swapRow a i j k =>
    refine ⟨_, rfl, .withSlots (.ite .same (.ite (.raise_same _ s _) (.ite (.raise_same _ s _) ?_)))⟩
    rw [State.writeRow_eq_setBuf, State.writeRow_eq_setBuf, State.setBuf_setBuf]
    exact .buffer a _ rfl
  | swapCol a i j k w =>
    exact ⟨_, rfl, .withSlots (.ite .same (.ite .same (.ite (.raise_same _ s _) (.ite (.raise_same _ s _)
      (.buffer a _ rfl)))))⟩
  | axpy dst src i j k u =>
    exact ⟨_, rfl, .withSlots (.ite .same (.ite (.raise_same _ s _) (.ite (.raise_same _ s _) (.buffer dst _ rfl))))⟩
  | addRow dst src i j k =>
    exact ⟨_, rfl, .withSlots (.ite (.raise_same _ s _) (.ite (.raise_same _ s _) (.buffer dst _ rfl)))⟩
  | scaleRow a i k u => exact ⟨_, rfl, .withSlots (.ite .same (.ite (.raise_same _ s _) (.buffer a _ rfl)))⟩
  | zeroRow a i k => exact ⟨_, rfl, .withSlots (.ite (.raise_same _ s _) (.buffer a _ rfl))⟩
  | gemm a b c n k m =>
    exact ⟨_, rfl, .withSlots (.ite .same (.ite (.raise_same _ s _) (.ite (.raise_same _ s _)
      (.ite (.raise_same _ s _) (.ite (.raise_same _ s _) (.buffer c _ rfl))))))⟩
  | crResize r newNz => exact ⟨_, rfl, .withSlots (.putRow_same _ rfl)⟩
  | crCopy sd ss => exact ⟨_, rfl, .withSlots (.putRow_same _ rfl)⟩
  | crDestroy r => exact ⟨_, rfl, .withSlots (.row_same s _ rfl)⟩
  | crFind r lo hi x =>
    exact ⟨_, rfl, .withSlots (.ite (.result _ rfl) (.ite (.raise_same _ s _) (.result _ rfl)))⟩
  | crScan r lo hi x =>
    exact ⟨_, rfl, .withSlots (.ite (.result _ rfl) (.ite (.raise_same _ s _) (.result _ rfl)))⟩
  | crGetnz r => exact ⟨_, rfl, .withSlots (.result _ rfl)⟩
  | crGetcap r => exact ⟨_, rfl, .withSlots (.result _ rfl)⟩
  | crGetidx r p => exact ⟨_, rfl, .withSlots (.ite (.raise_same _ s _) (.result _ rfl))⟩
  | crGetval r p => exact ⟨_, rfl, .withSlots (.ite (.raise_same _ s _) (.result _ rfl))⟩
  | crUnpack r a i k =>
    exact ⟨_, rfl, .withSlots (.ite .same (.ite (.raise_same _ s _) (.ite (.raise_same _ s _) (.buffer a _ rfl))))⟩
  | crPack r a i k => exact ⟨_, rfl, .withSlots (.ite (.raise_same _ s _) (.putRow_same _ rfl))⟩
  | crAdd sa sb w => exact ⟨_, rfl, .withSlots (.addThroughScratch _ _ _ _ rfl (.inl ⟨_, _, _, rfl⟩))⟩
  | crSadd sa sb u w =>
    exact ⟨_, rfl, .withSlots (.ite .same (.addThroughScratch _ _ _ _ rfl (.inr ⟨_, _, _, _, rfl⟩)))⟩
  | crSwapcol r i j =>
    refine ⟨_, rfl, .withSlots ?_⟩
    simp only
    split
    · exact .same
    · exact .row_same s _ rfl
    · exact .putRow_same _ rfl
    · exact .putRow_same _ rfl
  | cmResize rows cols => exact ⟨_, rfl, .ite (.raise_same _ s _) (.aggregate _ _ _ rfl)⟩
  | cmDestroy => exact ⟨.done _, rfl, .aggregate _ _ _ rfl⟩

/-- What exec answers, effect by effect. -/
theorem exec_next {i : Instr} {s t : State} (h : exec i s = .next t) :
    ∃ x, Effect i s x ∧ conclude (encode i) x = .next t := by
  obtain ⟨x, hx, he⟩ := exec_effect i s
  exact ⟨x, he, hx ▸ h⟩

end Sys2Proof.Machine
end

