-- ==== Sys2Proof/Laws/Field.lean ====
section
/-! SUPPORT. The default tables hold the products of a field: TBL-FIELD for T_11D (40_field_multiply.md R102, R104).
The product is additive in both operands, so its laws are checked on the eight powers of two. -/

namespace Sys2Proof.Machine

/-- Doubling modulo 0x11D: one turn of the loop of R104. -/
def double11D (a : Octet) : Octet := (a <<< 1) ^^^ (if a.msb then 0x1D else 0)

/-- The loop of R104 on octets, `n` turns. -/
def mulTurns : Nat → Octet → Octet → Octet
  | 0, _, _ => 0
  | n + 1, a, b => (if b.getLsbD 0 then a else 0) ^^^ mulTurns n (double11D a) (b >>> 1)

theorem double11D_toNat (a : Octet) :
    (if a.toNat * 2 ≥ 0x100 then (a.toNat * 2) ^^^ 0x11D else a.toNat * 2) = (double11D a).toNat := by
  have h : ∀ f : Fin 256, (if f.val * 2 ≥ 0x100 then (f.val * 2) ^^^ 0x11D else f.val * 2) =
      (double11D (BitVec.ofFin f)).toNat := by decide +kernel
  exact h a.toFin

theorem polyMulLoop_eq (n : Nat) (r a b : Octet) :
    BitVec.ofNat 8 (polyMulLoop n r.toNat a.toNat b.toNat) = r ^^^ mulTurns n a b := by
  induction n generalizing r a b with
  | zero => simp [polyMulLoop, mulTurns]
  | succ n ih =>
    have hb : b.toNat / 2 = (b >>> 1).toNat := by simp [Nat.shiftRight_eq_div_pow]
    have hl : b.getLsbD 0 = decide (b.toNat % 2 = 1) := by
      simp [BitVec.getLsbD, Nat.testBit_zero]
    simp only [polyMulLoop, mulTurns]
    rw [double11D_toNat, hb, hl]
    by_cases h : b.toNat % 2 = 1
    · rw [if_pos h, ← BitVec.toNat_xor, ih]
      simp [h, BitVec.xor_assoc]
    · rw [if_neg h, ih]
      simp [h]

theorem polyMul11D_eq (a b : Octet) : polyMul11D a b = mulTurns 8 a b := by
  have := polyMulLoop_eq 8 0 a b
  simpa [polyMul11D] using this

theorem double11D_xor (a b : Octet) : double11D (a ^^^ b) = double11D a ^^^ double11D b := by
  simp only [double11D, BitVec.shiftLeft_xor_distrib, BitVec.msb_xor]
  cases a.msb <;> cases b.msb <;> simp
  all_goals
    apply BitVec.eq_of_getLsbD_eq
    intro i hi
    simp only [BitVec.getLsbD_xor]
    grind

theorem mulTurns_xor_left (n : Nat) (a c b : Octet) :
    mulTurns n (a ^^^ c) b = mulTurns n a b ^^^ mulTurns n c b := by
  induction n generalizing a c b with
  | zero => simp [mulTurns]
  | succ n ih =>
    simp only [mulTurns, double11D_xor, ih]
    cases b.getLsbD 0
    · simp
    · simp only [if_true]; ac_rfl

theorem mulTurns_xor_right (n : Nat) (a b c : Octet) :
    mulTurns n a (b ^^^ c) = mulTurns n a b ^^^ mulTurns n a c := by
  induction n generalizing a b c with
  | zero => simp [mulTurns]
  | succ n ih =>
    simp only [mulTurns, BitVec.ushiftRight_xor_distrib, ih, BitVec.getLsbD_xor]
    cases b.getLsbD 0 <;> cases c.getLsbD 0 <;> simp
    · ac_rfl
    · ac_rfl
    · rw [show a ^^^ mulTurns n (double11D a) (b >>> 1) ^^^ (a ^^^ mulTurns n (double11D a) (c >>> 1)) =
        (a ^^^ a) ^^^ (mulTurns n (double11D a) (b >>> 1) ^^^ mulTurns n (double11D a) (c >>> 1)) by ac_rfl]
      simp

/-- The bit of an octet as an octet. -/
def bitOf (x : Octet) (i : Nat) : Octet := if x.getLsbD i then 1#8 <<< i else 0

theorem octet_bits (x : Octet) : x = bitOf x 0 ^^^ (bitOf x 1 ^^^ (bitOf x 2 ^^^ (bitOf x 3 ^^^
    (bitOf x 4 ^^^ (bitOf x 5 ^^^ (bitOf x 6 ^^^ bitOf x 7)))))) := by
  have h : ∀ f : Fin 256, BitVec.ofFin f = bitOf (BitVec.ofFin f) 0 ^^^ (bitOf (BitVec.ofFin f) 1 ^^^
      (bitOf (BitVec.ofFin f) 2 ^^^ (bitOf (BitVec.ofFin f) 3 ^^^ (bitOf (BitVec.ofFin f) 4 ^^^
      (bitOf (BitVec.ofFin f) 5 ^^^ (bitOf (BitVec.ofFin f) 6 ^^^ bitOf (BitVec.ofFin (w := 8) f) 7)))))) := by
    decide +kernel
  exact h x.toFin

/-- Two additive maps that agree on the powers of two are equal. -/
theorem additive_eq {f g : Octet → Octet} (hf : ∀ x y, f (x ^^^ y) = f x ^^^ f y)
    (hg : ∀ x y, g (x ^^^ y) = g x ^^^ g y) (h : ∀ i : Fin 8, f (1#8 <<< i.val) = g (1#8 <<< i.val)) (x : Octet) :
    f x = g x := by
  have h0 : f 0 = g 0 := by
    have hf0 := hf 0 0
    have hg0 := hg 0 0
    simp only [BitVec.xor_self] at hf0 hg0
    exact hf0.trans hg0.symm
  have hb : ∀ i, i < 8 → f (bitOf x i) = g (bitOf x i) := by
    intro i hi
    unfold bitOf
    split
    · exact h ⟨i, hi⟩
    · exact h0
  rw [octet_bits x]
  simp only [hf, hg]
  rw [hb 0 (by omega), hb 1 (by omega), hb 2 (by omega), hb 3 (by omega), hb 4 (by omega), hb 5 (by omega),
    hb 6 (by omega), hb 7 (by omega)]

theorem polyMul11D_xor_left (a c b : Octet) : polyMul11D (a ^^^ c) b = polyMul11D a b ^^^ polyMul11D c b := by
  simp only [polyMul11D_eq, mulTurns_xor_left]

theorem polyMul11D_xor_right (a b c : Octet) : polyMul11D a (b ^^^ c) = polyMul11D a b ^^^ polyMul11D a c := by
  simp only [polyMul11D_eq, mulTurns_xor_right]

theorem polyMul11D_comm (x y : Octet) : polyMul11D x y = polyMul11D y x := by
  have hbb : ∀ i j : Fin 8, polyMul11D (1#8 <<< i.val) (1#8 <<< j.val) = polyMul11D (1#8 <<< j.val) (1#8 <<< i.val) := by
    decide +kernel
  have hb : ∀ (j : Fin 8) (x : Octet), polyMul11D x (1#8 <<< j.val) = polyMul11D (1#8 <<< j.val) x := fun j x =>
    additive_eq (f := fun x => polyMul11D x (1#8 <<< j.val)) (g := fun x => polyMul11D (1#8 <<< j.val) x)
      (fun a c => polyMul11D_xor_left a c _) (fun a c => polyMul11D_xor_right _ a c) (fun i => hbb i j) x
  exact additive_eq (f := fun y => polyMul11D x y) (g := fun y => polyMul11D y x)
    (fun a c => polyMul11D_xor_right x a c) (fun a c => polyMul11D_xor_left a c x) (fun j => hb j x) y

theorem polyMul11D_assoc (x y z : Octet) : polyMul11D (polyMul11D x y) z = polyMul11D x (polyMul11D y z) := by
  have hbbb : ∀ i j k : Fin 8, polyMul11D (polyMul11D (1#8 <<< i.val) (1#8 <<< j.val)) (1#8 <<< k.val) =
      polyMul11D (1#8 <<< i.val) (polyMul11D (1#8 <<< j.val) (1#8 <<< k.val)) := by decide +kernel
  have hbb : ∀ (j k : Fin 8) (x : Octet), polyMul11D (polyMul11D x (1#8 <<< j.val)) (1#8 <<< k.val) =
      polyMul11D x (polyMul11D (1#8 <<< j.val) (1#8 <<< k.val)) := fun j k x =>
    additive_eq (f := fun x => polyMul11D (polyMul11D x (1#8 <<< j.val)) (1#8 <<< k.val))
      (g := fun x => polyMul11D x (polyMul11D (1#8 <<< j.val) (1#8 <<< k.val)))
      (fun a c => by simp only [polyMul11D_xor_left]) (fun a c => polyMul11D_xor_left a c _) (fun i => hbbb i j k) x
  have hb : ∀ (k : Fin 8) (y : Octet), polyMul11D (polyMul11D x y) (1#8 <<< k.val) =
      polyMul11D x (polyMul11D y (1#8 <<< k.val)) := fun k y =>
    additive_eq (f := fun y => polyMul11D (polyMul11D x y) (1#8 <<< k.val))
      (g := fun y => polyMul11D x (polyMul11D y (1#8 <<< k.val)))
      (fun a c => by simp only [polyMul11D_xor_left, polyMul11D_xor_right])
      (fun a c => by simp only [polyMul11D_xor_left, polyMul11D_xor_right]) (fun j => hbb j k x) y
  exact additive_eq (f := fun z => polyMul11D (polyMul11D x y) z) (g := fun z => polyMul11D x (polyMul11D y z))
    (fun a c => polyMul11D_xor_right _ a c) (fun a c => by simp only [polyMul11D_xor_right]) (fun k => hb k y) z

/-- The 254th power, which is the inverse of an octet that is not 0. -/
def inverse11D (x : Octet) : Octet :=
  let sq := fun y => polyMul11D y y
  let x2 := sq x
  let x4 := sq x2
  let x8 := sq x4
  let x16 := sq x8
  let x32 := sq x16
  let x64 := sq x32
  polyMul11D x2 (polyMul11D x4 (polyMul11D x8 (polyMul11D x16 (polyMul11D x32 (polyMul11D x64 (sq x64))))))

theorem polyMul11D_inverse (x : Octet) (h : x ≠ 0) : polyMul11D x (inverse11D x) = 1 := by
  have hd : ∀ f : Fin 256, BitVec.ofFin (w := 8) f ≠ 0 →
      polyMul11D (BitVec.ofFin f) (inverse11D (BitVec.ofFin f)) = 1 := by decide +kernel
  exact hd x.toFin h

theorem polyMul11D_field : FieldMul polyMul11D where
  assoc := polyMul11D_assoc
  comm := polyMul11D_comm
  distrib := polyMul11D_xor_right
  one x := by
    have h : ∀ f : Fin 256, polyMul11D 1 (BitVec.ofFin f) = BitVec.ofFin f := by decide +kernel
    exact h x.toFin
  inverse x h := ⟨_, polyMul11D_inverse x h⟩

theorem tableOf_entry (entry : Nat → Nat → Octet) (u : Octet) (n : Nibble) :
    ((tableOf entry)[u.toNat]'u.isLt)[n.toNat]'n.isLt = entry u.toNat n.toNat := by
  simp [tableOf]

/-- TBL-FIELD holds of T_11D. -/
theorem tables11D_tblField : TblField tables11D polyMul11D := by
  refine ⟨polyMul11D_field, fun u n => ?_, fun u n => ?_⟩
  · rw [Tables.hiAt, tables11D, tableOf_entry]
    congr 1
    · simp
    · apply BitVec.eq_of_toNat_eq
      have h : ∀ f : Fin 16, (BitVec.ofNat 8 (f.val * 16)).toNat = (BitVec.ofFin (w := 4) f ++ 0#4).toNat := by decide
      exact h n.toFin
  · rw [Tables.loAt, tables11D, tableOf_entry]
    congr 1
    · simp
    · apply BitVec.eq_of_toNat_eq
      have := n.isLt
      simp

end Sys2Proof.Machine
end

