-- ==== Sys2Proof/Laws/PerInstr.lean ====
section
/-! SUPPORT. Statements made for each command: FieldsDecode, the fields of a command's word decode to the command
(30_encoding.md R82, R86). -/

namespace Sys2Proof.Laws

/-- The 32-bit operand of R83 is put together from its halves. -/
theorem joinHalves_extract (v : Word) : joinHalves (v.extractLsb' 16 16) (v.extractLsb' 0 16) = v :=
  BitVec.extractLsb'_append_extractLsb' (w := 16) (len := 16) (x := v)

/-- The operand of FMUL is in the low half of `a0`, and the high half is zero: R82. -/
theorem fmul_operand (x : Octet) : (x.setWidth 16).extractLsb' 0 8 = x ∧ (x.setWidth 16).extractLsb' 8 8 = 0 := by
  refine ⟨BitVec.eq_of_toNat_eq ?_, BitVec.eq_of_toNat_eq ?_⟩ <;>
    (have := x.isLt; simp [BitVec.extractLsb'_toNat, Nat.shiftRight_eq_div_pow]; omega)

/-- The fields of the command's word decode to the command. -/
def FieldsDecode.Statement (i : Instr) : Prop := i.fields.decode = .instr i

theorem FieldsDecode.fmul (u x : Octet) : FieldsDecode.Statement (.fmul u x) := by
  obtain ⟨hlo, hhi⟩ := fmul_operand x
  simp [FieldsDecode.Statement, Instr.fields, Fields.ofOp, Fields.decode, Decoded.ifUnusedZero, hlo, hhi]

theorem FieldsDecode.omResize (a : Octet) (rows cols : Index) : FieldsDecode.Statement (.omResize a rows cols) := rfl

theorem FieldsDecode.omCopy (dst src : Octet) : FieldsDecode.Statement (.omCopy dst src) := rfl

theorem FieldsDecode.omDestroy (a : Octet) : FieldsDecode.Statement (.omDestroy a) := rfl

theorem FieldsDecode.omLdb (a : Octet) (off : Word) : FieldsDecode.Statement (.omLdb a off) := by
  simp [FieldsDecode.Statement, Instr.fields, Fields.ofOp, Fields.decode, Decoded.ifUnusedZero, joinHalves_extract off]

theorem FieldsDecode.omStb (a : Octet) (off : Word) (value : Octet) : FieldsDecode.Statement (.omStb a off value) := by
  simp [FieldsDecode.Statement, Instr.fields, Fields.ofOp, Fields.decode, Decoded.ifUnusedZero, joinHalves_extract off]

theorem FieldsDecode.omGet (a : Octet) (r c : Index) : FieldsDecode.Statement (.omGet a r c) := rfl

theorem FieldsDecode.omPut (a : Octet) (r c : Index) (value : Octet) : FieldsDecode.Statement (.omPut a r c value) := rfl

theorem FieldsDecode.copyRow (dst src : Octet) (i j k : Index) : FieldsDecode.Statement (.copyRow dst src i j k) := rfl

theorem FieldsDecode.swapRow (a : Octet) (i j k : Index) : FieldsDecode.Statement (.swapRow a i j k) := rfl

theorem FieldsDecode.swapCol (a : Octet) (i j k w : Index) : FieldsDecode.Statement (.swapCol a i j k w) := rfl

theorem FieldsDecode.axpy (dst src : Octet) (i j k : Index) (u : Octet) : FieldsDecode.Statement (.axpy dst src i j k u) := rfl

theorem FieldsDecode.addRow (dst src : Octet) (i j k : Index) : FieldsDecode.Statement (.addRow dst src i j k) := rfl

theorem FieldsDecode.scaleRow (a : Octet) (i k : Index) (u : Octet) : FieldsDecode.Statement (.scaleRow a i k u) := rfl

theorem FieldsDecode.zeroRow (a : Octet) (i : Index) (k : Word) : FieldsDecode.Statement (.zeroRow a i k) := by
  simp [FieldsDecode.Statement, Instr.fields, Fields.ofOp, Fields.decode, Decoded.ifUnusedZero, joinHalves_extract k]

theorem FieldsDecode.gemm (a b c : Octet) (n k m : Index) : FieldsDecode.Statement (.gemm a b c n k m) := rfl

theorem FieldsDecode.crResize (s newNz : Index) : FieldsDecode.Statement (.crResize s newNz) := rfl

theorem FieldsDecode.crCopy (sd ss : Index) : FieldsDecode.Statement (.crCopy sd ss) := rfl

theorem FieldsDecode.crDestroy (s : Index) : FieldsDecode.Statement (.crDestroy s) := rfl

theorem FieldsDecode.crFind (s l r x : Index) : FieldsDecode.Statement (.crFind s l r x) := rfl

theorem FieldsDecode.crScan (s l r x : Index) : FieldsDecode.Statement (.crScan s l r x) := rfl

theorem FieldsDecode.crGetnz (s : Index) : FieldsDecode.Statement (.crGetnz s) := rfl

theorem FieldsDecode.crGetcap (s : Index) : FieldsDecode.Statement (.crGetcap s) := rfl

theorem FieldsDecode.crGetidx (s p : Index) : FieldsDecode.Statement (.crGetidx s p) := rfl

theorem FieldsDecode.crGetval (s p : Index) : FieldsDecode.Statement (.crGetval s p) := rfl

theorem FieldsDecode.crUnpack (s : Index) (a : Octet) (i k : Index) : FieldsDecode.Statement (.crUnpack s a i k) := rfl

theorem FieldsDecode.crPack (s : Index) (a : Octet) (i k : Index) : FieldsDecode.Statement (.crPack s a i k) := rfl

theorem FieldsDecode.crAdd (sa sb w : Index) : FieldsDecode.Statement (.crAdd sa sb w) := rfl

theorem FieldsDecode.crSadd (sa sb : Index) (u : Octet) (w : Index) : FieldsDecode.Statement (.crSadd sa sb u w) := rfl

theorem FieldsDecode.crSwapcol (s i j : Index) : FieldsDecode.Statement (.crSwapcol s i j) := rfl

theorem FieldsDecode.cmResize (rows cols : Index) : FieldsDecode.Statement (.cmResize rows cols) := rfl

theorem FieldsDecode.cmDestroy : FieldsDecode.Statement (.cmDestroy) := rfl

end Sys2Proof.Laws
end

