-- ==== Sys2Proof/Laws/Sparse.lean ====
section
/-! SUPPORT. What the shared procedures over a sparse row do: its entries and its dense view (10_state.md R31),
`row_resize` (R150), `row_pack` (R171), the stores and sums of entries (R170, R174). -/

namespace Sys2Proof.Machine

/-! ### Entries -/

@[simp] theorem SparseRow.length_entries (r : SparseRow) : r.entries.length = r.nz.toNat := by
  simp [SparseRow.entries]

@[simp] theorem SparseRow.getElem_entries (r : SparseRow) (p : Nat) (h : p < r.entries.length) :
    r.entries[p] = ((r.idxAt p).toNat, r.valAt p) := by simp [SparseRow.entries]

theorem SparseRow.mem_entries (r : SparseRow) (e : Nat × Octet) :
    e ∈ r.entries ↔ ∃ p, p < r.nz.toNat ∧ e = ((r.idxAt p).toNat, r.valAt p) := by
  simp only [SparseRow.entries, List.mem_map, List.mem_range]
  exact ⟨fun ⟨p, hp, he⟩ => ⟨p, hp, he.symm⟩, fun ⟨p, hp, he⟩ => ⟨p, hp, he.symm⟩⟩

/-! ### The dense view -/

theorem SparseRow.denseAt_none {r : SparseRow} {c : Nat} (h : ∀ p, p < r.nz.toNat → (r.idxAt p).toNat ≠ c) :
    r.denseAt c = 0 := by
  unfold SparseRow.denseAt
  rw [List.find?_eq_none.mpr]
  intro p hp
  simpa using h p (by simpa using hp)

/-- The last stored entry of a column gives the dense view there. -/
theorem SparseRow.denseAt_last {r : SparseRow} {c p : Nat} (hp : p < r.nz.toNat) (hc : (r.idxAt p).toNat = c)
    (hl : ∀ q, p < q → q < r.nz.toNat → (r.idxAt q).toNat ≠ c) : r.denseAt c = r.valAt p := by
  have hsplit : List.range r.nz.toNat =
      List.range (p + 1) ++ (List.range (r.nz.toNat - (p + 1))).map (fun x => p + 1 + x) := by
    rw [← List.range_add]; congr 1; omega
  have hfind : (List.range r.nz.toNat).reverse.find? (fun p => (r.idxAt p).toNat == c) = some p := by
    rw [hsplit, List.reverse_append, List.find?_append, List.find?_eq_none.mpr, Option.none_or, List.range_succ,
      List.reverse_append, List.reverse_singleton, List.singleton_append, List.find?_cons_of_pos (by simpa using hc)]
    intro q hq
    simp only [List.mem_reverse, List.mem_map, List.mem_range] at hq
    obtain ⟨x, hx, rfl⟩ := hq
    simpa using hl (p + 1 + x) (by omega) (by omega)
  unfold SparseRow.denseAt
  rw [hfind]

/-- A column that some entry names has a last entry. -/
theorem SparseRow.exists_last {r : SparseRow} {c p : Nat} (hp : p < r.nz.toNat) (hc : (r.idxAt p).toNat = c) :
    ∃ q, q < r.nz.toNat ∧ (r.idxAt q).toNat = c ∧ ∀ x, q < x → x < r.nz.toNat → (r.idxAt x).toNat ≠ c := by
  by_contra hcon
  push Not at hcon
  have hstep : ∀ n, ∃ q, p + n ≤ q ∧ q < r.nz.toNat ∧ (r.idxAt q).toNat = c := by
    intro n
    induction n with
    | zero => exact ⟨p, by omega, hp, hc⟩
    | succ n ih =>
      obtain ⟨q, h1, h2, h3⟩ := ih
      obtain ⟨x, h4, h5, h6⟩ := hcon q h2 h3
      exact ⟨x, by omega, h5, h6⟩
  obtain ⟨q, h1, h2, -⟩ := hstep r.nz.toNat
  omega

/-- Where no index repeats, every entry gives the dense view of its column. -/
theorem SparseRow.denseAt_distinct {r : SparseRow}
    (hd : ∀ p q, p < q → q < r.nz.toNat → r.idxAt p ≠ r.idxAt q) {p : Nat} (hp : p < r.nz.toNat) :
    r.denseAt (r.idxAt p).toNat = r.valAt p :=
  SparseRow.denseAt_last hp rfl fun q h1 h2 he => hd p q h1 h2 (BitVec.eq_of_toNat_eq he.symm)

theorem SparseRow.Ascending.distinct {r : SparseRow} (h : r.Ascending 0 r.nz.toNat) (p q : Nat) (hpq : p < q)
    (hq : q < r.nz.toNat) : r.idxAt p ≠ r.idxAt q := fun he => by
  have := h p q (Nat.zero_le p) hpq hq
  rw [he] at this
  exact absurd this (BitVec.lt_irrefl _)

/-! ### Stores and sums of entries -/

/-- Scattering the entries of a row writes the dense view at the columns they name and nothing else. -/
theorem SparseRow.read_scatter_entries (r : SparseRow) (m : Memory 8) (b o : Nat) :
    (∀ p, p < r.nz.toNat → o = b + (r.idxAt p).toNat →
      Memory.read (Memory.scatter m b r.entries) o = r.denseAt (r.idxAt p).toNat) ∧
    ((∀ p, p < r.nz.toNat → o ≠ b + (r.idxAt p).toNat) →
      Memory.read (Memory.scatter m b r.entries) o = Memory.read m o) := by
  refine ⟨fun p hp ho => ?_, fun h => ?_⟩
  · obtain ⟨q, hq, hqc, hql⟩ := SparseRow.exists_last hp rfl
    rw [SparseRow.denseAt_last hq hqc hql]
    have hs : r.entries = r.entries.take q ++ ((r.idxAt q).toNat, r.valAt q) :: r.entries.drop (q + 1) := by
      rw [← SparseRow.getElem_entries r q (by simpa using hq), List.getElem_cons_drop, List.take_append_drop]
    rw [hs, ho, ← hqc]
    refine Memory.read_scatter_last m b _ _ ((r.idxAt q).toNat, r.valAt q) fun f hf => ?_
    obtain ⟨x, hx, rfl⟩ := List.getElem_of_mem hf
    rw [List.length_drop, SparseRow.length_entries] at hx
    rw [List.getElem_drop, SparseRow.getElem_entries]
    exact hqc ▸ hql (q + 1 + x) (by omega) (by omega)
  · refine Memory.read_scatter_other m b _ o fun e he => ?_
    obtain ⟨p, hp, rfl⟩ := (r.mem_entries e).mp he
    exact h p hp

/-- Onto zeroed columns, scattering leaves the dense view. -/
theorem SparseRow.read_scatter_zeroed (r : SparseRow) {m : Memory 8} {b c : Nat} (h : Memory.read m (b + c) = 0) :
    Memory.read (Memory.scatter m b r.entries) (b + c) = r.denseAt c := by
  obtain ⟨hin, hout⟩ := r.read_scatter_entries m b (b + c)
  by_cases hp : ∃ p, p < r.nz.toNat ∧ (r.idxAt p).toNat = c
  · obtain ⟨p, hp, rfl⟩ := hp
    exact hin p hp rfl
  · push Not at hp
    rw [hout fun p hl he => hp p hl (by omega), h, SparseRow.denseAt_none fun p hl => hp p hl]

theorem read_xorInto (f : Octet → Octet) (m : Memory 8) (es : List (Nat × Octet)) (c : Nat) :
    Memory.read (xorInto f m es) c =
      es.foldl (fun acc e => if e.1 = c then acc ^^^ f e.2 else acc) (Memory.read m c) := by
  induction es generalizing m with
  | nil => rfl
  | cons e es ih =>
    have : xorInto f m (e :: es) = xorInto f (Memory.write m e.1 (Memory.read m e.1 ^^^ f e.2)) es := rfl
    rw [this, ih, List.foldl_cons, Memory.read_write]
    by_cases h : e.1 = c
    · subst h; simp
    · rw [if_neg (Ne.symm h), if_neg h]

theorem foldl_xor_start {α : Type} (g : α → Option Octet) (l : List α) (a : Octet) :
    l.foldl (fun acc x => match g x with | some v => acc ^^^ v | none => acc) a =
      a ^^^ l.foldl (fun acc x => match g x with | some v => acc ^^^ v | none => acc) 0 := by
  induction l generalizing a with
  | nil => simp
  | cons x l ih =>
    rw [List.foldl_cons, List.foldl_cons]
    cases hx : g x with
    | none => simp only; rw [ih]
    | some v => simp only; rw [ih (a ^^^ v), ih (0 ^^^ v)]; simp [BitVec.xor_assoc]

/-- XORing the entries of a row in adds the sum of each column. -/
theorem SparseRow.read_xorInto_entries (r : SparseRow) (f : Octet → Octet) (m : Memory 8) (c : Nat) :
    Memory.read (xorInto f m r.entries) c = Memory.read m c ^^^ r.xorAt f c := by
  rw [read_xorInto, SparseRow.entries, List.foldl_map]
  have hg : ∀ a : Octet, (List.range r.nz.toNat).foldl
      (fun acc p => if (r.idxAt p).toNat = c then acc ^^^ f (r.valAt p) else acc) a =
      (List.range r.nz.toNat).foldl (fun acc p => match (if (r.idxAt p).toNat = c then some (f (r.valAt p)) else none) with
        | some v => acc ^^^ v | none => acc) a := by
    intro a
    congr 1
    funext acc p
    split <;> simp_all
  rw [hg, foldl_xor_start, ← hg]
  rfl

/-- Where no index repeats, the sum of a column is the scaled dense view, for a scaling that keeps 0. -/
theorem SparseRow.xorAt_distinct {r : SparseRow} (f : Octet → Octet) (hf : f 0 = 0)
    (hd : ∀ p q, p < q → q < r.nz.toNat → r.idxAt p ≠ r.idxAt q) (c : Nat) : r.xorAt f c = f (r.denseAt c) := by
  have key : ∀ n, n ≤ r.nz.toNat →
      (List.range n).foldl (fun acc p => if (r.idxAt p).toNat = c then acc ^^^ f (r.valAt p) else acc) 0 =
        if ∃ p, p < n ∧ (r.idxAt p).toNat = c then f (r.denseAt c) else 0 := by
    intro n hn
    induction n with
    | zero => simp
    | succ n ih =>
      rw [List.range_succ, List.foldl_append, List.foldl_cons, List.foldl_nil, ih (by omega)]
      by_cases h : (r.idxAt n).toNat = c
      · rw [if_pos h, if_neg, if_pos ⟨n, by omega, h⟩, ← h, SparseRow.denseAt_distinct hd (by omega : n < r.nz.toNat)]
        · simp
        · rintro ⟨p, hp, he⟩
          exact hd p n hp (by omega) (BitVec.eq_of_toNat_eq (he.trans h.symm))
      · rw [if_neg h]
        congr 1
        refine propext ⟨fun ⟨p, hp, he⟩ => ⟨p, by omega, he⟩, fun ⟨p, hp, he⟩ => ⟨p, ?_, he⟩⟩
        rcases Nat.lt_succ_iff_lt_or_eq.mp hp with hl | rfl
        · exact hl
        · exact absurd he h
  unfold SparseRow.xorAt
  rw [key _ (le_refl _)]
  split
  · rfl
  · rename_i h
    push Not at h
    rw [SparseRow.denseAt_none h, hf]

/-! ### `row_resize` -/

/-- The widths of a row that can hold `n` entries: they fit 17 bits. -/
theorem SparseRow.CanHold.stride_le {p : Params} {r : SparseRow} (hr : r.Wf p) {n : Nat}
    (h : r.CanHold p n) : p.stride n ≤ p.crCap := by
  rcases h with h | h
  · exact le_trans h hr.2.2.1
  · exact h

theorem Params.Legal.crCap_le {p : Params} (hp : p.Legal) : p.crCap ≤ 65536 := hp.2.2.2.2.1.2.2

theorem SparseRow.resize_none {p : Params} {r : SparseRow} {n : Nat} (h : ¬ r.CanHold p n) : r.resize p n = none := by
  have h1 : r.cap.toNat < p.stride n := by by_contra hc; exact h (.inl (by omega))
  have h2 : p.crCap < p.stride n := by by_contra hc; exact h (.inr (by omega))
  simp only [SparseRow.resize]; rw [if_pos h1, if_pos h2]

/-- Everything `row_resize` can do when it does not raise ALLOC. -/
theorem SparseRow.resize_some {p : Params} (hp : p.Legal) {r : SparseRow} (hr : r.Wf p) {n : Nat}
    (h : r.CanHold p n) : ∃ t, r.resize p n = some t ∧ r.GrownTo p t n ∧ r.KeepsFrom t 0 ∧ t.Wf p := by
  have hle := h.stride_le hr
  have hcr := hp.crCap_le
  have hn := Params.le_stride hp.align_pos n
  have hnz : (BitVec.ofNat 17 n).toNat = n := by rw [BitVec.toNat_ofNat, Nat.mod_eq_of_lt (by omega)]
  by_cases hc : r.cap.toNat < p.stride n
  · have hcap : (BitVec.ofNat 17 (p.stride n)).toNat = p.stride n := by
      rw [BitVec.toNat_ofNat, Nat.mod_eq_of_lt (by omega)]
    have hbi := Memory.below_mono hr.2.2.2.1.2 (Nat.le_of_lt hc)
    have hbv := Memory.below_mono hr.2.2.2.2.2 (Nat.le_of_lt hc)
    refine ⟨_, by simp only [SparseRow.resize]; rw [if_pos hc, if_neg (by omega)], ⟨hnz, ?_⟩, ?_, ?_⟩
    · simp only; rw [hcap]; omega
    · intro q _
      simp only [SparseRow.idxAt, SparseRow.valAt, hcap, Memory.read_clear]
      refine ⟨fun hq => ?_, fun hq hq' => ?_⟩
      · rw [if_neg (by omega), if_neg (by omega)]; exact ⟨rfl, rfl⟩
      · rw [if_pos (by omega), if_pos (by omega)]; exact ⟨rfl, rfl⟩
    · refine ⟨?_, ?_, ?_, ⟨Memory.wf_clear hr.2.2.2.1.1 _ _, ?_⟩, Memory.wf_clear hr.2.2.2.2.1 _ _, ?_⟩
      · simp only; rw [hnz, hcap]; exact hn
      · simp only; rw [hcap]; exact p.stride_mod n
      · simp only; rw [hcap]; exact hle
      · simp only; rw [hcap]; exact Memory.below_clear hbi _ _
      · simp only; rw [hcap]; exact Memory.below_clear hbv _ _
  · refine ⟨_, by simp only [SparseRow.resize]; rw [if_neg hc], ⟨hnz, by simp only; omega⟩, ?_, ?_⟩
    · exact fun q _ => ⟨fun _ => ⟨rfl, rfl⟩, fun h1 h2 => absurd h2 (by simp only; omega)⟩
    · exact ⟨by simp only; rw [hnz]; omega, hr.2⟩

theorem SparseRow.resize_some_iff {p : Params} {r : SparseRow} {n : Nat} :
    (r.resize p n).isSome ↔ r.CanHold p n := by
  simp only [SparseRow.resize, SparseRow.CanHold]
  split
  · split <;> simp <;> omega
  · simp; omega

/-- A row resized to its own count is itself. -/
theorem SparseRow.resize_self {p : Params} (hp : p.Legal) {r : SparseRow} (hr : r.Wf p) :
    r.resize p r.nz.toNat = some r := by
  have := Params.stride_le_of_multiple hp.align_pos hr.2.1 hr.1
  simp only [SparseRow.resize]
  rw [if_neg (by omega)]
  simp

/-- A row whose count another row has within the capacity limit can be grown to it: R152. -/
theorem SparseRow.canHold_of_row {p : Params} (hp : p.Legal) {r q : SparseRow} (hq : q.Wf p) :
    r.CanHold p q.nz.toNat :=
  .inr (le_trans (Params.stride_le_of_multiple hp.align_pos hq.2.1 hq.1) hq.2.2.1)

/-! ### Storing entries from position 0 up -/

@[simp] theorem SparseRow.putEntries_nz (r : SparseRow) (es : List (Nat × Octet)) : (r.putEntries es).nz = r.nz := rfl
@[simp] theorem SparseRow.putEntries_cap (r : SparseRow) (es : List (Nat × Octet)) : (r.putEntries es).cap = r.cap := rfl

theorem SparseRow.idxAt_putEntries (r : SparseRow) (es : List (Nat × Octet)) (q : Nat) :
    (r.putEntries es).idxAt q = if h : q < es.length then BitVec.ofNat 16 es[q].1 else r.idxAt q := by
  simp only [SparseRow.idxAt, SparseRow.putEntries, Memory.read_writeRow]
  by_cases h : q < es.length
  · rw [dif_pos (by simpa using h), dif_pos h]; simp
  · rw [dif_neg (by simpa using h), dif_neg h]

theorem SparseRow.valAt_putEntries (r : SparseRow) (es : List (Nat × Octet)) (q : Nat) :
    (r.putEntries es).valAt q = if h : q < es.length then es[q].2 else r.valAt q := by
  simp only [SparseRow.valAt, SparseRow.putEntries, Memory.read_writeRow]
  by_cases h : q < es.length
  · rw [dif_pos (by simpa using h), dif_pos h]; simp
  · rw [dif_neg (by simpa using h), dif_neg h]

theorem SparseRow.putEntries_wf {p : Params} {r : SparseRow} (hr : r.Wf p) {es : List (Nat × Octet)}
    (h : es.length ≤ r.cap.toNat) : (r.putEntries es).Wf p := by
  refine ⟨hr.1, hr.2.1, hr.2.2.1, ⟨Memory.wf_writeRow hr.2.2.2.1.1 _ _, Memory.below_writeRow hr.2.2.2.1.2 ?_⟩,
    Memory.wf_writeRow hr.2.2.2.2.1 _ _, Memory.below_writeRow hr.2.2.2.2.2 ?_⟩ <;>
    exact .inr (by simpa using h)

/-- As many entries as the count, all with 16-bit indices, are then the entries of the row. -/
theorem SparseRow.entries_putEntries {r : SparseRow} {es : List (Nat × Octet)} (hl : es.length = r.nz.toNat)
    (hb : ∀ e ∈ es, e.1 < 65536) : (r.putEntries es).entries = es := by
  refine List.ext_getElem (by simp [hl]) fun q h1 h2 => ?_
  rw [SparseRow.getElem_entries, SparseRow.idxAt_putEntries, SparseRow.valAt_putEntries, dif_pos h2, dif_pos h2,
    BitVec.toNat_ofNat, Nat.mod_eq_of_lt (hb _ (List.getElem_mem h2))]

/-- Two well-formed rows with the same counts and the same contents are the same. -/
theorem SparseRow.eq_of_contents {p : Params} {r t : SparseRow} (hr : r.Wf p) (ht : t.Wf p) (hn : r.nz = t.nz)
    (hc : r.cap = t.cap) (h : ∀ q, r.idxAt q = t.idxAt q ∧ r.valAt q = t.valAt q) : r = t := by
  obtain ⟨nz, cap, idx, val⟩ := r
  obtain ⟨nz', cap', idx', val'⟩ := t
  have h1 := Memory.eq_of_read_eq hr.2.2.2.1.1 ht.2.2.2.1.1 fun q => (h q).1
  have h2 := Memory.eq_of_read_eq hr.2.2.2.2.1 ht.2.2.2.2.1 fun q => (h q).2
  simp_all

/-- A well-formed row reads 0 from its capacity up. -/
theorem SparseRow.Wf.beyond {p : Params} {r : SparseRow} (h : r.Wf p) {q : Nat} (hq : r.cap.toNat ≤ q) :
    r.idxAt q = 0 ∧ r.valAt q = 0 :=
  ⟨Memory.read_of_not_listed fun c hc => by have := h.2.2.2.1.2 c hc; omega,
    Memory.read_of_not_listed fun c hc => by have := h.2.2.2.2.2 c hc; omega⟩

/-! ### `row_pack` -/

theorem nonzeroEntries_eq (d : List Octet) (f : Nat → Octet) (hf : ∀ c, c < d.length → d.getD c 0 = f c) :
    nonzeroEntries d = ((List.range d.length).filter fun c => f c != 0).map fun c => (c, f c) := by
  unfold nonzeroEntries
  rw [List.filter_map]
  have h1 : (List.range d.length).filter ((fun e : Nat × Octet => e.2 != 0) ∘ fun c => (c, d.getD c 0)) =
      (List.range d.length).filter fun c => f c != 0 := by
    refine List.filter_congr fun c hc => ?_
    simp only [Function.comp]
    rw [hf c (List.mem_range.mp hc)]
  rw [h1]
  refine List.map_congr_left fun c hc => ?_
  rw [hf c (List.mem_range.mp (List.mem_filter.mp hc).1)]

/-- Everything `row_pack` can do when it does not raise ALLOC: 44_sparse_convert_arith.md R171. -/
theorem SparseRow.pack_some {p : Params} (hp : p.Legal) {r : SparseRow} (hr : r.Wf p) {dl : List Octet}
    {d : Nat → Octet} {w : Nat} (hw : w ≤ 65536) (hl : dl.length = w) (hd : ∀ c, c < w → dl.getD c 0 = d c)
    (h : r.CanHold p ((List.range w).filter fun c => d c != 0).length) :
    ∃ t, r.pack p dl = some t ∧ r.PackOf p t d w ∧ t.Wf p := by
  subst hl
  have hes := nonzeroEntries_eq dl d hd
  have hlen : (nonzeroEntries dl).length = ((List.range dl.length).filter fun c => d c != 0).length := by
    rw [hes, List.length_map]
  obtain ⟨g, hg, hgrow, hkeep, hwf⟩ := SparseRow.resize_some hp hr h
  have hnz : g.nz.toNat = (nonzeroEntries dl).length := by rw [hlen]; exact hgrow.1
  have hin : ∀ e ∈ nonzeroEntries dl, e.1 < dl.length ∧ e.2 = d e.1 ∧ e.2 ≠ 0 := by
    rw [hes]
    intro e he
    simp only [List.mem_map, List.mem_filter, List.mem_range] at he
    obtain ⟨c, ⟨hc, hne⟩, rfl⟩ := he
    exact ⟨hc, rfl, by simpa using hne⟩
  have hmem : ∀ q (hq : q < (nonzeroEntries dl).length), (nonzeroEntries dl)[q].1 < dl.length ∧
      (nonzeroEntries dl)[q].2 = d (nonzeroEntries dl)[q].1 ∧ (nonzeroEntries dl)[q].2 ≠ 0 :=
    fun q hq => hin _ (List.getElem_mem hq)
  have hidx : ∀ q (hq : q < (nonzeroEntries dl).length),
      ((g.putEntries (nonzeroEntries dl)).idxAt q).toNat = (nonzeroEntries dl)[q].1 := by
    intro q hq
    rw [SparseRow.idxAt_putEntries, dif_pos hq, BitVec.toNat_ofNat, Nat.mod_eq_of_lt (by have := (hmem q hq).1; omega)]
  have hval : ∀ q (hq : q < (nonzeroEntries dl).length),
      (g.putEntries (nonzeroEntries dl)).valAt q = (nonzeroEntries dl)[q].2 := by
    intro q hq
    rw [SparseRow.valAt_putEntries, dif_pos hq]
  have hasc : (nonzeroEntries dl).Pairwise fun a b => a.1 < b.1 := by
    rw [hes, List.pairwise_map]
    exact List.pairwise_lt_range.filter _
  refine ⟨g.putEntries (nonzeroEntries dl), ?_, ⟨?_, ?_, ?_, ?_, ?_, ?_⟩, ?_⟩
  · rw [SparseRow.pack, hlen, hg]; rfl
  · exact hgrow
  · intro a b _ hab hb
    rw [SparseRow.putEntries_nz, hnz] at hb
    rw [BitVec.lt_def, hidx a (by omega), hidx b hb]
    exact List.pairwise_iff_getElem.mp hasc a b (by omega) hb hab
  · intro q hq
    rw [SparseRow.putEntries_nz, hnz] at hq
    rw [hval q hq]; exact (hmem q hq).2.2
  · intro q hq
    rw [SparseRow.putEntries_nz, hnz] at hq
    rw [hidx q hq, hval q hq]
    exact ⟨(hmem q hq).1, (hmem q hq).2.1⟩
  · intro c hc hne
    have : (c, d c) ∈ nonzeroEntries dl := by
      rw [hes]; simp only [List.mem_map, List.mem_filter, List.mem_range]
      exact ⟨c, ⟨hc, by simpa using hne⟩, rfl⟩
    obtain ⟨q, hq, he⟩ := List.getElem_of_mem this
    refine ⟨q, by rw [SparseRow.putEntries_nz, hnz]; exact hq, ?_⟩
    rw [hidx q hq, he]
  · intro q hq
    rw [SparseRow.putEntries_nz, hnz] at hq
    rw [SparseRow.idxAt_putEntries, SparseRow.valAt_putEntries, dif_neg (by omega), dif_neg (by omega)]
    exact hkeep q (Nat.zero_le q)
  · exact SparseRow.putEntries_wf hwf (by rw [← hnz]; exact hwf.1)

theorem SparseRow.pack_none {p : Params} {r : SparseRow} {dl : List Octet} {d : Nat → Octet} {w : Nat}
    (hl : dl.length = w) (hd : ∀ c, c < w → dl.getD c 0 = d c)
    (h : ¬ r.CanHold p ((List.range w).filter fun c => d c != 0).length) : r.pack p dl = none := by
  subst hl
  rw [SparseRow.pack, nonzeroEntries_eq dl d hd, List.length_map, SparseRow.resize_none h]
  rfl

/-- The dense view of a packed row is the sequence it was packed from. -/
theorem SparseRow.PackOf.denseAt {p : Params} {r t : SparseRow} {d : Nat → Octet} {w : Nat} (h : r.PackOf p t d w)
    {c : Nat} (hc : c < w) : t.denseAt c = d c := by
  obtain ⟨-, hasc, -, hval, hall, -⟩ := h
  by_cases hz : d c = 0
  · rw [hz]
    by_contra hne
    have : ∃ q, q < t.nz.toNat ∧ (t.idxAt q).toNat = c := by
      by_contra hcon
      push Not at hcon
      exact hne (SparseRow.denseAt_none hcon)
    obtain ⟨q, hq, hqc⟩ := this
    have h1 := SparseRow.denseAt_distinct hasc.distinct hq
    rw [hqc, (hval q hq).2, hqc, hz] at h1
    exact hne h1
  · obtain ⟨q, hq, hqc⟩ := hall c hc hz
    rw [← hqc, SparseRow.denseAt_distinct hasc.distinct hq, (hval q hq).2]

/-! ### Emptying rows -/

@[simp] theorem length_emptyRows (n : Nat) (rs : List SparseRow) : (emptyRows n rs).length = rs.length := by
  induction n generalizing rs with
  | zero => rfl
  | succ n ih => cases rs with
    | nil => rfl
    | cons r rs => simp [emptyRows, ih]

theorem getElem?_emptyRows (n : Nat) (rs : List SparseRow) (k : Nat) :
    (emptyRows n rs)[k]? = if k < n ∧ k < rs.length then some emptyRow else rs[k]? := by
  induction n generalizing rs k with
  | zero => simp [emptyRows]
  | succ n ih => cases rs with
    | nil => simp [emptyRows]
    | cons r rs => cases k with
      | zero => simp [emptyRows]
      | succ k => simp [emptyRows, ih]

theorem mem_emptyRows {n : Nat} {rs : List SparseRow} {r : SparseRow} (h : r ∈ emptyRows n rs) :
    r = emptyRow ∨ r ∈ rs := by
  obtain ⟨k, hk, rfl⟩ := List.getElem_of_mem h
  have := getElem?_emptyRows n rs k
  rw [List.getElem?_eq_getElem hk] at this
  split at this
  · exact .inl (Option.some.inj this)
  · exact .inr (List.mem_of_getElem? this.symm)

end Sys2Proof.Machine
end

