-- ==== Sys2Proof/Laws/Search.lean ====
section
/-! SUPPORT. What the two searches return (43_sparse_row_lifecycle_search.md R154, R156, R157). -/

namespace Sys2Proof.Machine

theorem bsearchLoop_empty (e : Nat → Index) (x : Index) (f : Nat) {lo hi : Int} (h : hi < lo) :
    bsearchLoop e x f lo hi = none := by
  cases f with
  | zero => rfl
  | succ f => rw [bsearchLoop, if_neg (by omega)]

/-- More fuel than the length of the range changes nothing. -/
theorem bsearchLoop_fuel (e : Nat → Index) (x : Index) (n : Nat) : ∀ (f : Nat) (lo hi : Int),
    (hi - lo + 1).toNat ≤ n → (hi - lo + 1).toNat ≤ f →
    bsearchLoop e x f lo hi = bsearchLoop e x (hi - lo + 1).toNat lo hi := by
  induction n with
  | zero =>
    intro f lo hi hn _
    rw [bsearchLoop_empty e x _ (by omega), bsearchLoop_empty e x _ (by omega)]
  | succ n ih =>
    intro f lo hi hn hf
    by_cases h : lo ≤ hi
    · obtain ⟨g, hg⟩ : ∃ g, f = g + 1 := ⟨f - 1, by omega⟩
      obtain ⟨k, hk⟩ : ∃ k, (hi - lo + 1).toNat = k + 1 := ⟨(hi - lo).toNat, by omega⟩
      rw [hg, hk, bsearchLoop, bsearchLoop, if_pos h, if_pos h]
      simp only
      split
      · rfl
      · split
        · rw [ih g _ _ (by omega) (by omega), ih k _ _ (by omega) (by omega)]
        · rw [ih g _ _ (by omega) (by omega), ih k _ _ (by omega) (by omega)]
    · rw [bsearchLoop_empty e x _ (by omega), bsearchLoop_empty e x _ (by omega)]

/-- One turn of the loop, with the fuel it needs. -/
theorem bsearchLoop_step (e : Nat → Index) (x : Index) (lo hi : Int) (h : lo ≤ hi) :
    bsearchLoop e x (hi - lo + 1).toNat lo hi =
      if e (lo + (hi - lo) / 2).toNat = x then some (lo + (hi - lo) / 2).toNat
      else if e (lo + (hi - lo) / 2).toNat < x then
        bsearchLoop e x (hi - (lo + (hi - lo) / 2 + 1) + 1).toNat (lo + (hi - lo) / 2 + 1) hi
      else bsearchLoop e x (lo + (hi - lo) / 2 - 1 - lo + 1).toNat lo (lo + (hi - lo) / 2 - 1) := by
  obtain ⟨k, hk⟩ : ∃ k, (hi - lo + 1).toNat = k + 1 := ⟨(hi - lo).toNat, by omega⟩
  rw [hk, bsearchLoop, if_pos h]
  simp only
  split
  · rfl
  · split
    · rw [bsearchLoop_fuel e x k k _ _ (by omega) (by omega)]
    · rw [bsearchLoop_fuel e x k k _ _ (by omega) (by omega)]

/-- Whatever the row holds, a position found is in the range and holds `x`: R156 (a). -/
theorem bsearchLoop_sound (e : Nat → Index) (x : Index) : ∀ (f : Nat) (lo hi : Int) (p : Nat), 0 ≤ lo →
    bsearchLoop e x f lo hi = some p → lo ≤ (p : Int) ∧ (p : Int) ≤ hi ∧ e p = x := by
  intro f
  induction f with
  | zero => intro lo hi p _ h; cases h
  | succ f ih =>
    intro lo hi p hlo h
    rw [bsearchLoop] at h
    split at h
    · simp only at h
      split at h
      · cases h; refine ⟨by omega, by omega, by assumption⟩
      · split at h
        · have := ih _ _ p (by omega) h; exact ⟨by omega, by omega, this.2.2⟩
        · have := ih _ _ p hlo h; exact ⟨by omega, by omega, this.2.2⟩
    · cases h

/-- On strictly ascending indices a stored index is found: R156 (b). -/
theorem bsearchLoop_complete (e : Nat → Index) (x : Index) : ∀ (f : Nat) (lo hi : Int) (p : Nat), 0 ≤ lo →
    (hi - lo + 1).toNat ≤ f → lo ≤ (p : Int) → (p : Int) ≤ hi → e p = x →
    (∀ a b : Nat, lo ≤ (a : Int) → a < b → (b : Int) ≤ hi → e a < e b) → bsearchLoop e x f lo hi = some p := by
  intro f
  induction f with
  | zero => intro lo hi p _ hf h1 h2; omega
  | succ f ih =>
    intro lo hi p hlo hf h1 h2 hp hasc
    rw [bsearchLoop, if_pos (by omega)]
    simp only
    by_cases hm : (lo + (hi - lo) / 2).toNat = p
    · rw [hm, if_pos hp]
    · rcases Nat.lt_or_gt_of_ne hm with hl | hl
      · have := hasc (lo + (hi - lo) / 2).toNat p (by omega) hl h2
        rw [hp] at this
        rw [if_neg (fun he => by rw [he] at this; exact absurd this (BitVec.lt_irrefl _)), if_pos this]
        exact ih _ _ p (by omega) (by omega) (by omega) h2 hp fun a b ha hb hc => hasc a b (by omega) hb hc
      · have := hasc p (lo + (hi - lo) / 2).toNat h1 hl (by omega)
        rw [hp] at this
        rw [if_neg (fun he => by rw [he] at this; exact absurd this (BitVec.lt_irrefl _)),
          if_neg (fun hc => by rw [BitVec.lt_def] at this hc; omega)]
        exact ih _ _ p hlo (by omega) h1 (by omega) hp fun a b ha hb hc => hasc a b ha hb (by omega)

theorem SparseRow.bsearch_empty (r : SparseRow) {lo hi : Int} (x : Index) (h : hi < lo) : r.bsearch lo hi x = none :=
  bsearchLoop_empty _ _ _ h

theorem SparseRow.bsearch_sound {r : SparseRow} {lo hi : Int} {x : Index} {p : Nat} (hlo : 0 ≤ lo)
    (h : r.bsearch lo hi x = some p) : lo ≤ (p : Int) ∧ (p : Int) ≤ hi ∧ r.idxAt p = x :=
  bsearchLoop_sound _ _ _ _ _ _ hlo h

theorem SparseRow.bsearch_complete {r : SparseRow} {lo hi p : Nat} {x : Index} (hasc : r.Ascending lo (hi + 1))
    (h1 : lo ≤ p) (h2 : p ≤ hi) (hp : r.idxAt p = x) : r.bsearch lo hi x = some p :=
  bsearchLoop_complete _ _ _ _ _ _ (by omega) (le_refl _) (by omega) (by omega) hp
    fun a b ha hb hc => hasc a b (by omega) hb (by omega)

theorem SparseRow.bsearch_none {r : SparseRow} {lo hi : Nat} {x : Index}
    (h : ∀ p, lo ≤ p → p ≤ hi → r.idxAt p ≠ x) : r.bsearch lo hi x = none := by
  cases hb : r.bsearch lo hi x with
  | none => rfl
  | some p =>
    obtain ⟨h1, h2, h3⟩ := SparseRow.bsearch_sound (by omega) hb
    exact absurd h3 (h p (by omega) (by omega))

/-- The search of CR_SWAPCOL over the stored entries, when their indices ascend: R177. -/
theorem SparseRow.bsearch_stored {r : SparseRow} (hasc : r.Ascending 0 r.nz.toNat) (x : Index) :
    (∃ p, p < r.nz.toNat ∧ r.idxAt p = x ∧ r.bsearch 0 ((r.nz.toNat : Int) - 1) x = some p) ∨
    ((∀ p, p < r.nz.toNat → r.idxAt p ≠ x) ∧ r.bsearch 0 ((r.nz.toNat : Int) - 1) x = none) := by
  by_cases h : ∃ p, p < r.nz.toNat ∧ r.idxAt p = x
  · obtain ⟨p, hp, hx⟩ := h
    refine .inl ⟨p, hp, hx, ?_⟩
    have he : ((r.nz.toNat : Int) - 1) = ((r.nz.toNat - 1 : Nat) : Int) := by omega
    rw [he]
    exact SparseRow.bsearch_complete (lo := 0) (by rwa [Nat.sub_add_cancel (by omega)]) (by omega) (by omega) hx
  · push Not at h
    refine .inr ⟨h, ?_⟩
    cases hb : r.bsearch 0 ((r.nz.toNat : Int) - 1) x with
    | none => rfl
    | some p =>
      obtain ⟨h1, h2, h3⟩ := SparseRow.bsearch_sound (by omega) hb
      exact absurd h3 (h p (by omega))

/-- The linear search returns the lowest position of the range that holds `x`: R157. -/
theorem SparseRow.scan_some {r : SparseRow} {lo hi p : Nat} {x : Index} (h1 : lo ≤ p) (h2 : p ≤ hi)
    (hp : r.idxAt p = x) (hl : ∀ q, lo ≤ q → q < p → r.idxAt q ≠ x) : r.scan lo hi x = some p := by
  have hs : (List.range (hi + 1 - lo)).map (fun c => lo + c) =
      (List.range (p - lo)).map (fun c => lo + c) ++
        p :: (List.range (hi - p)).map (fun c => p + 1 + c) := by
    have : hi + 1 - lo = (p - lo) + (1 + (hi - p)) := by omega
    rw [this, List.range_add, List.map_append, List.range_add]
    simp only [List.map_map, List.range_one, List.map_cons, List.cons_append, List.nil_append, Function.comp_def]
    congr 2
    · omega
    · refine List.map_congr_left fun c _ => ?_; omega
  unfold SparseRow.scan
  rw [hs, List.find?_append, List.find?_eq_none.mpr, Option.none_or, List.find?_cons_of_pos (by simpa using hp)]
  intro q hq
  simp only [List.mem_map, List.mem_range] at hq
  obtain ⟨c, hc, rfl⟩ := hq
  simpa using hl (lo + c) (by omega) (by omega)

theorem SparseRow.scan_none {r : SparseRow} {lo hi : Nat} {x : Index}
    (h : ∀ p, lo ≤ p → p ≤ hi → r.idxAt p ≠ x) : r.scan lo hi x = none := by
  unfold SparseRow.scan
  refine List.find?_eq_none.mpr fun q hq => ?_
  simp only [List.mem_map, List.mem_range] at hq
  obtain ⟨c, hc, rfl⟩ := hq
  simpa using h (lo + c) (by omega) (by omega)

theorem SparseRow.scan_sound {r : SparseRow} {lo hi p : Nat} {x : Index} (h : r.scan lo hi x = some p) :
    lo ≤ p ∧ p ≤ hi ∧ r.idxAt p = x := by
  unfold SparseRow.scan at h
  have h1 := List.find?_some h
  have h2 := List.mem_of_find?_eq_some h
  simp only [List.mem_map, List.mem_range] at h2
  obtain ⟨c, hc, rfl⟩ := h2
  exact ⟨by omega, by omega, by simpa using h1⟩

end Sys2Proof.Machine
end

