-- ==== Sys2Proof/Laws/Relocate.lean ====
section
/-! SUPPORT. What the sums through SCR hold (44_sparse_convert_arith.md R174, R175), what the relocation of mode
ORDERED leaves (R178), and that the procedures over a row keep its invariants. -/

namespace Sys2Proof.Machine

/-! ### The procedures keep the invariants of a row -/

theorem SparseRow.resize_keeps {p : Params} (hp : p.Legal) {r t : SparseRow} (hr : r.Wf p) {n : Nat}
    (h : r.resize p n = some t) : t.Wf p ∧ r.cap.toNat ≤ t.cap.toNat ∧ t.nz.toNat = n := by
  obtain ⟨u, h1, h2, -, h4⟩ := SparseRow.resize_some hp hr (SparseRow.resize_some_iff.mp (by rw [h]; rfl))
  rw [h] at h1
  cases h1
  exact ⟨h4, by rw [h2.2]; omega, h2.1⟩

theorem SparseRow.pack_keeps {p : Params} (hp : p.Legal) {r t : SparseRow} (hr : r.Wf p) {dl : List Octet}
    (hl : dl.length ≤ 65536) (h : r.pack p dl = some t) : t.Wf p ∧ r.cap.toNat ≤ t.cap.toNat := by
  by_cases hc : r.CanHold p ((List.range dl.length).filter fun c => dl.getD c 0 != 0).length
  · obtain ⟨u, h1, h2, h3⟩ := SparseRow.pack_some hp hr hl rfl (fun _ _ => rfl) hc
    rw [h] at h1
    cases h1
    exact ⟨h3, by rw [h2.1.2]; omega⟩
  · rw [SparseRow.pack_none rfl (fun _ _ => rfl) hc] at h
    cases h

/-! ### The sums through SCR -/

/-- Every column below the width holds the dense view of `a` plus the sum of the scaled entries of `b`. -/
theorem read_scratchSum (f : Octet → Octet) (scr : Memory 8) (ra rb : SparseRow) {w c : Nat} (hc : c < w) :
    Memory.read (scratchSum f scr ra rb w) c = ra.denseAt c ^^^ rb.xorAt f c := by
  rw [scratchSum, SparseRow.read_xorInto_entries]
  congr 1
  have := SparseRow.read_scatter_zeroed ra (m := Memory.clear scr 0 w) (b := 0) (c := c)
    (by rw [Memory.read_clear, if_pos (by omega)])
  simpa using this

theorem xorInto_keeps (f : Octet → Octet) {m : Memory 8} {n : Nat} (h : Memory.wf m ∧ Memory.Below m n)
    (es : List (Nat × Octet)) (he : ∀ e ∈ es, e.1 < n) :
    Memory.wf (xorInto f m es) ∧ Memory.Below (xorInto f m es) n := by
  induction es generalizing m with
  | nil => exact h
  | cons e es ih =>
    exact ih ⟨Memory.wf_write h.1 _ _, Memory.below_write h.2 (he e List.mem_cons_self) _⟩
      fun x hx => he x (List.mem_cons_of_mem _ hx)

/-- The scratch computation keeps SCR within its capacity: 10_state.md R34. -/
theorem scratchSum_keeps (f : Octet → Octet) {scr : Memory 8} {n w : Nat} (h : Memory.wf scr ∧ Memory.Below scr n)
    {ra rb : SparseRow} (ha : ra.IndicesBelow w) (hb : rb.IndicesBelow w) (hw : w ≤ n) :
    Memory.wf (scratchSum f scr ra rb w) ∧ Memory.Below (scratchSum f scr ra rb w) n := by
  have hent : ∀ r : SparseRow, r.IndicesBelow w → ∀ e ∈ r.entries, e.1 < n := by
    intro r hr e he
    obtain ⟨p, hp, rfl⟩ := (r.mem_entries e).mp he
    exact lt_of_lt_of_le (hr p hp) hw
  refine xorInto_keeps f ⟨Memory.wf_scatter (Memory.wf_clear h.1 _ _) _ _,
    Memory.below_scatter (Memory.below_clear h.2 _ _) fun e he => ?_⟩ _ (hent rb hb)
  have := hent ra ha e he
  omega

/-! ### Relocation in mode ORDERED -/

theorem takeWhile_eq_take {α : Type} (p : α → Bool) (l : List α) :
    l.takeWhile p = l.take (l.takeWhile p).length ∧ l.dropWhile p = l.drop (l.takeWhile p).length := by
  have h := List.takeWhile_append_dropWhile (p := p) (l := l)
  constructor
  · conv_rhs => rw [← h]
    rw [List.take_left']; simp
  · conv_rhs => rw [← h]
    rw [List.drop_left']; simp

/-- The entries after the relocation, and what it leaves alone: R178. -/
theorem SparseRow.relocateOrdered_spec {p : Params} {row : SparseRow} (hw : row.Wf p) {k : Nat} (x : Index)
    (hk : k < row.nz.toNat) :
    (row.relocateOrdered k x).Wf p ∧ (row.relocateOrdered k x).nz = row.nz ∧
    (row.relocateOrdered k x).cap = row.cap ∧ row.KeepsFrom (row.relocateOrdered k x) row.nz.toNat ∧
    (row.relocateOrdered k x).entries =
      (row.entries.eraseIdx k).takeWhile (fun z => decide (z.1 ≤ x.toNat)) ++ (x.toNat, row.valAt k) ::
        (row.entries.eraseIdx k).dropWhile (fun z => decide (z.1 ≤ x.toNat)) := by
  have hlen : ((row.entries.eraseIdx k).takeWhile (fun z => decide (z.1 ≤ x.toNat)) ++ (x.toNat, row.valAt k) ::
      (row.entries.eraseIdx k).dropWhile (fun z => decide (z.1 ≤ x.toNat))).length = row.nz.toNat := by
    have h := congrArg List.length (List.takeWhile_append_dropWhile
      (p := fun z : Nat × Octet => decide (z.1 ≤ x.toNat)) (l := row.entries.eraseIdx k))
    rw [List.length_append, List.length_eraseIdx, SparseRow.length_entries, if_pos hk] at h
    simp only [List.length_append, List.length_cons]
    omega
  refine ⟨SparseRow.putEntries_wf hw (by rw [hlen]; exact hw.1), rfl, rfl, fun q hq => ?_,
    SparseRow.entries_putEntries hlen fun e he => ?_⟩
  · unfold SparseRow.relocateOrdered
    rw [SparseRow.idxAt_putEntries, SparseRow.valAt_putEntries, dif_neg (by omega), dif_neg (by omega)]
    exact ⟨fun _ => ⟨rfl, rfl⟩, fun h1 _ => hw.beyond h1⟩
  · have hm : ∀ e ∈ row.entries.eraseIdx k, e.1 < 65536 := by
      intro e he
      obtain ⟨p, hp, rfl⟩ := (row.mem_entries e).mp (List.mem_of_mem_eraseIdx he)
      exact (row.idxAt p).isLt
    rcases List.mem_append.mp he with he | he
    · exact hm e ((List.takeWhile_sublist _).subset he)
    · rcases List.mem_cons.mp he with rfl | he
      · exact x.isLt
      · exact hm e ((List.dropWhile_sublist _).subset he)

end Sys2Proof.Machine
end

