-- ==== Sys2Proof/Tests/Slice0.lean ====
section
/-! SUPPORT. Tests on fixed values, each from an example of the rule its comment names, and for every statement with
hypotheses a state and operands that meet them (`witness_…`). -/

namespace Sys2Proof.Tests

open Sys2Proof.Machine

set_option Elab.async false

/-! ### Parameters for the tests -/

def smallParams : Params :=
  { align := 16, nmat := 3, dmCap := 64, nsrow := 2, crCap := 32, scrCap := 40
    tables := tables11D, swapcolMode := .ordered }

/-! ### Well-formedness: a term that each check refuses, and one at the limit that it accepts -/

theorem test_wellFormed_refuses_dense_slot : ¬ Instr.WellFormed smallParams (.omDestroy 3) := by decide +kernel
theorem test_wellFormed_refuses_second_dense_slot : ¬ Instr.WellFormed smallParams (.omCopy 0 3) := by decide +kernel
theorem test_wellFormed_refuses_third_dense_slot : ¬ Instr.WellFormed smallParams (.gemm 0 1 3 1 1 1) := by decide +kernel
theorem test_wellFormed_refuses_sparse_slot : ¬ Instr.WellFormed smallParams (.crGetnz 2) := by decide +kernel
theorem test_wellFormed_refuses_second_sparse_slot : ¬ Instr.WellFormed smallParams (.crAdd 0 2 1) := by decide +kernel
theorem test_wellFormed_accepts : Instr.WellFormed smallParams (.crPack 1 2 65535 65535) ∧
    Instr.WellFormed smallParams (.cmResize 65535 1) := by decide +kernel

/-! ### Decoding: a word for every command, from the examples of its rule -/

theorem test_decode_field : decode 0x00000000000000800000000000000201#128 = .instr (.fmul 2 0x80) := by decide +kernel

theorem test_decode_dense_store :
    decode 0x00000000000500030000000000000010#128 = .instr (.omResize 0 3 5) ∧
    decode 0x00000000000000000000000000010011#128 = .instr (.omCopy 1 0) ∧
    decode 0x00000000000000000000000000010012#128 = .instr (.omDestroy 1) ∧
    decode 0x00000000000000110000000000000018#128 = .instr (.omLdb 0 17) ∧
    decode 0x0000000000000011000000000000AB19#128 = .instr (.omStb 0 17 0xAB) ∧
    decode 0x0000000000010001000000000000001A#128 = .instr (.omGet 0 1 1) ∧
    decode 0x0000000000010001000000000000AB1B#128 = .instr (.omPut 0 1 1 0xAB) := by decide +kernel

theorem test_decode_dense_elementary :
    decode 0x00000004000100000000000000010020#128 = .instr (.copyRow 1 0 0 1 4) ∧
    decode 0x00000004000200000000000000000021#128 = .instr (.swapRow 0 0 2 4) ∧
    decode 0x00040003000300000000000000000022#128 = .instr (.swapCol 0 0 3 3 4) ∧
    decode 0x00000004000200000000000000000223#128 = .instr (.axpy 0 0 0 2 4 2) ∧
    decode 0x00000004000100000000000000000024#128 = .instr (.addRow 0 0 0 1 4) ∧
    decode 0x00000004000000020000000000000225#128 = .instr (.scaleRow 0 2 4 2) ∧
    decode 0x00000004000000010000000000000026#128 = .instr (.zeroRow 0 1 4) ∧
    decode 0x00012000000000000000000000030026#128 = .instr (.zeroRow 3 0 73728) ∧
    decode 0x00000002000200020000000201000027#128 = .instr (.gemm 0 1 2 2 2 2) := by decide +kernel

theorem test_decode_sparse_store :
    decode 0x00000000000200000000000000000030#128 = .instr (.crResize 0 2) ∧
    decode 0x00000000000000010000000000000031#128 = .instr (.crCopy 1 0) ∧
    decode 0x00000000000000010000000000000032#128 = .instr (.crDestroy 1) ∧
    decode 0x00050003000000000000000000000033#128 = .instr (.crFind 0 0 3 5) ∧
    decode 0x00050003000000000000000000000034#128 = .instr (.crScan 0 0 3 5) ∧
    decode 0x00000000000000000000000000000038#128 = .instr (.crGetnz 0) ∧
    decode 0x00000000000000010000000000000039#128 = .instr (.crGetcap 1) ∧
    decode 0x0000000000020000000000000000003A#128 = .instr (.crGetidx 0 2) ∧
    decode 0x0000000000020000000000000000003B#128 = .instr (.crGetval 0 2) := by decide +kernel

theorem test_decode_sparse_arithmetic :
    decode 0x00000004000100000000000000000040#128 = .instr (.crUnpack 0 0 1 4) ∧
    decode 0x00000004000000000000000000000041#128 = .instr (.crPack 0 0 0 4) ∧
    decode 0x00000004000100000000000000000042#128 = .instr (.crAdd 0 1 4) ∧
    decode 0x00000004000100000000000000000243#128 = .instr (.crSadd 0 1 2 4) ∧
    decode 0x00000005000300000000000000000044#128 = .instr (.crSwapcol 0 3 5) := by decide +kernel

theorem test_decode_sparse_matrix :
    decode 0x00000000000800030000000000000050#128 = .instr (.cmResize 3 8) ∧
    decode 0x00000000000000000000000000000051#128 = .instr .cmDestroy := by decide +kernel

theorem test_decode_refuses :
    decode 0#128 = .illegal .undefinedOpcode ∧ decode 0x52#128 = .illegal .undefinedOpcode ∧
    decode 0x00000000000001800000000000000201#128 = .illegal .unusedBits ∧
    decode 0x00000000000000000000010000000051#128 = .illegal .unusedBits := by decide +kernel

theorem test_decodeTableWord : decodeTableWord 128 0x12 = some (.omDestroy 0) ∧ decodeTableWord 128 0x13 = none := by
  decide

/-- The text form: R92 with the operands of R94. -/
theorem test_assemblerText : assemblerText (.axpy 0 0 2 1 4 0x1D) = "AXPY M0, M0, 2, 1, 4, 29" ∧
    assemblerText (.crPack 7 2 1 8) = "CR_PACK S7, M2, 1, 8" ∧ assemblerText .cmDestroy = "CM_DESTROY" := by decide +kernel

/-! ### Small states: E0 of 42_dense_elementary.md, F0 of 43_sparse_row_lifecycle_search.md -/

/-- M0 of E0. -/
def matrixE0 : DenseSlot :=
  { valid := true, rows := 3, cols := 4, stride := 16
    buf := [(0, 1), (1, 2), (2, 3), (3, 4), (16, 5), (18, 7), (32, 0x80), (33, 0xFF), (35, 1)] }

/-- S0 of F0. -/
def rowF0 : SparseRow :=
  { nz := 4, cap := 16, idx := [(1, 3), (2, 5), (3, 7)], val := [(0, 9), (1, 4), (2, 6), (3, 1)] }

/-- A second sparse row: columns 0, 1 and 3, as in the example of R175. -/
def rowB : SparseRow :=
  { nz := 3, cap := 16, idx := [(1, 1), (2, 3)], val := [(0, 0x80), (1, 0xFF), (2, 1)] }

def startState : State :=
  { State.resetWith smallParams with
    dense := [matrixE0, { matrixE0 with buf := [] }, emptyDense], sparse := [rowF0, rowB] }

/-- The same block built with LEGACY_APPEND. -/
def legacyState : State := { startState with params := { smallParams with swapcolMode := .legacyAppend } }

/-- The same block with no room for a row to grow. -/
def tightState : State := { startState with params := { smallParams with dmCap := 48, crCap := 16, scrCap := 8 } }

/-- A full row of capacity 16 in a block with CR_CAP 16. -/
def fullState : State := tightState.setRow 0 { rowF0 with nz := 16 }

/-- A row whose 17 nonzero octets cannot be packed: CR_CAP is 16. -/
def wideState : State :=
  { tightState with
    params := { smallParams with crCap := 16 }
    dense := [{ valid := true, rows := 1, cols := 17, stride := 32, buf := (List.range 17).map fun c => (c, 0x5A) },
      { matrixE0 with buf := [] }, emptyDense] }

/-- A sorted full row in a block with CR_CAP 16, and a row with the one column 16. -/
def spillState : State :=
  { startState with
    params := { smallParams with crCap := 16 }
    sparse := [
      { nz := 16, cap := 16, idx := (List.range 15).map fun p => (p + 1, BitVec.ofNat 16 (p + 1))
        val := (List.range 16).map fun p => (p, 0x5A) },
      { nz := 1, cap := 16, idx := [(0, 16)], val := [(0, 1)] }] }

/-- The sorted full row in the block with LEGACY_APPEND. -/
def fullLegacyState : State := { spillState with params := { spillState.params with swapcolMode := .legacyAppend } }

/-- M2 is the 2 by 2 identity matrix. -/
def identityState : State :=
  { startState with
    dense := [matrixE0, { matrixE0 with buf := [] },
      { valid := true, rows := 2, cols := 2, stride := 16, buf := [(0, 1), (17, 1)] }] }

/-- The block with all slots empty and these parameters. -/
def emptyState : State := State.resetWith smallParams

/-- The operands of the example of R142 in M0 and M1, and an empty 2 by 2 matrix in M2. -/
def productState : State :=
  let square := fun buf => ({ valid := true, rows := 2, cols := 2, stride := 16, buf := buf } : DenseSlot)
  { startState with
    dense := [square [(0, 1), (1, 2), (17, 3)], square [(0, 5), (1, 7), (16, 0x80), (17, 0xFF)], square []] }

/-- A sparse row from its entries, with capacity 16. -/
def rowOf (es : List (Nat × Octet)) : SparseRow :=
  { emptyRow with nz := BitVec.ofNat 17 es.length, cap := 16 }.putEntries es

/-- S0 and S1 from their entries. -/
def rowsState (s0 s1 : List (Nat × Octet)) : State := { startState with sparse := [rowOf s0, rowOf s1] }

def haltedState : State := startState.takeHalt .bounds (encode (.omDestroy 0))

/-- The state after a command. -/
def after (i : Instr) (s : State) : State :=
  match exec i s with
  | .next t => t
  | .fault _ => s
  | .refused _ => s

/-- The state after a step. -/
def afterStep (s : State) : State :=
  match step s with
  | .next t => t
  | .fault _ => s
  | .refused _ => s

theorem startState_wf : startState.Wf := by decide +kernel
theorem legacyState_wf : legacyState.Wf := by decide +kernel
theorem tightState_wf : tightState.Wf := by decide +kernel
theorem fullState_wf : fullState.Wf := by decide +kernel
theorem wideState_wf : wideState.Wf := by decide +kernel
theorem haltedState_wf : haltedState.Wf := by decide +kernel

theorem spillState_wf : spillState.Wf := by decide +kernel
theorem fullLegacyState_wf : fullLegacyState.Wf := by decide +kernel
theorem identityState_wf : identityState.Wf := by decide +kernel
theorem productState_wf : productState.Wf := by decide +kernel
theorem emptyState_wf : emptyState.Wf := by decide +kernel

/-- Every command has a next state (Laws/Effects.lean), and `after` is it. -/
theorem exec_after (i : Instr) (s : State) : exec i s = .next (after i s) := by
  obtain ⟨x, h, -⟩ := exec_effect i s
  cases x <;> simp only [after, h, conclude]

/-! ### Results: the examples of the rules -/

theorem test_fmul : (after (.fmul 2 0x80) startState).result = 0x1D := by decide +kernel
theorem test_omResize : (after (.omResize 0 3 5) startState).slot 0 =
    { valid := true, rows := 3, cols := 5, stride := 16, buf := [] } := by decide +kernel
theorem test_omCopy : (after (.omCopy 1 0) startState).slot 1 = matrixE0 ∧
    (after (.omCopy 2 2) startState).slot 2 = { emptyDense with valid := true } := by decide +kernel
theorem test_omDestroy : (after (.omDestroy 1) startState).slot 1 = emptyDense := by decide +kernel
theorem test_omLdb : (after (.omLdb 0 18) startState).result = 7 := by decide +kernel
theorem test_omStb : (after (.omStb 0 17 0xAB) startState).readRow 0 16 4 = [5, 0xAB, 7, 0] := by decide +kernel
theorem test_omGet : (after (.omGet 0 1 2) startState).result = 7 := by decide +kernel
theorem test_omPut : (after (.omPut 0 1 1 0xAB) startState).readRow 0 16 4 = [5, 0xAB, 7, 0] := by decide +kernel
theorem test_copyRow : (after (.copyRow 1 0 0 1 4) startState).readRow 1 0 4 = [5, 0, 7, 0] := by decide +kernel
theorem test_swapRow : (after (.swapRow 0 0 2 4) startState).readRow 0 0 4 = [0x80, 0xFF, 0, 1] ∧
    (after (.swapRow 0 0 2 4) startState).readRow 0 32 4 = [1, 2, 3, 4] := by decide +kernel
theorem test_swapCol : (after (.swapCol 0 0 3 3 4) startState).readRow 0 0 4 = [4, 2, 3, 1] ∧
    (after (.swapCol 0 0 3 3 4) startState).readRow 0 32 4 = [1, 0xFF, 0, 0x80] := by decide +kernel
theorem test_axpy : (after (.axpy 0 0 0 2 4 2) startState).readRow 0 0 4 = [0x1C, 0xE1, 3, 6] := by decide +kernel
theorem test_axpy_by_one : (after (.axpy 0 0 0 1 4 1) startState).readRow 0 0 4 = [4, 2, 4, 4] := by decide +kernel
theorem test_addRow : (after (.addRow 0 0 0 1 4) startState).readRow 0 0 4 = [4, 2, 4, 4] := by decide +kernel
theorem test_scaleRow : (after (.scaleRow 0 2 4 2) startState).readRow 0 32 4 = [0x1D, 0xE3, 0, 2] := by
  decide +kernel
theorem test_scaleRow_by_zero : (after (.scaleRow 0 2 4 0) startState).readRow 0 32 4 = [0x80, 0xFF, 0, 1] := by
  decide +kernel
theorem test_zeroRow : (after (.zeroRow 0 1 4) startState).readRow 0 16 4 = [0, 0, 0, 0] ∧
    (after (.zeroRow 0 0 48) startState).buf 0 = [] := by decide +kernel
theorem test_zeroRow_out_of_range : (after (.zeroRow 0 1 20) startState).cause = 2 := by decide +kernel
theorem test_gemm : (after (.gemm 0 1 2 2 2 2) productState).readRow 2 0 2 = [0x18, 0xE4] ∧
    (after (.gemm 0 1 2 2 2 2) productState).readRow 2 16 2 = [0x9D, 0x1C] := by decide +kernel
theorem test_crResize : (after (.crResize 0 2) startState).row 0 = { rowF0 with nz := 2 } ∧
    (after (.crResize 0 17) startState).row 0 = { rowF0 with nz := 17, cap := 32 } := by decide +kernel
theorem test_crCopy : (after (.crCopy 1 0) startState).row 1 = rowF0 := by decide +kernel
theorem test_crDestroy : (after (.crDestroy 1) startState).row 1 = emptyRow := by decide +kernel
theorem test_crFind : (after (.crFind 0 0 3 5) startState).result = 2 ∧
    (after (.crFind 0 0 3 4) startState).result = 0xFFFFFFFF := by decide +kernel
/-- The examples of R156. -/
theorem test_crFind_unsorted : let s := after (.crResize 0 17) startState
    (after (.crFind 0 0 16 7) s).result = 0xFFFFFFFF ∧ (after (.crFind 0 0 16 0) s).result = 8 := by decide +kernel
theorem test_crScan : let s := after (.crResize 0 17) startState
    (after (.crScan 0 0 3 5) startState).result = 2 ∧
    (after (.crScan 0 0 16 7) s).result = 3 ∧ (after (.crScan 0 0 16 0) s).result = 0 := by decide +kernel
theorem test_crGetnz : (after (.crGetnz 0) startState).result = 4 := by decide +kernel
theorem test_crGetcap : (after (.crGetcap 0) startState).result = 16 ∧
    (after (.crGetcap 0) emptyState).result = 0 := by decide +kernel
theorem test_crGetidx : (after (.crGetidx 0 2) startState).result = 5 := by decide +kernel
theorem test_crGetval : (after (.crGetval 0 2) startState).result = 6 := by decide +kernel
theorem test_crUnpack :
    (after (.crUnpack 0 1 1 4) (rowsState [(0, 5), (2, 7)] [])).readRow 1 16 4 = [5, 0, 7, 0] ∧
    (after (.crUnpack 0 1 1 2) (rowsState [(0, 5), (2, 7)] [])).cause = 2 := by decide +kernel
theorem test_crPack : (after (.crPack 0 0 1 4) emptyState).cause = 2 ∧
    (after (.crPack 0 0 1 4) (rowsState [] [])).row 0 = rowOf [(0, 5), (2, 7)] := by decide +kernel
theorem test_crAdd : (after (.crAdd 0 1 4) (rowsState [(0, 1), (2, 1)] [(0, 1), (1, 1)])).row 0 =
    rowOf [(1, 1), (2, 1)] := by decide +kernel
theorem test_crSadd : let s := rowsState [(0, 5), (2, 7)] [(0, 0x80), (1, 0xFF), (3, 1)]
    (after (.crSadd 0 1 2 4) s).row 0 = rowOf [(0, 0x18), (1, 0xE3), (2, 7), (3, 2)] ∧
    (after (.crSadd 0 1 0 4) s).sparse = s.sparse := by decide +kernel
theorem test_crSwapcol :
    (after (.crSwapcol 0 3 5) startState).row 0 = rowOf [(0, 9), (3, 6), (5, 4), (7, 1)] ∧
    (after (.crSwapcol 0 3 4) startState).row 0 = rowOf [(0, 9), (4, 4), (5, 6), (7, 1)] ∧
    (after (.crSwapcol 0 1 7) startState).row 0 = rowOf [(0, 9), (1, 1), (3, 4), (5, 6)] ∧
    (after (.crSwapcol 0 0 6) startState).row 0 = rowOf [(3, 4), (5, 6), (6, 9), (7, 1)] := by decide +kernel
/-- The example of R179. -/
theorem test_crSwapcol_legacy : let s := after (.crSwapcol 0 3 4) legacyState
    s.row 0 = rowOf [(0, 9), (3, 0), (5, 6), (7, 1), (4, 4)] ∧
    (after (.crFind 0 0 4 4) s).result = 0xFFFFFFFF ∧
    (after (.crSwapcol 0 3 4) s).row 0 = rowOf [(0, 9), (3, 0), (5, 6), (7, 1), (4, 4), (4, 0)] := by decide +kernel
theorem test_cmResize : (after (.cmResize 1 8) startState).sparse = [emptyRow, rowB] ∧
    (after (.cmResize 1 8) startState).cmRows = 1 ∧ (after (.cmResize 1 8) startState).cmCols = 8 ∧
    (after (.cmResize 3 8) startState).cause = 1 := by decide +kernel
theorem test_cmDestroy : (after .cmDestroy (after (.cmResize 1 8) startState)).cmRows = 0 ∧
    (after .cmDestroy { startState with cmRows := 1 }).sparse = [emptyRow, rowB] := by decide +kernel

/-! ### Faults and ports: 60_exceptions.md R203, R205; 10_state.md R44 -/

theorem test_halt_records_word : let t := after (.omLdb 2 0xFFFF0001) startState
    t.status = 1 ∧ t.cause = 2 ∧ t.fcmd = 0x00020018 ∧ t.dense = startState.dense := by decide +kernel
theorem test_halted_refuses : let t := afterStep { haltedState with pending := [.command (encode (.fmul 2 0x80))] }
    t.reply = .refused ∧ t.result = 0 ∧ t.fcmd = haltedState.fcmd := by decide +kernel
theorem test_reset_leaves_halt : let t := afterStep { haltedState with pending := [.reset] }
    t.status = 0 ∧ t.cause = 0 ∧ t.fcmd = 0 ∧ t.dense = [emptyDense, emptyDense, emptyDense] ∧
    t.sparse = [emptyRow, emptyRow] := by decide +kernel
theorem test_read_stride : startState.readRegister 0x11C = 16 ∧ startState.readRegister 0x12C = 0 ∧
    startState.readRegister 0x130 = 0 ∧ haltedState.readRegister 4 = 2 := by decide +kernel
theorem test_fetch_word :
    (afterStep (startState.withFetchWord 128 0x8000000000000000201)).reply = .halt 3 ∧
    (afterStep (startState.withFetchWord 128 0x800000000000000201)).reply = .ok := by decide +kernel

/-! ### Witnesses: for each statement with hypotheses, states and operands that meet them, clause by clause, at the
boundary values of each clause. `exec_after` gives the next state that a hypothesis asks for. -/

/-- An ascending row, from a check of its positions. -/
theorem ascending_of {r : SparseRow} {lo hi : Nat}
    (h : ∀ p < hi, ∀ q < hi, lo ≤ p → p < q → r.idxAt p < r.idxAt q) : r.Ascending lo hi :=
  fun p q hp hpq hq => h p (by omega) q hq hp hpq

theorem witness_EncodeOfDecode : decode 0x12#128 = .instr (.omDestroy 0) := by decide +kernel

theorem witness_DecoderAgreesWithOpcodeTable : ∃ row ∈ opcodeTable, row.admits 0x12#128 = true ∧
    row.admits 0x11#128 = false := by decide +kernel

/-- The ends of each range of R85, and the defined opcodes beside them. -/
theorem witness_UndefinedOpcodesAreIllegal :
    (∀ op ∈ [0x00, 0x02, 0x0F, 0x13, 0x17, 0x1C, 0x1F, 0x28, 0x2F, 0x35, 0x37, 0x3C, 0x3F, 0x45, 0x4F, 0x52, 0xFF],
      decode (BitVec.ofNat 128 op) = .illegal .undefinedOpcode) ∧
    (∀ op ∈ [0x01, 0x10, 0x12, 0x18, 0x1B, 0x20, 0x27, 0x30, 0x34, 0x38, 0x3B, 0x40, 0x44, 0x50, 0x51],
      decode (BitVec.ofNat 128 op) ≠ .illegal .undefinedOpcode) ∧ startState.halted = false := by decide +kernel

theorem witness_UnusedBitsAreIllegal : startState.halted = false ∧
    (∃ row ∈ opcodeTable, (0x10000000012#128).extractLsb' 0 8 = row.pattern.extractLsb' 0 8 ∧
      0x10000000012#128 &&& row.mask ≠ row.pattern) ∧
    ∃ row ∈ opcodeTable, (0xFF0012#128).extractLsb' 0 8 = row.pattern.extractLsb' 0 8 ∧
      0xFF0012#128 &&& row.mask = row.pattern := by decide +kernel

theorem witness_OctetSerialisation : (List.replicate 16 (0xA5 : Octet)).length = 16 := by decide +kernel

theorem witness_StepRunsDecodedCommand :
    let w := encode (.omDestroy 2)
    let s := { startState with pending := [.command w] }
    s.pending = .command w :: [] ∧ s.halted = false ∧ decode w = .instr (.omDestroy 2) ∧
    decodeTableWord 128 0x20012 = some (.omDestroy 2) := by decide +kernel

theorem witness_HaltedBlockRefuses : haltedState.halted = true ∧ startState.halted = false ∧
    { haltedState with pending := [.command 0#128] }.pending = [.command 0#128] ∧
    { haltedState with pending := [.regRead 4] }.pending = [.regRead 4] ∧
    { haltedState with reply := .refused }.reply = .refused ∧ { startState with reply := .ok }.reply = .ok := by
  decide +kernel

theorem witness_RegisterReadPort : { startState with pending := [.regRead 0x12C] }.pending = [.regRead 0x12C] ∧
    startState.HasSlot 2 ∧ startState.readRegister 0x130 = 0 ∧
    (∀ addr ∈ [0x130, 0x03C, 0x101], addr ∉ [0x000, 0x004, 0x008, 0x00C, 0x010, 0x014, 0x020, 0x024, 0x028, 0x02C, 0x030,
      0x034, 0x038] ∧ ∀ a < startState.params.nmat, ∀ f ∈ [0x0, 0x4, 0x8, 0xC], addr ≠ 0x100 + 0x10 * a + f) := by
  decide +kernel

theorem witness_StepAlwaysAnswers : startState.pending = [] := rfl

theorem witness_ResetLeavesTheBlockEmpty :
    { haltedState with pending := [.reset, .regRead 0] }.pending = [.reset, .regRead 0] := rfl

theorem smallParams_legal : smallParams.Legal := startState_wf.1

/-- The limits of R7. -/
theorem witness_ResetStateIsWellFormed : smallParams.Legal ∧
    { smallParams with align := 65536, nmat := 256, dmCap := 65536, nsrow := 65536, crCap := 65536, scrCap := 65535 }.Legal ∧
    { smallParams with align := 1, nmat := 3, dmCap := 1, nsrow := 1, crCap := 1, scrCap := 1 }.Legal := by
  decide +kernel

theorem witness_StepKeepsWellFormed : startState.Wf ∧ step startState = .next startState := ⟨startState_wf, rfl⟩

theorem witness_HaltEndsOnlyWithReset : haltedState.halted = true ∧ step haltedState = .next haltedState ∧
    { haltedState with pending := [.reset] }.halted = true ∧ { haltedState with pending := [.command 0] }.halted = true :=
  ⟨rfl, rfl, rfl, rfl⟩

theorem witness_FaultsArePrecise : startState.halted = false ∧
    (after (.crAdd 0 1 17) spillState).cause = 1 ∧ (after (.omLdb 0 48) startState).cause = 2 := by decide +kernel

theorem witness_SlotNumbersAreChecked : ¬ Instr.WellFormed startState.params (.omDestroy 3) ∧
    ¬ Instr.WellFormed startState.params (.crCopy 0 2) := by decide +kernel

theorem witness_ResultWrittenOnlyByReaders : startState.halted = false ∧
    exec (.fmul 2 0x80) startState = .next (after (.fmul 2 0x80) startState) ∧
    (after (.fmul 2 0x80) startState).result ≠ startState.result :=
  ⟨rfl, exec_after _ _, by decide +kernel⟩

theorem witness_DenseWritesStayInNamedSlot :
    exec (.omPut 0 1 1 9) startState = .next (after (.omPut 0 1 1 9) startState) ∧
    denseTarget (.omPut 0 1 1 9) ≠ some 1 :=
  ⟨exec_after _ _, by decide +kernel⟩

theorem witness_SparseWritesStayInNamedRow : exec (.crCopy 1 0) startState = .next (after (.crCopy 1 0) startState) ∧
    isAggregate (.crCopy 1 0) = false ∧ sparseTarget (.crCopy 1 0) ≠ some 0 :=
  ⟨exec_after _ _, by decide +kernel⟩

theorem witness_SparseCapacityNeverDecreases : startState.Wf ∧ startState.HasRow 1 ∧
    exec (.crResize 1 32) startState = .next (after (.crResize 1 32) startState) ∧
    Instr.crResize 1 32 ≠ .crDestroy 1 ∧ isAggregate (.crResize 1 32) = false :=
  ⟨startState_wf, by decide +kernel, exec_after _ _, by decide +kernel⟩

theorem witness_StrideIsLeastMultiple : smallParams.Legal ∧ smallParams.align = 16 ∧
    48 % smallParams.align = 0 ∧ 33 ≤ 48 := ⟨smallParams_legal, rfl, rfl, by decide⟩

theorem witness_FmulReturnsTableProduct : (Fields.ofWord 0x01000000000000000001#128).op = 0x01 ∧
    (Fields.ofWord 0x01000000000000000001#128).a0.extractLsb' 8 8 ≠ 0 ∧
    (Fields.ofWord 0x80000000000000000001#128).a0.extractLsb' 8 8 ≠ 0 := by decide +kernel

theorem witness_FieldTablesGiveFieldLaws : TblField tables11D polyMul11D ∧ (1 : Octet) ≠ 0 :=
  ⟨tables11D_tblField, by decide⟩

theorem witness_OmResizeMakesZeroMatrix : tightState.Wf ∧
    tightState.HasSlot 2 ∧
    48 = (3#16).toNat * tightState.params.stride (16#16).toNat ∧ 48 ≤ tightState.params.dmCap ∧
    tightState.params.dmCap < (3#16).toNat * tightState.params.stride (17#16).toNat ∧
    tightState.params.dmCap < (65535#16).toNat * tightState.params.stride (65535#16).toNat :=
  ⟨tightState_wf, by decide +kernel⟩

theorem witness_OmCopyIsDeepCopy : wideState.Wf ∧ startState.Wf ∧
    (wideState.HasSlot 0 ∧ wideState.HasSlot 1 ∧ (wideState.slot 0).valid = true ∧
      wideState.len 0 < wideState.len 1) ∧
    (startState.HasSlot 0 ∧ startState.HasSlot 1 ∧ startState.len 1 ≤ startState.len 0) ∧
    (startState.HasSlot 2 ∧ (startState.slot 2).valid = false) ∧ (startState.slot 0).valid = true :=
  ⟨wideState_wf, startState_wf, by decide +kernel⟩

theorem witness_OmDestroyEmptiesTheSlot : startState.Wf ∧
    startState.HasSlot 0 ∧ startState.HasSlot 2 ∧
    (startState.slot 2).valid = false :=
  ⟨startState_wf, by decide +kernel⟩

theorem witness_OmLdbReadsOneOctet : startState.HasSlot 0 ∧ startState.len 0 ≤ (48#32).toNat ∧
    (47#32).toNat < startState.len 0 ∧ startState.HasSlot 2 ∧ startState.len 2 ≤ (0#32).toNat := by decide +kernel

theorem witness_OmStbWritesOneOctet : startState.Wf ∧
    startState.HasSlot 0 ∧ startState.len 0 ≤ (48#32).toNat ∧
    (47#32).toNat < startState.len 0 :=
  ⟨startState_wf, by decide +kernel⟩

theorem witness_OmGetReadsOneElement : startState.HasSlot 0 ∧
    ¬ ((3 : Index) < (startState.slot 0).rows ∧ (0 : Index) < (startState.slot 0).cols) ∧
    ¬ ((0 : Index) < (startState.slot 0).rows ∧ (4 : Index) < (startState.slot 0).cols) ∧
    (2 : Index) < (startState.slot 0).rows ∧ (3 : Index) < (startState.slot 0).cols := by decide +kernel

theorem witness_OmPutWritesOneElement : startState.Wf ∧
    startState.HasSlot 1 ∧
    ¬ ((3 : Index) < (startState.slot 1).rows ∧ (0 : Index) < (startState.slot 1).cols) ∧
    (2 : Index) < (startState.slot 1).rows ∧ (3 : Index) < (startState.slot 1).cols :=
  ⟨startState_wf, by decide +kernel⟩

/-- Rows of M0 and M1 that end at the end of the buffer, one octet too long, and one row too far. -/
theorem rows_at_the_limit :
    (startState.Fits 0 (startState.params.base 2 16) 16 ∧ startState.Fits 1 (startState.params.base 2 16) 16) ∧
    ¬ startState.Fits 0 (startState.params.base 1 17) 17 ∧ ¬ startState.Fits 0 (startState.params.base 3 1) 1 ∧
    ¬ startState.Fits 1 (startState.params.base 1 17) 17 ∧ startState.Fits 2 (startState.params.base 65535 0) 0 := by
  decide +kernel

theorem witness_CopyRowCopiesOneRow : startState.Wf ∧
    startState.HasSlot 0 ∧ startState.HasSlot 1 ∧
    startState.Fits 1 (startState.params.base 0 16) 16 ∧ startState.Fits 0 (startState.params.base 2 16) 16 ∧
    ¬ (startState.Fits 1 (startState.params.base 0 17) 17 ∧ startState.Fits 0 (startState.params.base 1 17) 17) ∧
    ¬ (startState.Fits 1 (startState.params.base 1 17) 17 ∧ startState.Fits 0 (startState.params.base 0 17) 17) :=
  ⟨startState_wf, by decide +kernel⟩

theorem witness_SwapRowExchangesRows : startState.Wf ∧
    startState.HasSlot 0 ∧ (0 : Index) ≠ 2 ∧
    startState.Fits 0 (startState.params.base 0 16) 16 ∧ startState.Fits 0 (startState.params.base 2 16) 16 ∧
    ¬ (startState.Fits 0 (startState.params.base 0 17) 17 ∧ startState.Fits 0 (startState.params.base 1 17) 17) ∧
    startState.halted = false ∧ (after (.swapRow 0 0 2 16) startState).halted = false :=
  ⟨startState_wf, by decide +kernel⟩

theorem witness_SwapColExchangesColumns : startState.Wf ∧
    startState.HasSlot 0 ∧ (0 : Index) ≠ 15 ∧ (3 : Index) ≠ 0 ∧
    ((0 : Index) < 16 ∧ (15 : Index) < 16 ∧
      startState.Fits 0 ((3 - 1) * startState.params.stride 16) (max 0 15 + 1)) ∧
    ¬ ((0 : Index) < 15 ∧ (15 : Index) < 15) ∧ ¬ startState.Fits 0 ((4 - 1) * startState.params.stride 16) (max 0 15 + 1) ∧
    startState.halted = false ∧ (after (.swapCol 0 0 15 3 16) startState).halted = false :=
  ⟨startState_wf, by decide +kernel⟩

theorem witness_AxpyAccumulatesScaledRow : startState.Wf ∧
    startState.HasSlot 0 ∧ startState.HasSlot 1 ∧
    (1 : Octet) ≠ 0 ∧ (2 : Octet) ≠ 0 ∧ (255 : Octet) ≠ 0 ∧
    startState.Fits 1 (startState.params.base 2 16) 16 ∧ startState.Fits 0 (startState.params.base 0 16) 16 ∧
    ¬ (startState.Fits 1 (startState.params.base 3 16) 16 ∧ startState.Fits 0 (startState.params.base 0 16) 16) :=
  ⟨startState_wf, by decide +kernel⟩

theorem witness_AddRowXorsRows : startState.Wf ∧
    startState.HasSlot 0 ∧ startState.HasSlot 1 ∧
    startState.Fits 1 (startState.params.base 2 16) 16 ∧ startState.Fits 0 (startState.params.base 0 16) 16 ∧
    ¬ (startState.Fits 1 (startState.params.base 0 17) 17 ∧ startState.Fits 0 (startState.params.base 1 17) 17) :=
  ⟨startState_wf, by decide +kernel⟩

theorem witness_AxpyByOneIsAddRow : startState.halted = false ∧
    (after (.axpy 0 0 0 1 4 1) startState).halted = false ∧
    (after (.axpy 0 0 0 1 17 1) startState).halted = true := by decide +kernel

theorem witness_ScaleRowScalesInPlace :
    startState.Wf ∧ (startState.HasSlot 0 ∧ (1 : Octet) ≠ 0 ∧ startState.Fits 0 (startState.params.base 2 16) 16 ∧
      ¬ startState.Fits 0 (startState.params.base 1 17) 17) ∧ TblField startState.params.tables polyMul11D :=
  ⟨startState_wf, by decide +kernel, tables11D_tblField⟩

theorem witness_ZeroRowClearsOctets : startState.Wf ∧
    startState.HasSlot 0 ∧
    startState.Fits 0 ((0#16).toNat * startState.params.stride (48#32).toNat) (48#32).toNat ∧
    (48#32).toNat = startState.len 0 ∧
    ¬ startState.Fits 0 ((0#16).toNat * startState.params.stride (49#32).toNat) (49#32).toNat ∧
    ¬ startState.Fits 0 ((1#16).toNat * startState.params.stride (20#32).toNat) (20#32).toNat :=
  ⟨startState_wf, by decide +kernel⟩

/-- `c = a`, `c = b`, three slots in range, each of the three out of range, and `k = 0`. -/
theorem witness_GemmAccumulatesProducts : productState.Wf ∧
    (productState.HasSlot 0 ∧ productState.HasSlot 1 ∧ productState.HasSlot 2) ∧ (2 : Index) ≠ 0 ∧
    (2 : Octet) ≠ 0 ∧ (2 : Octet) ≠ 1 ∧
    (productState.Fits 2 ((2 - 1) * productState.params.stride 16) 16 ∧
      productState.Fits 0 ((2 - 1) * productState.params.stride 2) 2 ∧
      productState.Fits 1 ((2 - 1) * productState.params.stride 16) 16) ∧
    ¬ productState.Fits 2 ((3 - 1) * productState.params.stride 1) 1 ∧
    ¬ productState.Fits 0 ((2 - 1) * productState.params.stride 17) 17 ∧
    ¬ productState.Fits 1 ((3 - 1) * productState.params.stride 2) 2 :=
  ⟨productState_wf, by decide +kernel⟩

theorem witness_GemmIsMatrixProduct : identityState.Wf ∧ identityState.halted = false ∧
    exec (.gemm 2 0 1 2 2 4) identityState = .next (after (.gemm 2 0 1 2 2 4) identityState) ∧
    (after (.gemm 2 0 1 2 2 4) identityState).halted = false ∧
    TblField identityState.params.tables polyMul11D ∧
    ∀ r x, r < 2 → x < 2 →
      identityState.dRead 2 (r * identityState.params.stride 2 + x) = if r = x then 1 else 0 := by
  refine ⟨identityState_wf, rfl, exec_after _ _, by decide +kernel, tables11D_tblField, fun r x hr hx => ?_⟩
  interval_cases r <;> interval_cases x <;> decide +kernel

theorem witness_CrResizeSetsTheCount : startState.Wf ∧
    startState.HasRow 1 ∧
    (startState.row 1).CanHold startState.params (32#16).toNat ∧
    ¬ (startState.row 1).CanHold startState.params (33#16).toNat :=
  ⟨startState_wf, by decide +kernel⟩

theorem witness_CrCopyCopiesEntries : startState.Wf ∧
    startState.HasRow 0 ∧ startState.HasRow 1 :=
  ⟨startState_wf, by decide +kernel⟩

theorem witness_CrDestroyEmptiesTheRow : startState.Wf ∧ emptyState.Wf ∧
    startState.HasRow 1 ∧ emptyState.HasRow 0 ∧
    (emptyState.row 0).cap = 0 :=
  ⟨startState_wf, emptyState_wf, by decide +kernel⟩

theorem witness_CrFindRunsTheSearchLoop : startState.HasRow 1 ∧ (2 : Index) < 3 ∧ (3 : Index) ≤ 3 ∧
    (startState.row 1).cap.toNat ≤ (16#16).toNat ∧ (15#16).toNat < (startState.row 1).cap.toNat := by decide +kernel

theorem rowF0_ascending : rowF0.Ascending 0 4 := ascending_of (by decide +kernel)

/-- A present index at either end of the range, and an absent one. -/
theorem witness_CrFindGuarantees :
    startState.Wf ∧ (startState.HasRow 0 ∧ (0 : Index) ≤ 3 ∧ (3#16).toNat < (startState.row 0).cap.toNat ∧
      (after (.crFind 0 0 3 7) startState).result ≠ 0xFFFFFFFF ∧ (startState.row 0).idxAt 0 = 0 ∧
      (startState.row 0).idxAt 3 = 7 ∧ ∀ p < 4, (startState.row 0).idxAt p ≠ 4) ∧
    (startState.row 0).Ascending (0#16).toNat ((3#16).toNat + 1) :=
  ⟨startState_wf, by decide +kernel, rowF0_ascending⟩

theorem witness_CrScanFindsTheLowest :
    startState.Wf ∧ (startState.HasRow 0 ∧ (2 : Index) < 3 ∧ (0 : Index) ≤ 3 ∧
      (startState.row 0).cap.toNat ≤ (16#16).toNat ∧ (15#16).toNat < (startState.row 0).cap.toNat ∧
      (startState.row 0).idxAt 3 = 7 ∧ (∀ q < 3, (startState.row 0).idxAt q ≠ 7) ∧
      ∀ p < 16, (startState.row 0).idxAt p ≠ 4) ∧
    (startState.row 0).Ascending (0#16).toNat ((3#16).toNat + 1) :=
  ⟨startState_wf, by decide +kernel, rowF0_ascending⟩

theorem witness_ReadBackReturnsStoredFields : startState.HasRow 1 ∧
    (startState.row 1).cap.toNat ≤ (16#16).toNat ∧ (15#16).toNat < (startState.row 1).cap.toNat := by decide +kernel

/-- Width 8 holds the indices of S0 and width 7 does not; M1 is all zero. -/
theorem witness_CrUnpackScattersEntries : startState.Wf ∧ emptyState.Wf ∧
    startState.HasRow 0 ∧ startState.HasSlot 1 ∧
    (startState.row 0).nz ≠ 0 ∧ (startState.row 0).IndicesBelow 8 ∧ ¬ (startState.row 0).IndicesBelow 7 ∧
    startState.Fits 1 (startState.params.base 2 8) 8 ∧ ¬ startState.Fits 1 (startState.params.base 3 8) 8 ∧
    (∀ c < 8, startState.dRead 1 (startState.params.base 2 8 + c) = 0) ∧
    emptyState.HasRow 1 ∧ emptyState.HasSlot 2 ∧ (emptyState.row 1).nz = 0 :=
  ⟨startState_wf, emptyState_wf, by decide +kernel⟩

/-- Sixteen nonzero octets fit the row and seventeen do not. -/
theorem witness_CrPackGathersNonzeros : wideState.Wf ∧
    wideState.HasRow 1 ∧ wideState.HasSlot 0 ∧
    wideState.Fits 0 (wideState.params.base 0 17) 17 ∧ ¬ wideState.Fits 0 (wideState.params.base 1 17) 17 ∧
    ¬ (wideState.row 1).CanHold wideState.params
      ((List.range 17).filter fun c => wideState.dRead 0 (wideState.params.base 0 17 + c) != 0).length ∧
    (wideState.row 1).CanHold wideState.params
      ((List.range 16).filter fun c => wideState.dRead 0 (wideState.params.base 0 16 + c) != 0).length :=
  ⟨wideState_wf, by decide +kernel⟩

theorem witness_PackThenUnpackRestores : startState.Wf ∧
    startState.HasRow 1 ∧ startState.HasSlot 0 ∧
    startState.HasSlot 1 ∧ startState.Fits 0 (startState.params.base 2 4) 4 ∧
    startState.Fits 1 (startState.params.base 0 4) 4 ∧
    (startState.row 1).CanHold startState.params
      ((List.range 4).filter fun c => startState.dRead 0 (startState.params.base 2 4 + c) != 0).length :=
  ⟨startState_wf, by decide +kernel⟩

/-- Each clause of `SumsThroughScratch`: an index of either row too large, a width above SCR_CAP (40), a sum of
seventeen columns that CR_CAP 16 cannot hold, and a sum that is held. -/
theorem sums_clauses : startState.Wf ∧ spillState.Wf ∧
    (startState.HasRow 0 ∧ startState.HasRow 1) ∧
    ¬ (startState.row 0).IndicesBelow 7 ∧ ¬ (startState.row 1).IndicesBelow 3 ∧
    ((startState.row 0).IndicesBelow 8 ∧ (startState.row 1).IndicesBelow 8 ∧ 40 ≤ startState.params.scrCap ∧
      startState.params.scrCap < 41 ∧ (startState.row 0).CanHold startState.params 8) ∧
    (spillState.HasRow 0 ∧ spillState.HasRow 1 ∧ (spillState.row 0).IndicesBelow 17 ∧
      (spillState.row 1).IndicesBelow 17 ∧ 17 ≤ spillState.params.scrCap ∧
      ¬ (spillState.row 0).CanHold spillState.params ((List.range 17).filter fun c =>
        ((spillState.row 0).denseAt c ^^^ (spillState.row 1).xorAt (fun v => v) c) != 0).length) :=
  ⟨startState_wf, spillState_wf, by decide +kernel⟩

theorem witness_CrAddSumsThroughScratch : startState.Wf ∧
    startState.HasRow 0 ∧ startState.HasRow 1 ∧
    (after (.crAdd 0 1 8) startState).status = 0 ∧ (after (.crAdd 0 1 7) startState).cause = 2 ∧
    (after (.crAdd 0 1 41) startState).cause = 1 ∧ (after (.crAdd 0 1 17) spillState).cause = 1 :=
  ⟨startState_wf, by decide +kernel⟩

theorem witness_CrSaddSumsScaledRow : startState.Wf ∧
    startState.HasRow 0 ∧ startState.HasRow 1 ∧ (1 : Octet) ≠ 0 ∧
    (after (.crSadd 0 1 1 8) startState).status = 0 ∧ (after (.crSadd 0 1 255 7) startState).cause = 2 ∧
    (after (.crSadd 0 1 2 41) startState).cause = 1 ∧ (after (.crSadd 0 1 2 17) spillState).cause = 1 :=
  ⟨startState_wf, by decide +kernel⟩

theorem witness_SparseSumsAddDenseViews :
    startState.Wf ∧ (startState.HasRow 0 ∧ startState.HasRow 1 ∧ startState.halted = false ∧
      (after (.crAdd 0 1 8) startState).halted = false ∧ (after (.crSadd 0 1 2 8) startState).halted = false) ∧
    (∀ p q, p < q → q < (startState.row 1).nz.toNat → (startState.row 1).idxAt p ≠ (startState.row 1).idxAt q) ∧
    TblField startState.params.tables polyMul11D ∧
    exec (.crAdd 0 1 8) startState = .next (after (.crAdd 0 1 8) startState) ∧
    exec (.crSadd 0 1 2 8) startState = .next (after (.crSadd 0 1 2 8) startState) := by
  have h : (startState.row 1).Ascending 0 (startState.row 1).nz.toNat := ascending_of (by decide +kernel)
  exact ⟨startState_wf, by decide +kernel, fun p q hpq hq => BitVec.ne_of_lt (h p q (Nat.zero_le p) hpq hq), tables11D_tblField,
    exec_after _ _, exec_after _ _⟩

/-- Neither index present, both, and either one alone. -/
theorem witness_CrSwapcolMovesEntries : startState.Wf ∧
    startState.HasRow 0 ∧ startState.params.swapcolMode = .ordered ∧
    (startState.row 0).bsearch 0 3 1 = none ∧ (startState.row 0).bsearch 0 3 2 = none ∧
    (startState.row 0).bsearch 0 3 0 = some 0 ∧ (startState.row 0).bsearch 0 3 7 = some 3 :=
  ⟨startState_wf, by decide +kernel⟩

/-- A row that can grow by one, a full row that cannot, and the present index given first and second. -/
theorem witness_CrSwapcolLegacyAppends : legacyState.Wf ∧ fullLegacyState.Wf ∧
    (legacyState.HasRow 0 ∧ legacyState.params.swapcolMode = .legacyAppend ∧
      (legacyState.row 0).bsearch 0 3 3 = some 1 ∧ (legacyState.row 0).bsearch 0 3 4 = none ∧
      (legacyState.row 0).CanHold legacyState.params 5) ∧
    fullLegacyState.HasRow 0 ∧ fullLegacyState.params.swapcolMode = .legacyAppend ∧
    (fullLegacyState.row 0).nz = 16 ∧ (fullLegacyState.row 0).bsearch 0 15 15 = some 15 ∧
    (fullLegacyState.row 0).bsearch 0 15 16 = none ∧
    ¬ (fullLegacyState.row 0).CanHold fullLegacyState.params 17 :=
  ⟨legacyState_wf, fullLegacyState_wf, by decide +kernel⟩

theorem witness_CrSwapcolExchangesColumns : startState.Wf ∧
    (startState.HasRow 0 ∧ startState.halted = false ∧
      (after (.crSwapcol 0 3 4) startState).halted = false ∧ startState.params.swapcolMode = .ordered) ∧
    exec (.crSwapcol 0 3 4) startState = .next (after (.crSwapcol 0 3 4) startState) ∧
    (startState.row 0).Ascending 0 (startState.row 0).nz.toNat ∧ (startState.row 0).NoStoredZero :=
  ⟨startState_wf, by decide +kernel, exec_after _ _, rowF0_ascending, fun p hp => by
    have h : ∀ q < 4, (startState.row 0).valAt q ≠ 0 := by decide +kernel
    exact h p hp⟩

theorem witness_AggregateEmptiesItsRows : startState.Wf ∧
    startState.params.nsrow < (3#16).toNat ∧
    (2#16).toNat ≤ startState.params.nsrow :=
  ⟨startState_wf, by decide +kernel⟩

end Sys2Proof.Tests
end

section
/-! PROOFS. The statements of 00_scope.md: what every step answers and keeps (O11), the stride function (O22), the
step that runs a decoded command (O8), reset (O12) and the invariant after reset (O13). -/

namespace Sys2Proof.Machine

/-! ### What every command answers and keeps -/

/-- The parameters and the host's later events are no part of an effect. -/
theorem Effect.conclude_answers {i : Instr} {s : State} {x : Attempt} (h : Effect i s x) (w : Command) :
    ∃ t, conclude w x = .next t ∧ t.params = s.params ∧ t.pending = s.pending := by
  cases h with
  | same => exact ⟨_, rfl, rfl, rfl⟩
  | result v _ => exact ⟨_, rfl, rfl, rfl⟩
  | buffer a m _ => exact ⟨_, rfl, rfl, rfl⟩
  | slot a d _ _ => exact ⟨_, rfl, rfl, rfl⟩
  | row r t scr _ _ => exact ⟨_, rfl, rfl, rfl⟩
  | aggregate rows n c _ => exact ⟨_, rfl, rfl, rfl⟩
  | raise c scr _ => exact ⟨_, rfl, rfl, rfl⟩

theorem exec_answers (i : Instr) (s : State) :
    ∃ t, exec i s = .next t ∧ t.params = s.params ∧ t.pending = s.pending := by
  obtain ⟨x, hx, he⟩ := exec_effect i s
  rw [hx]
  exact he.conclude_answers (encode i)

/-! ### The command port: one equation for each branch of `issue` (30_encoding.md R88) -/

@[simp] theorem tellOutcome_next (t : State) : tellOutcome (.next t) = .next { t with reply := t.outcomeReply } := rfl

theorem issue_of_halted {s : State} (w : Command) (h : s.halted = true) :
    issue w s = .next { s with reply := .refused } := if_pos h

theorem issue_of_illegal {s : State} {w : Command} {why : Illegal} (h : s.halted = false)
    (hw : decode w = .illegal why) : issue w s = tellOutcome (.next (s.takeHalt .illegal w)) := by
  simp [issue, h, hw]

theorem issue_of_instr {s : State} {w : Command} {i : Instr} (h : s.halted = false) (hw : decode w = .instr i) :
    issue w s = tellOutcome (exec i s) := by
  simp [issue, h, hw]

theorem issue_answers (w : Command) (s : State) :
    ∃ t, issue w s = .next t ∧ t.params = s.params ∧ t.pending = s.pending := by
  cases h : s.halted with
  | true => exact ⟨_, issue_of_halted w h, rfl, rfl⟩
  | false =>
    cases hw : decode w with
    | illegal why => exact ⟨_, issue_of_illegal h hw, rfl, rfl⟩
    | instr i =>
      obtain ⟨t, ht, hp, hq⟩ := exec_answers i s
      exact ⟨{ t with reply := t.outcomeReply }, by rw [issue_of_instr h hw, ht, tellOutcome_next], hp, hq⟩

theorem decodeTableWord_eq_some {nbits w : Nat} {i : Instr} :
    decodeTableWord nbits w = some i ↔ decode (BitVec.ofNat 128 (w % 2 ^ nbits)) = .instr i := by
  unfold decodeTableWord
  cases decode (BitVec.ofNat 128 (w % 2 ^ nbits)) <;> simp

/-! ### One step: one equation for an idle block and one for a host event (00_scope.md R6, R222) -/

theorem takeEvent_answers (e : HostEvent) (s : State) :
    ∃ t, takeEvent e s = .next t ∧ t.params = s.params ∧ t.pending = s.pending := by
  cases e with
  | command w => exact issue_answers w s
  | regRead addr => exact ⟨_, rfl, rfl, rfl⟩
  | reset => exact ⟨_, rfl, s.takeReset_params, s.takeReset_pending⟩

theorem step_of_idle {s : State} (h : s.pending = []) : step s = .next s := by
  simp only [step, advance, h]

theorem step_of_event {s : State} {e : HostEvent} {rest : List HostEvent} (h : s.pending = e :: rest) :
    step s = takeEvent e { s with pending := rest } := by
  simp only [step, advance, h]

/-- Taking the pushed word off again gives the state it was pushed on. -/
theorem step_withFetchWord (s : State) (nbits w : Nat) :
    step (s.withFetchWord nbits w) = issue (BitVec.ofNat 128 (w % 2 ^ nbits)) s :=
  step_of_event (s.putNextWord_pending nbits w)

/-- Settles O11: an idle step keeps the state, and each kind of host event has an answer. -/
theorem stepAlwaysAnswers : Obligations.StepAlwaysAnswers := by
  intro s
  cases h : s.pending with
  | nil => exact ⟨s, step_of_idle h, rfl, h, fun _ => rfl⟩
  | cons e rest =>
    obtain ⟨t, ht, hp, hq⟩ := takeEvent_answers e { s with pending := rest }
    exact ⟨t, by rw [step_of_event h, ht], hp, hq, fun hn => absurd hn (List.cons_ne_nil e rest)⟩

/-- Settles O22, from the laws of the stride function. -/
theorem strideIsLeastMultiple : Obligations.StrideIsLeastMultiple := by
  constructor
  · intro p hp
    exact ⟨p.stride_zero, fun k => ⟨p.stride_mod k, Params.le_stride hp.align_pos k,
      fun m hm hk => Params.stride_le_of_multiple hp.align_pos hm hk⟩⟩
  · intro p h
    simp [Params.stride, h]

/-! ### The step that runs a command -/

/-- A word that decodes is run, and the host is told the outcome: R13, R88. -/
theorem issue_runs_decoded {s : State} {w : Command} {i : Instr} (h : s.halted = false) (hw : decode w = .instr i) :
    ∃ t, exec i s = .next t ∧ issue w s = .next { t with reply := if t.halted then .halt t.cause else .ok } := by
  obtain ⟨t, ht, -⟩ := exec_answers i s
  exact ⟨t, ht, by rw [issue_of_instr h hw, ht]; rfl⟩

/-- Settles O8: both ways of issuing the word lead to `issue` on the state without it. -/
theorem stepRunsDecodedCommand : Obligations.StepRunsDecodedCommand := by
  constructor
  · intro s w i rest hpend hs hw
    rw [step_of_event hpend]
    exact issue_runs_decoded (s := { s with pending := rest }) hs hw
  · intro s nbits w i hs hw
    rw [step_withFetchWord]
    exact issue_runs_decoded hs (decodeTableWord_eq_some.mp hw)

/-! ### Reset -/

theorem step_of_reset {s : State} {rest : List HostEvent} (h : s.pending = .reset :: rest) :
    step s = .next (State.takeReset { s with pending := rest }) := step_of_event h

/-- From address 0x20 up the fixed registers are the configuration registers: R43, R44. -/
theorem State.fixedRegister_of_params {s t : State} (hp : t.params = s.params) {addr : Nat} (h : 0x20 ≤ addr) :
    t.fixedRegister addr = s.fixedRegister addr := by
  unfold State.fixedRegister
  split
  case h_1 | h_2 | h_3 | h_4 | h_5 | h_6 => omega
  all_goals simp [hp]

/-- Between the fixed state registers and the descriptors a read depends on the parameters only: R43, R44. -/
theorem State.readRegister_of_params {s t : State} (hp : t.params = s.params) {addr : Nat} (h : 0x20 ≤ addr)
    (h' : addr < 0x100) : t.readRegister addr = s.readRegister addr := by
  have hd : ¬ 0x100 ≤ addr := by omega
  simp [State.readRegister, State.fixedRegister_of_params hp h, hd]

/-- Settles O12: the reset state field by field, and the configuration registers as functions of the parameters. -/
theorem resetLeavesTheBlockEmpty : Obligations.ResetLeavesTheBlockEmpty := by
  refine ⟨fun s rest h => ⟨_, step_of_reset h, ?_⟩, rfl, rfl, rfl, rfl, rfl, rfl, rfl, rfl, rfl⟩
  have hparams : (State.takeReset { s with pending := rest }).params = s.params := State.takeReset_params _
  exact ⟨rfl, rfl, rfl, rfl, rfl, rfl, rfl, rfl, hparams, fun _ => State.readRegister_of_params hparams⟩

/-- Every slot is empty, and an empty slot keeps its invariant whatever the parameters: R22, R28, R48. -/
theorem State.resetWith_wf {p : Params} (hp : p.Legal) : (State.resetWith p).Wf := by
  have hdense : ∀ d ∈ List.replicate p.nmat emptyDense, d.Wf p := fun d hd =>
    List.eq_of_mem_replicate hd ▸ emptyDense_wf p
  have hsparse : ∀ r ∈ List.replicate p.nsrow emptyRow, r.Wf p := fun r hr =>
    List.eq_of_mem_replicate hr ▸ emptyRow_wf p
  have hscr : Memory.Below ([] : Memory 8) p.scrCap := fun _ hc => absurd hc List.not_mem_nil
  exact ⟨hp, ⟨List.length_replicate, hdense⟩, ⟨List.length_replicate, hsparse⟩, Nat.zero_le _,
    ⟨Memory.wf_nil, hscr⟩, .inl ⟨rfl, rfl, rfl⟩⟩

/-- ALIGN is 2 ^ 4; the other limits of R7 are comparisons of numbers. -/
theorem defaultParams_legal : defaultParams.Legal := by
  refine ⟨⟨4, ?_, rfl⟩, ?_⟩ <;> simp [defaultParams]

/-- Settles O13: the default parameters are a legal choice. -/
theorem resetStateIsWellFormed : Obligations.ResetStateIsWellFormed :=
  ⟨State.resetWith_wf defaultParams_legal, fun _ hp => State.resetWith_wf hp⟩

end Sys2Proof.Machine
end

section
/-! PROOFS. The invariant of the block (O14). Each write of a command keeps the invariant of the piece of state it
touches, under the checks made before it; so each command keeps the invariant whether it completes or halts, and so does
each step. -/

namespace Sys2Proof.Machine

/-! ### Dense slots (10_state.md R22) -/

/-- What OM_RESIZE makes of a slot: R111. -/
theorem DenseSlot.wf_zeroed {p : Params} (hp : p.Legal) {rows cols : Index}
    (h : rows.toNat * p.stride cols.toNat ≤ p.dmCap) :
    DenseSlot.Wf p { valid := true, rows := rows, cols := cols, stride := BitVec.ofNat 17 (p.stride cols.toNat),
                     buf := [] } := by
  have hstride := hp.stride_index cols
  exact ⟨hstride, by rwa [hstride], by simp, Memory.wf_nil, fun _ hc => absurd hc List.not_mem_nil⟩

/-- What OM_COPY makes of its destination: R112. -/
theorem DenseSlot.wf_copied {p : Params} {d : DenseSlot} (h : d.Wf p) :
    DenseSlot.Wf p { d with valid := true, buf := Memory.below d.buf d.len } := by
  obtain ⟨hstride, hcap, -, hwf, -⟩ := id h
  refine ⟨hstride, hcap, by simp, Memory.wf_below hwf _, ?_⟩
  rw [← h.len_eq]
  exact Memory.below_below d.buf d.len

/-- An element inside the descriptor is inside the buffer: R23. -/
theorem State.Wf.elementOffset_lt {s : State} (h : s.Wf) {a : Octet} (ha : s.HasSlot a) {r c : Index}
    (hin : r < (s.slot a).rows ∧ c < (s.slot a).cols) : s.elementOffset a r c < s.len a := by
  have hslot := h.slot_wf ha
  have hcols : (s.slot a).cols.toNat ≤ (s.slot a).stride.toNat := hslot.1 ▸ Params.le_stride h.align_pos _
  have hr : r.toNat < (s.slot a).rows.toNat := hin.1
  have hc : c.toNat < (s.slot a).cols.toNat := hin.2
  calc s.elementOffset a r c
      < r.toNat * (s.slot a).stride.toNat + (s.slot a).stride.toNat := by unfold State.elementOffset; omega
    _ = (r.toNat + 1) * (s.slot a).stride.toNat := by ring
    _ ≤ (s.slot a).rows.toNat * (s.slot a).stride.toNat := Nat.mul_le_mul_right _ hr
    _ = s.len a := hslot.len_eq.symm

theorem State.Wf.dWrite {s : State} (h : s.Wf) {a : Octet} (ha : s.HasSlot a) {o : Nat} (ho : o < s.len a) (v : Octet) :
    (s.dWrite a o v).Wf :=
  h.setBuf ha (Memory.wf_write (h.buf_wf ha) o v) (Memory.below_write (h.buf_below ha) ho v)

/-- Both rows of SWAP_ROW passed the range check: R134. -/
theorem State.Wf.swapRows {s : State} (h : s.Wf) {a : Octet} (ha : s.HasSlot a) {bi bj : Nat} {us vs : List Octet}
    (hi : s.Fits a bi us.length) (hj : s.Fits a bj vs.length) : ((s.writeRow a bi us).writeRow a bj vs).Wf := by
  have hlen : (s.writeRow a bi us).len a = s.len a := s.len_setBuf a a _
  exact (h.writeRow ha hi).writeRow ha (by rw [State.Fits, hlen]; exact hj)

/-- The check of SWAP_COL covers the last row at the larger column, so every row at both columns: R135. -/
theorem State.Wf.swapColumns {s : State} (h : s.Wf) {a : Octet} (ha : s.HasSlot a) {st i j k : Nat}
    (hf : s.Fits a ((k - 1) * st) (max i j + 1)) : (s.setBuf a (swapColumns (s.buf a) st i j k)).Wf := by
  refine h.setBuf ha (wf_swapColumns (h.buf_wf ha) _ _ _ _) (below_swapColumns (h.buf_below ha) fun r hr => ?_)
  have hrow : r * st ≤ (k - 1) * st := Nat.mul_le_mul_right st (by omega)
  have hi := le_max_left i j
  have hj := le_max_right i j
  rcases hf with hf | hf <;> omega

/-- CR_UNPACK writes inside the row that passed the range check: R170. -/
theorem State.Wf.unpack {s : State} (h : s.Wf) {a : Octet} (ha : s.HasSlot a) {r : SparseRow} {b k : Nat}
    (hidx : r.IndicesBelow k) (hf : s.Fits a b k) : (s.setBuf a (Memory.scatter (s.buf a) b r.entries)).Wf := by
  refine h.setBuf ha (Memory.wf_scatter (h.buf_wf ha) _ _) (Memory.below_scatter (h.buf_below ha) fun e he => ?_)
  obtain ⟨p, hp, rfl⟩ := (r.mem_entries e).mp he
  have := hidx p hp
  rcases hf with hf | hf <;> simp only <;> omega

/-! ### Sparse rows (10_state.md R28) -/

/-- Storing into a row below its capacity. -/
theorem SparseRow.wf_withVal {p : Params} {r : SparseRow} (h : r.Wf p) {m : Memory 8} (hm : Memory.wf m)
    (hb : Memory.Below m r.cap.toNat) : SparseRow.Wf p { r with val := m } := by
  obtain ⟨hnz, hmod, hcap, hidx, -⟩ := h
  exact ⟨hnz, hmod, hcap, hidx, hm, hb⟩

/-- A row found by the search of CR_SWAPCOL is below the count: R154, R177. -/
theorem SparseRow.bsearch_lt {r : SparseRow} {x : Index} {p : Nat}
    (h : r.bsearch 0 ((r.nz.toNat : Int) - 1) x = some p) : p < r.nz.toNat := by
  obtain ⟨-, hhi, -⟩ := SparseRow.bsearch_sound (le_refl 0) h
  omega

/-- CR_SWAPCOL with both entries present: R177. -/
theorem SparseRow.wf_swapVals {p : Params} {r : SparseRow} (h : r.Wf p) {i j : Nat} (hi : i < r.nz.toNat)
    (hj : j < r.nz.toNat) : SparseRow.Wf p { r with val := Memory.swap r.val i j } := by
  obtain ⟨hnz, -, -, -, hval, hbelow⟩ := id h
  exact SparseRow.wf_withVal h (Memory.wf_swap hval i j) (Memory.below_swap hbelow (by omega) (by omega))

/-- CR_COPY: R152. -/
theorem SparseRow.copy_wf {p : Params} (hp : p.Legal) {r q t : SparseRow} (hr : r.Wf p)
    (h : ((r.resize p q.nz.toNat).map fun g => g.putEntries q.entries) = some t) : t.Wf p := by
  obtain ⟨g, hg, rfl⟩ := Option.map_eq_some_iff.mp h
  obtain ⟨hwf, -, hnz⟩ := SparseRow.resize_keeps hp hr hg
  refine SparseRow.putEntries_wf hwf ?_
  rw [SparseRow.length_entries, ← hnz]
  exact hwf.1

/-- The appended entry is the last of the grown row, and the old one is below it: R179. -/
theorem SparseRow.relocateAppend_wf {p : Params} (hp : p.Legal) {r t : SparseRow} (hr : r.Wf p) {k : Nat} {x : Index}
    (hk : k < r.nz.toNat) (h : r.relocateAppend p k x = some t) : t.Wf p := by
  obtain ⟨g, hg, rfl⟩ := Option.map_eq_some_iff.mp h
  obtain ⟨hwf, -, hcount⟩ := SparseRow.resize_keeps hp hr hg
  obtain ⟨hnz, hmod, hcap, ⟨hidx, hidxb⟩, hval, hvalb⟩ := hwf
  have hlast : r.nz.toNat < g.cap.toNat := by omega
  have hold : k < g.cap.toNat := hk.trans hlast
  exact ⟨hnz, hmod, hcap, ⟨Memory.wf_write hidx _ _, Memory.below_write hidxb hlast _⟩,
    Memory.wf_write (Memory.wf_write hval r.nz.toNat (r.valAt k)) k 0,
    Memory.below_write (Memory.below_write hvalb hlast (r.valAt k)) hold 0⟩

/-- The relocation of an entry, in either mode of the block: R177. -/
theorem SparseRow.relocate_wf {p : Params} (hp : p.Legal) {r t : SparseRow} (hr : r.Wf p) {k : Nat} {x : Index}
    (hk : k < r.nz.toNat) (h : r.relocate p k x = some t) : t.Wf p := by
  unfold SparseRow.relocate at h
  split at h
  · cases h
    exact (SparseRow.relocateOrdered_spec hr x hk).1
  · exact SparseRow.relocateAppend_wf hp hr hk h

/-! ### The other pieces of state -/

/-- SCR within its capacity: R34. -/
theorem State.Wf.withScr {s : State} (h : s.Wf) {scr : Memory 8}
    (hscr : Memory.wf scr ∧ Memory.Below scr s.params.scrCap) : State.Wf { s with scr := scr } := by
  obtain ⟨hp, hdense, hsparse, hrows, -, hstatus⟩ := h
  exact ⟨hp, hdense, hsparse, hrows, hscr, hstatus⟩

/-- CM_RESIZE and CM_DESTROY: the first rows are emptied and the aggregate's registers set (R32, R190, R191). -/
theorem State.Wf.emptyRows {s : State} (h : s.Wf) (n : Nat) {rows : Extent} (hrows : rows.toNat ≤ s.params.nsrow)
    (cols : Index) : State.Wf { s with sparse := emptyRows n s.sparse, cmRows := rows, cmCols := cols } := by
  obtain ⟨hp, hdense, ⟨hlen, hwf⟩, -, hrest⟩ := h
  refine ⟨hp, hdense, ⟨by simpa using hlen, fun r hr => ?_⟩, hrows, hrest⟩
  rcases mem_emptyRows hr with rfl | hr
  · exact emptyRow_wf _
  · exact hwf r hr

/-- The codes of R36. -/
theorem Cause.code_range (c : Cause) : 1 ≤ c.code ∧ c.code ≤ 5 := by cases c <;> decide

/-- A fault sets STATUS to 1 and CAUSE to one of the five codes, whatever they were: R203. -/
theorem State.Wf.takeHalt {s : State} (h : s.Wf) (c : Cause) (w : Command) : (s.takeHalt c w).Wf := by
  obtain ⟨hp, hdense, hsparse, hrows, hscr, hstatus⟩ := h
  have hone : s.status ||| 1 = 1 := by
    rcases hstatus with ⟨h0, -⟩ | ⟨h1, -⟩
    · rw [h0]; rfl
    · rw [h1]; rfl
  exact ⟨hp, hdense, hsparse, hrows, hscr, .inr ⟨hone, c.code_range⟩⟩

theorem State.Wf.takeReset {s : State} (h : s.Wf) : s.takeReset.Wf := State.resetWith_wf h.legal

/-! ### Commands -/

/-- The state an attempt ends in, or takes its fault in, keeps the invariant. -/
def Attempt.Wf : Attempt → Prop
  | .done t => t.Wf
  | .raise _ t => t.Wf

theorem Attempt.Wf.conclude {x : Attempt} (h : x.Wf) (w : Command) : ∃ t, conclude w x = .next t ∧ t.Wf := by
  cases x with
  | done t => exact ⟨t, rfl, h⟩
  | raise c t => exact ⟨_, rfl, State.Wf.takeHalt h c w⟩

/-- A case that ends the command before the rest `y` of its rule. -/
theorem Attempt.Wf.unless {p : Prop} [Decidable p] {x y : Attempt} (hx : x.Wf) (hy : ¬ p → y.Wf) :
    (if p then x else y).Wf := by
  split
  · exact hx
  · exact hy ‹_›

/-- A check that the rest `y` of the rule relies on. -/
theorem Attempt.Wf.require {p : Prop} [Decidable p] {x y : Attempt} (hx : x.Wf) (hy : p → y.Wf) :
    (if ¬ p then x else y).Wf := .unless hx fun h => hy (not_not.mp h)

theorem State.Wf.withSlots {s : State} (h : s.Wf) {ds : List Octet} {rs : List Index} {x : Attempt}
    (hx : (∀ a ∈ ds, s.HasSlot a) → (∀ r ∈ rs, s.HasRow r) → x.Wf) : (withSlots s ds rs x).Wf := by
  by_cases hslots : (∀ a ∈ ds, s.HasSlot a) ∧ ∀ r ∈ rs, s.HasRow r
  · rw [withSlots_pass hslots.1 hslots.2]
    exact hx hslots.1 hslots.2
  · rw [withSlots_fail hslots]
    exact h

theorem State.Wf.putRow {s : State} (h : s.Wf) (r : Index) {o : Option SparseRow}
    (ho : ∀ t, o = some t → t.Wf s.params) : (s.putRow r o).Wf := by
  cases o with
  | none => exact h
  | some t => exact h.setRow r (ho t rfl)

/-- CR_ADD and CR_SADD once their no-operation case is past: SCR first, then the row (R174, R175). -/
theorem State.Wf.addThroughScratch {s : State} (h : s.Wf) (f : Octet → Octet) {sa : Index} (ha : s.HasRow sa)
    (sb w : Index) : (addThroughScratch f sa sb w s).Wf := by
  refine .require h fun hia => .require h fun hib => .unless h fun hw => ?_
  have hscr := scratchSum_keeps f h.2.2.2.2.1 hia hib (not_lt.mp hw)
  refine (h.withScr hscr).putRow sa fun t ht => ?_
  have hwidth : w.toNat ≤ 65536 := w.isLt.le
  exact (SparseRow.pack_keeps h.legal (h.row_wf ha) (by rwa [Memory.length_readRow]) ht).1

/-- The four outcomes of the two searches of CR_SWAPCOL: R177. -/
theorem exec_crSwapcol_attempt_wf {s : State} (h : s.Wf) (r i j : Index) :
    ∃ x, exec (.crSwapcol r i j) s = conclude (encode (.crSwapcol r i j)) x ∧ x.Wf := by
  refine ⟨_, rfl, h.withSlots fun _ hr => ?_⟩
  have hrow := h.row_wf (hr r List.mem_cons_self)
  simp only
  split
  case h_1 => exact h
  case h_2 pi pj hi hj =>
    exact h.setRow r (SparseRow.wf_swapVals hrow (SparseRow.bsearch_lt hi) (SparseRow.bsearch_lt hj))
  case h_3 pi hi hj =>
    exact h.putRow r fun t ht => SparseRow.relocate_wf h.legal hrow (SparseRow.bsearch_lt hi) ht
  case h_4 pj hi hj =>
    exact h.putRow r fun t ht => SparseRow.relocate_wf h.legal hrow (SparseRow.bsearch_lt hj) ht

/-- Every command is the conclusion of an attempt that keeps the invariant: the checks of each rule are what its write
needs to stay inside the storage. -/
theorem exec_attempt_wf (i : Instr) {s : State} (h : s.Wf) : ∃ x, exec i s = conclude (encode i) x ∧ x.Wf := by
  cases i with
  | fmul u x => exact ⟨.done _, rfl, h.setResult _⟩
  | omResize a rows cols =>
    exact ⟨_, rfl, h.withSlots fun _ _ => .unless h fun hcap =>
      h.setSlot a (DenseSlot.wf_zeroed h.legal (not_lt.mp hcap))⟩
  | omCopy dst src =>
    exact ⟨_, rfl, h.withSlots fun hd _ => .unless h fun _ =>
      h.setSlot dst (DenseSlot.wf_copied (h.slot_wf (hd src (by simp))))⟩
  | omDestroy a => exact ⟨_, rfl, h.withSlots fun _ _ => h.setSlot a (emptyDense_wf _)⟩
  | omLdb a off => exact ⟨_, rfl, h.withSlots fun _ _ => .unless h fun _ => h.setResult _⟩
  | omStb a off value =>
    exact ⟨_, rfl, h.withSlots fun hd _ => .unless h fun hin => h.dWrite (hd a (by simp)) (not_le.mp hin) value⟩
  | omGet a r c => exact ⟨_, rfl, h.withSlots fun _ _ => .require h fun _ => h.setResult _⟩
  | omPut a r c value =>
    refine ⟨_, rfl, h.withSlots fun hd _ => .require h fun hin => ?_⟩
    have ha : s.HasSlot a := hd a (by simp)
    exact h.dWrite ha (h.elementOffset_lt ha hin) value
  | copyRow dst src i j k =>
    exact ⟨_, rfl, h.withSlots fun hd _ => .require h fun hf => .require h fun _ =>
      h.writeRow (hd dst (by simp)) (by simpa using hf)⟩
  | swapRow a i j k =>
    exact ⟨_, rfl, h.withSlots fun hd _ => .unless h fun _ => .require h fun hi => .require h fun hj =>
      h.swapRows (hd a (by simp)) (by simpa using hi) (by simpa using hj)⟩
  | swapCol a i j k w =>
    exact ⟨_, rfl, h.withSlots fun hd _ => .unless h fun _ => .unless h fun _ => .require h fun _ =>
      .require h fun hf => h.swapColumns (hd a (by simp)) hf⟩
  | axpy dst src i j k u =>
    exact ⟨_, rfl, h.withSlots fun hd _ => .unless h fun _ => .require h fun hf => .require h fun _ =>
      h.writeRow (hd dst (by simp)) (by simpa using hf)⟩
  | addRow dst src i j k =>
    exact ⟨_, rfl, h.withSlots fun hd _ => .require h fun hf => .require h fun _ =>
      h.writeRow (hd dst (by simp)) (by simpa using hf)⟩
  | scaleRow a i k u =>
    exact ⟨_, rfl, h.withSlots fun hd _ => .unless h fun _ => .require h fun hf =>
      h.writeRow (hd a (by simp)) (by simpa using hf)⟩
  | zeroRow a i k =>
    refine ⟨_, rfl, h.withSlots fun hd _ => .require h fun _ => ?_⟩
    have ha : s.HasSlot a := hd a (by simp)
    exact h.setBuf ha (Memory.wf_clear (h.buf_wf ha) _ _) (Memory.below_clear (h.buf_below ha) _ _)
  | gemm a b c n k m =>
    refine ⟨_, rfl, h.withSlots fun hd _ => .unless h fun _ => .unless h fun _ => .require h fun hf =>
      .unless h fun _ => .unless h fun _ => ?_⟩
    have hc : s.HasSlot c := hd c (by simp)
    exact h.setBuf hc (wf_gemmRows _ _ _ _ _ _ _ _ (h.buf_wf hc)) (below_gemmRows _ _ _ _ _ (h.buf_below hc) hf)
  | crResize r newNz =>
    exact ⟨_, rfl, h.withSlots fun _ hr => h.putRow r fun t ht =>
      (SparseRow.resize_keeps h.legal (h.row_wf (hr r (by simp))) ht).1⟩
  | crCopy sd ss =>
    exact ⟨_, rfl, h.withSlots fun _ hr => h.putRow sd fun t ht =>
      SparseRow.copy_wf h.legal (h.row_wf (hr sd (by simp))) ht⟩
  | crDestroy r => exact ⟨_, rfl, h.withSlots fun _ _ => h.setRow r (emptyRow_wf _)⟩
  | crFind r lo hi x =>
    exact ⟨_, rfl, h.withSlots fun _ _ => .unless (h.setResult _) fun _ => .unless h fun _ => h.setResult _⟩
  | crScan r lo hi x =>
    exact ⟨_, rfl, h.withSlots fun _ _ => .unless (h.setResult _) fun _ => .unless h fun _ => h.setResult _⟩
  | crGetnz r => exact ⟨_, rfl, h.withSlots fun _ _ => h.setResult _⟩
  | crGetcap r => exact ⟨_, rfl, h.withSlots fun _ _ => h.setResult _⟩
  | crGetidx r p => exact ⟨_, rfl, h.withSlots fun _ _ => .unless h fun _ => h.setResult _⟩
  | crGetval r p => exact ⟨_, rfl, h.withSlots fun _ _ => .unless h fun _ => h.setResult _⟩
  | crUnpack r a i k =>
    exact ⟨_, rfl, h.withSlots fun hd _ => .unless h fun _ => .require h fun hidx => .require h fun hf =>
      h.unpack (hd a (by simp)) hidx hf⟩
  | crPack r a i k =>
    have hwidth : (s.readRow a (s.params.base i.toNat k.toNat) k.toNat).length ≤ 65536 := by
      rw [State.length_readRow]; exact k.isLt.le
    exact ⟨_, rfl, h.withSlots fun _ hr => .require h fun _ => h.putRow r fun t ht =>
      (SparseRow.pack_keeps h.legal (h.row_wf (hr r (by simp))) hwidth ht).1⟩
  | crAdd sa sb w => exact ⟨_, rfl, h.withSlots fun _ hr => h.addThroughScratch _ (hr sa (by simp)) sb w⟩
  | crSadd sa sb u w =>
    exact ⟨_, rfl, h.withSlots fun _ hr => .unless h fun _ => h.addThroughScratch _ (hr sa (by simp)) sb w⟩
  | crSwapcol r i j => exact exec_crSwapcol_attempt_wf h r i j
  | cmResize rows cols =>
    refine ⟨_, rfl, .unless h fun hrows => h.emptyRows _ ?_ cols⟩
    have := rows.isLt
    rw [BitVec.toNat_setWidth, Nat.mod_eq_of_lt (by omega)]
    exact not_lt.mp hrows
  | cmDestroy => exact ⟨.done _, rfl, h.emptyRows _ (Nat.zero_le _) 0⟩

theorem exec_keeps_wf {i : Instr} {s t : State} (h : s.Wf) (he : exec i s = .next t) : t.Wf := by
  obtain ⟨x, hx, hwf⟩ := exec_attempt_wf i h
  obtain ⟨u, hu, huwf⟩ := hwf.conclude (encode i)
  rw [he, hu] at hx
  cases hx
  exact huwf

/-! ### Steps -/

theorem issue_keeps_wf {w : Command} {s t : State} (h : s.Wf) (hi : issue w s = .next t) : t.Wf := by
  cases hs : s.halted with
  | true =>
    rw [issue_of_halted w hs] at hi
    cases hi
    exact h
  | false =>
    cases hw : decode w with
    | illegal why =>
      rw [issue_of_illegal hs hw] at hi
      cases hi
      exact h.takeHalt .illegal w
    | instr i =>
      obtain ⟨u, hu, hissue⟩ := issue_runs_decoded hs hw
      rw [hissue] at hi
      cases hi
      have hwf : u.Wf := exec_keeps_wf h hu
      exact hwf

theorem takeEvent_keeps_wf {e : HostEvent} {s t : State} (h : s.Wf) (he : takeEvent e s = .next t) : t.Wf := by
  cases e with
  | command w => exact issue_keeps_wf h he
  | regRead addr =>
    cases he
    exact h
  | reset =>
    cases he
    exact h.takeReset

/-- Settles O14: an idle step changes nothing, and each kind of host event keeps the invariant. -/
theorem stepKeepsWellFormed : Obligations.StepKeepsWellFormed := by
  intro s t h hstep
  cases hp : s.pending with
  | nil =>
    rw [step_of_idle hp] at hstep
    cases hstep
    exact h
  | cons e rest =>
    rw [step_of_event hp] at hstep
    exact takeEvent_keeps_wf (s := { s with pending := rest }) h hstep

end Sys2Proof.Machine
end

section
/-! PROOFS. The statements of 10_state.md about what a command leaves unchanged: RESULT (O18), the dense slots (O19),
the sparse rows (O20). Each is read off the effects of a command; `exec_effect` says what they can be. -/

namespace Sys2Proof.Machine

/-! ### What an effect leaves unchanged -/

/-- No command that completes writes STATUS: R203. -/
theorem Effect.done_status {i : Instr} {s t : State} (h : Effect i s (.done t)) : t.status = s.status := by
  cases h <;> rfl

theorem Effect.done_halted {i : Instr} {s t : State} (h : Effect i s (.done t)) : t.halted = s.halted := by
  rw [State.halted, State.halted, h.done_status]

/-- A new buffer content leaves every descriptor as it was: R42. -/
theorem State.slot_setBuf (s : State) (a : Octet) (m : Memory 8) (b : Octet) :
    ∃ n, (s.setBuf a m).slot b = { s.slot b with buf := n } := by
  by_cases hb : b = a
  · subst hb
    by_cases hl : b.toNat < s.dense.length
    · exact ⟨m, s.slot_setBuf_same b m hl⟩
    · refine ⟨(s.slot b).buf, ?_⟩
      simp [State.setBuf, State.setSlot, List.set_eq_of_length_le (not_lt.mp hl), State.slot]
  · exact ⟨(s.slot b).buf, s.slot_setSlot_other _ hb⟩

/-! ### RESULT -/

/-- Settles O18: of the effects only `result` writes RESULT, and it does not halt. -/
theorem resultWrittenOnlyByReaders : Obligations.ResultWrittenOnlyByReaders := by
  intro i s t hs he hne
  obtain ⟨x, hx, ht⟩ := exec_next he
  cases hx with
  | result v h =>
    cases ht
    exact ⟨h, hs⟩
  | same | buffer | slot | row | aggregate | raise =>
    cases ht
    exact absurd rfl hne

/-! ### The dense slots -/

/-- Settles O19: the effects `buffer` and `slot` write the named slot, the others none. -/
theorem denseWritesStayInNamedSlot : Obligations.DenseWritesStayInNamedSlot := by
  intro i s t he
  obtain ⟨x, hx, ht⟩ := exec_next he
  cases hx with
  | buffer b m hb =>
    cases ht
    refine ⟨List.length_set, fun a ha => s.slot_setSlot_other _ fun hab => ha (hab ▸ hb), fun _ _ _ a => ?_⟩
    obtain ⟨n, hn⟩ := s.slot_setBuf b m a
    rw [hn]
    exact ⟨rfl, rfl, rfl, rfl⟩
  | slot b d hb hwrites =>
    cases ht
    refine ⟨List.length_set, fun a ha => s.slot_setSlot_other d fun hab => ha (hab ▸ hb),
      fun hres hcopy hdest => ?_⟩
    rcases hwrites with ⟨a, rows, cols, rfl⟩ | ⟨a, src, rfl⟩ | ⟨a, rfl⟩
    · exact absurd rfl (hres a rows cols)
    · exact absurd rfl (hcopy a src)
    · exact absurd rfl (hdest a)
  | same | result | row | aggregate | raise =>
    cases ht
    exact ⟨rfl, fun _ _ => rfl, fun _ _ _ _ => ⟨rfl, rfl, rfl, rfl⟩⟩

/-! ### The sparse rows -/

/-- Settles O20: the effect `row` writes the named row, and `aggregate` belongs to the commands left out. -/
theorem sparseWritesStayInNamedRow : Obligations.SparseWritesStayInNamedRow := by
  intro i s t he hagg
  obtain ⟨x, hx, ht⟩ := exec_next he
  cases hx with
  | row q u scr hq hscr =>
    cases ht
    exact ⟨List.length_set, rfl, rfl, fun r hr => State.row_setRow_other _ u fun hrq => hr (hrq ▸ hq)⟩
  | aggregate rows n c h =>
    rw [hagg] at h
    cases h
  | same | result | buffer | slot | raise =>
    cases ht
    exact ⟨rfl, rfl, rfl, fun _ _ => rfl⟩

end Sys2Proof.Machine
end

section
/-! PROOFS. The rule of 42_dense_elementary.md R138: AXPY by the scalar 1 is ADD_ROW (O38). -/

namespace Sys2Proof.Machine

/-- The scalar 1 does not read the tables: R105. -/
theorem Tables.accumulate_one (tb : Tables) (d x : List Octet) :
    tb.accumulate 1 d x = List.zipWith (fun d x => d ^^^ x) d x := by
  simp [Tables.accumulate, Tables.axpyTerm]

/-- AXPY by 1 and ADD_ROW come to the same attempt, and each concludes it with its own word. -/
theorem exec_axpy_one_addRow (dst src : Octet) (i j k : Index) (s : State) :
    ∃ x, exec (.axpy dst src i j k 1) s = conclude (encode (.axpy dst src i j k 1)) x ∧
      exec (.addRow dst src i j k) s = conclude (encode (.addRow dst src i j k)) x ∧
      Effect (.addRow dst src i j k) s x := by
  refine ⟨_, ?_, rfl, .withSlots (.ite (.raise_same _ s _) (.ite (.raise_same _ s _) (.buffer dst _ rfl)))⟩
  have hone : (1 : Octet) ≠ 0 := by decide
  simp only [exec, execAxpy, if_neg hone, Tables.accumulate_one]

theorem State.takeHalt_halted (s : State) (c : Cause) (w : Command) : (s.takeHalt c w).halted = true := by
  simp [State.halted, State.takeHalt_status]

/-- Settles O38: the one attempt is done, with nothing of the word in the state, or takes its fault with each word. -/
theorem axpyByOneIsAddRow : Obligations.AxpyByOneIsAddRow := by
  intro s dst src i j k
  obtain ⟨x, haxpy, hadd, he⟩ := exec_axpy_one_addRow dst src i j k s
  cases x with
  | done t =>
    refine ⟨t, t, haxpy, hadd, rfl, fun _ _ => rfl, fun hs ht => ?_⟩
    rw [he.done_halted, hs] at ht
    cases ht
  | raise c t =>
    refine ⟨_, _, haxpy, hadd, rfl, fun _ ht => ?_, fun _ _ => ⟨rfl, rfl⟩⟩
    rw [State.takeHalt_halted] at ht
    cases ht

end Sys2Proof.Machine
end

section
/-! PROOFS. The register read port (O10): the address map of 10_state.md R44, address by address. -/

namespace Sys2Proof.Machine

theorem step_of_regRead {s : State} {addr : Nat} {rest : List HostEvent} (h : s.pending = .regRead addr :: rest) :
    step s = .next { s with pending := rest, reply := .data (s.readRegister addr) } := step_of_event h

/-- The fixed registers of R44 and no others. -/
theorem State.fixedRegister_eq_none {s : State} {addr : Nat}
    (h : addr ∉ [0x000, 0x004, 0x008, 0x00C, 0x010, 0x014, 0x020, 0x024, 0x028, 0x02C, 0x030, 0x034, 0x038]) :
    s.fixedRegister addr = none := by
  unfold State.fixedRegister
  split
  case h_14 => rfl
  all_goals exact absurd (by decide) h

/-- From address 0x100 up there is no fixed register. -/
theorem State.fixedRegister_descriptor (s : State) {addr : Nat} (h : 0x100 ≤ addr) : s.fixedRegister addr = none := by
  refine State.fixedRegister_eq_none fun hm => ?_
  simp only [List.mem_cons, List.not_mem_nil, or_false] at hm
  omega

/-- The register at offset `f` of the group of four that belongs to a dense slot: R42, R44. -/
theorem State.readRegister_descriptor {s : State} {a : Octet} (ha : s.HasSlot a) {f : Nat} (hf : f < 0x10) :
    s.readRegister (0x100 + f + 0x10 * a.toNat) = (s.slot a).descriptor f := by
  have hgroup : (0x100 + f + 0x10 * a.toNat - 0x100) / 0x10 = a.toNat := by omega
  have hoffset : (0x100 + f + 0x10 * a.toNat - 0x100) % 0x10 = f := by omega
  have hmap : 0x100 ≤ 0x100 + f + 0x10 * a.toNat ∧ a.toNat < s.params.nmat := ⟨by omega, ha⟩
  rw [State.readRegister, s.fixedRegister_descriptor hmap.1]
  simp only [hgroup, hoffset, if_pos hmap]
  rfl

theorem DenseSlot.descriptor_eq_zero (d : DenseSlot) {f : Nat} (h : f ∉ [0x0, 0x4, 0x8, 0xC]) :
    d.descriptor f = 0 := by
  unfold DenseSlot.descriptor
  split
  case h_5 => rfl
  all_goals exact absurd (by decide) h

/-- Every address outside the map reads 0: R44. -/
theorem State.readRegister_unmapped {s : State} {addr : Nat}
    (hfixed : addr ∉ [0x000, 0x004, 0x008, 0x00C, 0x010, 0x014, 0x020, 0x024, 0x028, 0x02C, 0x030, 0x034, 0x038])
    (hslots : ∀ a, a < s.params.nmat → ∀ f ∈ [0x0, 0x4, 0x8, 0xC], addr ≠ 0x100 + 0x10 * a + f) :
    s.readRegister addr = 0 := by
  rw [State.readRegister, State.fixedRegister_eq_none hfixed]
  by_cases hmap : 0x100 ≤ addr ∧ (addr - 0x100) / 0x10 < s.params.nmat
  · obtain ⟨hlow, hslot⟩ := hmap
    have haddr : addr = 0x100 + 0x10 * ((addr - 0x100) / 0x10) + (addr - 0x100) % 0x10 := by omega
    simp only [if_pos (And.intro hlow hslot)]
    exact DenseSlot.descriptor_eq_zero _ fun hf => hslots _ hslot _ hf haddr
  · simp only [if_neg hmap]

/-- CFG_MODE: R43. -/
theorem State.readRegister_mode (s : State) :
    s.readRegister 0x038 = if s.params.swapcolMode = .ordered then 0 else 1 := by
  change SwapcolMode.code s.params.swapcolMode = _
  cases s.params.swapcolMode <;> rfl

/-- Settles O10: a read is one equation of the step, and the map has the fixed registers and the descriptors. -/
theorem registerReadPort : Obligations.RegisterReadPort := by
  refine ⟨fun s addr rest h => step_of_regRead h, fun s => ?_⟩
  refine ⟨rfl, rfl, rfl, rfl, rfl, rfl, rfl, rfl, rfl, rfl, rfl, rfl, s.readRegister_mode, fun a ha => ?_,
    fun addr => State.readRegister_unmapped⟩
  exact ⟨State.readRegister_descriptor (f := 0) ha (by decide), State.readRegister_descriptor (f := 4) ha (by decide),
    State.readRegister_descriptor (f := 8) ha (by decide), State.readRegister_descriptor (f := 12) ha (by decide)⟩

end Sys2Proof.Machine
end

section
/-! PROOFS. The encoding of a command (O1): decoding inverts it (30_encoding.md R80 to R86), and the worked
encodings of R94 (O6). -/

namespace Sys2Proof

/-- The fields of every command's word decode to the command: `Laws.FieldsDecode`, command by command. -/
theorem Instr.fields_decode (i : Instr) : i.fields.decode = .instr i := by
  cases i with
  | fmul u x => exact Laws.FieldsDecode.fmul u x
  | omLdb a off => exact Laws.FieldsDecode.omLdb a off
  | omStb a off value => exact Laws.FieldsDecode.omStb a off value
  | zeroRow a i k => exact Laws.FieldsDecode.zeroRow a i k
  | _ => rfl

@[simp] theorem decode_encode (i : Instr) : decode (encode i) = .instr i := by
  rw [decode, encode, Fields.ofWord_toWord, i.fields_decode]

/-- Settles O1: the word of a command has the command's fields, and its number is below 2 ^ 128. -/
theorem decodeOfEncode : Obligations.DecodeOfEncode := by
  refine fun i => ⟨decode_encode i, Machine.decodeTableWord_eq_some.mpr ?_⟩
  rw [Nat.mod_eq_of_lt (encode i).isLt, BitVec.ofNat_toNat, BitVec.setWidth_eq, decode_encode]

/-- A word that is the word of a command decodes to it. -/
theorem decode_of_encode_eq {i : Instr} {w : Command} (h : encode i = w) : decode w = .instr i :=
  h ▸ decode_encode i

/-- Settles O6: each word is computed from its command, and decodes because it is the word of a command. -/
theorem workedEncodings : Obligations.WorkedEncodings := by
  have haxpy : encode (.axpy 0 0 2 1 4 0x1D) = 0x00000004000100020000000000001D23#128 := by decide
  have hgemm : encode (.gemm 0 1 2 2 2 2) = 0x00000002000200020000000201000027#128 := by decide
  have hzero : encode (.zeroRow 3 0 0x00012000) = 0x00012000000000000000000000030026#128 := by decide
  exact ⟨haxpy, decode_of_encode_eq haxpy, by decide, hgemm, decode_of_encode_eq hgemm,
    hzero, decode_of_encode_eq hzero⟩

end Sys2Proof
end

section
/-! PROOFS. The opcode table (30_encoding.md R84 to R86). Each row of the table is compared with its branch of the
decoder once, in `opcodeTable_decodes`; the statements about words that are commands (O2, O3) and words that are not
(O4, O5) follow from that comparison. -/

namespace Sys2Proof

open Machine

/-! ### Masking a word, field by field -/

/-- The bitwise AND of two words' fields. -/
def Fields.and (f m : Fields) : Fields :=
  { op := f.op &&& m.op, u := f.u &&& m.u, ra := f.ra &&& m.ra, rb := f.rb &&& m.rb, rc := f.rc &&& m.rc,
    z := f.z &&& m.z, a0 := f.a0 &&& m.a0, a1 := f.a1 &&& m.a1, a2 := f.a2 &&& m.a2, a3 := f.a3 &&& m.a3 }

theorem Fields.ofWord_and (w m : Command) :
    Fields.ofWord (w &&& m) = (Fields.ofWord w).and (Fields.ofWord m) := by
  simp only [Fields.ofWord, Fields.and, BitVec.extractLsb'_and]

theorem Fields.ofWord_inj {w v : Command} : Fields.ofWord w = Fields.ofWord v ↔ w = v :=
  ⟨fun h => by rw [← Fields.toWord_ofWord w, h, Fields.toWord_ofWord], congrArg _⟩

theorem OpcodeRow.admits_iff {row : OpcodeRow} {w : Command} : row.admits w = true ↔ w &&& row.mask = row.pattern :=
  beq_iff_eq

theorem OpcodeRow.admits_toWord_iff {row : OpcodeRow} {f : Fields} :
    row.admits f.toWord = true ↔ f.and (Fields.ofWord row.mask) = Fields.ofWord row.pattern := by
  rw [OpcodeRow.admits_iff, ← Fields.ofWord_inj, Fields.ofWord_and, Fields.ofWord_toWord]

@[simp] theorem Octet.and_ones (x : Octet) : x &&& 0xFF#8 = x := BitVec.and_allOnes
@[simp] theorem Index.and_ones (x : Index) : x &&& 0xFFFF#16 = x := BitVec.and_allOnes
@[simp] theorem Fields.z_and_ones (x : BitVec 24) : x &&& 0xFFFFFF#24 = x := BitVec.and_allOnes

/-! ### Operands that share a field or span two: 30_encoding.md R82, R83 -/

/-- An index is its high octet and its low octet. -/
theorem Index.high_append_low (x : Index) : x.extractLsb' 8 8 ++ x.extractLsb' 0 8 = x :=
  BitVec.extractLsb'_append_extractLsb' (w := 8) (len := 8) (x := x)

/-- Masking with the high octet keeps it and clears the low one. -/
theorem Index.and_high (x : Index) : x &&& 0xFF00#16 = x.extractLsb' 8 8 ++ 0#8 := by
  calc x &&& 0xFF00#16 = (x.extractLsb' 8 8 ++ x.extractLsb' 0 8) &&& (0xFF#8 ++ 0#8) := by
        rw [Index.high_append_low]; rfl
    _ = x.extractLsb' 8 8 ++ 0#8 := by rw [BitVec.and_append, Octet.and_ones, BitVec.and_zero]

/-- The mask of `a0` in FMUL tests the octet that the operand leaves unused. -/
theorem Index.and_high_eq_zero (x : Index) : x &&& 0xFF00#16 = 0#16 ↔ x.extractLsb' 8 8 = 0#8 := by
  rw [Index.and_high, show 0#16 = 0#8 ++ 0#8 from rfl, BitVec.append_left_inj]

/-- An index with its high octet zero is the operand of FMUL in its low octet. -/
theorem Index.setWidth_low {x : Index} (h : x.extractLsb' 8 8 = 0#8) : (x.extractLsb' 0 8).setWidth 16 = x := by
  calc (x.extractLsb' 0 8).setWidth 16 = 0#8 ++ x.extractLsb' 0 8 := BitVec.setWidth_eq_append (by decide)
    _ = x := by rw [← h, Index.high_append_low]

@[simp] theorem joinHalves_low (hi lo : Index) : (joinHalves hi lo).extractLsb' 0 16 = lo :=
  BitVec.extractLsb'_append_eq_right

@[simp] theorem joinHalves_high (hi lo : Index) : (joinHalves hi lo).extractLsb' 16 16 = hi :=
  BitVec.extractLsb'_append_eq_left

/-! ### The decoder on a defined opcode -/

theorem Decoded.ifUnusedZero_eq_instr {b : Bool} {i j : Instr} :
    Decoded.ifUnusedZero b i = .instr j ↔ b = true ∧ i = j := by
  cases b <;> simp [Decoded.ifUnusedZero]

theorem Decoded.ifUnusedZero_ne_undefined (b : Bool) (i : Instr) :
    Decoded.ifUnusedZero b i ≠ .illegal .undefinedOpcode := by
  cases b <;> simp [Decoded.ifUnusedZero]

/-- The opcode of a row: R84. -/
def OpcodeRow.opcode (row : OpcodeRow) : Octet := (Fields.ofWord row.pattern).op

/-- On these fields the decoder tests exactly the bits of the row's mask, and reads a command of the row's mnemonic
that has these fields when it passes: R84, R86. -/
def OpcodeRow.Decodes (row : OpcodeRow) (f : Fields) : Prop :=
  ∃ i, f.decode = .ifUnusedZero (row.admits f.toWord) i ∧ mnemonicOf i = row.mnemonic ∧
    (row.admits f.toWord = true → i.fields = f)

/-- It is enough that the decoder's own test `b` is the row's mask, read field by field. -/
theorem OpcodeRow.decodes_of {row : OpcodeRow} {f : Fields} {b : Bool} {i : Instr}
    (hdec : f.decode = .ifUnusedZero b i) (hname : mnemonicOf i = row.mnemonic)
    (hmask : f.and (Fields.ofWord row.mask) = Fields.ofWord row.pattern ↔ b = true)
    (hfields : b = true → i.fields = f) : row.Decodes f := by
  have hb : row.admits f.toWord = b := Bool.eq_iff_iff.mpr (OpcodeRow.admits_toWord_iff.trans hmask)
  exact ⟨i, hb ▸ hdec, hname, hb ▸ hfields⟩

/-- Every row of the table agrees with the decoder's branch for its opcode. In each row the branch and the mnemonic
are computed, the mask is 0 or all ones on every field but one (`Index.and_high_eq_zero`), and with the unused fields
zero the command has the fields it was read from. -/
theorem opcodeTable_decodes : ∀ row ∈ opcodeTable, ∀ f : Fields, f.op = row.opcode → row.Decodes f := by
  simp only [opcodeTable, List.forall_mem_cons, List.not_mem_nil, IsEmpty.forall_iff, implies_true, and_true]
  and_intros
  all_goals
    rintro ⟨op, u, ra, rb, rc, z, a0, a1, a2, a3⟩ (rfl : op = _)
    refine OpcodeRow.decodes_of rfl rfl ?mask ?fields
    case mask => simp [OpcodeRow.opcode, Fields.and, Fields.ofWord, Index.and_high_eq_zero, and_assoc]
    case fields => simp +contextual [OpcodeRow.opcode, Fields.ofWord, Instr.fields, Fields.ofOp, Index.setWidth_low]

/-- `OpcodeRow.Decodes` for a word. -/
theorem decode_of_opcode {row : OpcodeRow} (hrow : row ∈ opcodeTable) {w : Command}
    (hop : (Fields.ofWord w).op = row.opcode) :
    ∃ i, decode w = .ifUnusedZero (row.admits w) i ∧ mnemonicOf i = row.mnemonic ∧
      (row.admits w = true → encode i = w) := by
  obtain ⟨i, hdec, hname, hfields⟩ := opcodeTable_decodes row hrow _ hop
  rw [Fields.toWord_ofWord] at hdec hfields
  exact ⟨i, hdec, hname, fun h => by rw [encode, hfields h, Fields.toWord_ofWord]⟩

/-! ### The undefined opcodes -/

/-- The opcodes of the table: R84. -/
def definedOpcodes : List Nat :=
  [0x01, 0x10, 0x11, 0x12, 0x18, 0x19, 0x1A, 0x1B, 0x20, 0x21, 0x22, 0x23, 0x24, 0x25, 0x26, 0x27,
    0x30, 0x31, 0x32, 0x33, 0x34, 0x38, 0x39, 0x3A, 0x3B, 0x40, 0x41, 0x42, 0x43, 0x44, 0x50, 0x51]

theorem opcodeTable_opcodes : (opcodeTable.map fun row => row.opcode.toNat) = definedOpcodes := by decide

theorem toNat_mem_definedOpcodes_iff {op : Octet} :
    op.toNat ∈ definedOpcodes ↔ ∃ row ∈ opcodeTable, op = row.opcode := by
  simp only [← opcodeTable_opcodes, List.mem_map, eq_comm, BitVec.toNat_eq]

/-- The last branch of the decoder is for the opcodes outside the table. -/
theorem Fields.decode_of_undefined {f : Fields} (h : f.op.toNat ∉ definedOpcodes) :
    f.decode = .illegal .undefinedOpcode := by
  unfold Fields.decode
  split
  case h_33 => rfl
  all_goals
    rename_i hop
    exact absurd (hop ▸ by decide) h

theorem decode_eq_undefined_iff {w : Command} :
    decode w = .illegal .undefinedOpcode ↔ (Fields.ofWord w).op.toNat ∉ definedOpcodes := by
  refine ⟨fun h hop => ?_, Fields.decode_of_undefined⟩
  obtain ⟨row, hrow, hop⟩ := toNat_mem_definedOpcodes_iff.mp hop
  obtain ⟨i, hdec, -⟩ := decode_of_opcode hrow hop
  exact Decoded.ifUnusedZero_ne_undefined _ _ (hdec.symm.trans h)

theorem not_mem_definedOpcodes_iff {op : Nat} (h : op < 256) : op ∉ definedOpcodes ↔
    op = 0x00 ∨ (0x02 ≤ op ∧ op ≤ 0x0F) ∨ (0x13 ≤ op ∧ op ≤ 0x17) ∨ (0x1C ≤ op ∧ op ≤ 0x1F) ∨
      (0x28 ≤ op ∧ op ≤ 0x2F) ∨ (0x35 ≤ op ∧ op ≤ 0x37) ∨ (0x3C ≤ op ∧ op ≤ 0x3F) ∨
      (0x45 ≤ op ∧ op ≤ 0x4F) ∨ (0x52 ≤ op ∧ op ≤ 0xFF) := by
  simp only [definedOpcodes, List.mem_cons, List.not_mem_nil, or_false]
  omega

/-! ### Words that are commands -/

/-- A word that decodes to a command is admitted by a row with the command's mnemonic, and is the command's word. -/
theorem decode_eq_instr {w : Command} {i : Instr} (h : decode w = .instr i) :
    encode i = w ∧ ∃ row ∈ opcodeTable, row.admits w = true ∧ mnemonicOf i = row.mnemonic := by
  by_cases hop : (Fields.ofWord w).op.toNat ∈ definedOpcodes
  · obtain ⟨row, hrow, hop⟩ := toNat_mem_definedOpcodes_iff.mp hop
    obtain ⟨j, hdec, hname, hword⟩ := decode_of_opcode hrow hop
    obtain ⟨hadm, rfl⟩ := Decoded.ifUnusedZero_eq_instr.mp (hdec.symm.trans h)
    exact ⟨hword hadm, row, hrow, hadm, hname⟩
  · rw [decode_eq_undefined_iff.mpr hop] at h
    cases h

/-- Settles O2: the row that admits the word also gives the command its fields. -/
theorem encodeOfDecode : Obligations.EncodeOfDecode := fun _ _ h => (decode_eq_instr h).1

/-- Every mask has the whole opcode octet. -/
theorem opcodeTable_mask_op : ∀ row ∈ opcodeTable, (Fields.ofWord row.mask).op = 0xFF#8 := by decide

theorem OpcodeRow.op_of_admits {row : OpcodeRow} (hrow : row ∈ opcodeTable) {w : Command}
    (h : row.admits w = true) : (Fields.ofWord w).op = row.opcode := by
  have hop := congrArg Fields.op (congrArg Fields.ofWord (OpcodeRow.admits_iff.mp h))
  rwa [Fields.ofWord_and, Fields.and, opcodeTable_mask_op row hrow, Octet.and_ones] at hop

theorem opcodeTable_mnemonics_nodup : (opcodeTable.map OpcodeRow.mnemonic).Nodup := by decide

/-- Settles O3: a row admits words of its own opcode only, and no two rows share a mnemonic. -/
theorem decoderAgreesWithOpcodeTable : Obligations.DecoderAgreesWithOpcodeTable := by
  intro row hrow w
  constructor
  · intro hadm
    obtain ⟨i, hdec, hname, -⟩ := decode_of_opcode hrow (OpcodeRow.op_of_admits hrow hadm)
    exact ⟨i, hdec.trans (Decoded.ifUnusedZero_eq_instr.mpr ⟨hadm, rfl⟩), hname⟩
  · rintro ⟨i, hdec, hname⟩
    obtain ⟨-, row', hrow', hadm, hname'⟩ := decode_eq_instr hdec
    have hsame : row' = row :=
      List.inj_on_of_nodup_map opcodeTable_mnemonics_nodup hrow' hrow (hname'.symm.trans hname)
    exact hsame ▸ hadm

/-! ### Words that are not -/

/-- Issuing an illegal word takes the fault ILLEGAL, whatever makes the word illegal: R85, R86, R203. -/
theorem issue_illegal {s : State} {w : Command} {why : Illegal} (hs : s.halted = false)
    (hw : decode w = .illegal why) : issue w s = .next { s with
      status := s.status ||| 1, cause := 3, fcmd := w.extractLsb' 0 32, reply := .halt 3 } := by
  rw [issue_of_illegal hs hw, tellOutcome_next, State.outcomeReply, State.takeHalt_halted]
  rfl

/-- Settles O4: the ranges are the complement of the opcodes of the table. -/
theorem undefinedOpcodesAreIllegal : Obligations.UndefinedOpcodesAreIllegal := fun w =>
  ⟨decode_eq_undefined_iff.trans (not_mem_definedOpcodes_iff (Fields.ofWord w).op.isLt),
    fun hw _ hs => issue_illegal hs hw⟩

/-- Settles O5: on the opcode of a row the decoder tests the row's mask. -/
theorem unusedBitsAreIllegal : Obligations.UnusedBitsAreIllegal := by
  intro row hrow w hop
  obtain ⟨i, hdec, -⟩ := decode_of_opcode hrow hop
  constructor
  · intro hmask
    have hadm : row.admits w = false := beq_false_of_ne hmask
    have hill : decode w = .illegal .unusedBits := by rw [hdec, hadm]; rfl
    exact ⟨hill, fun s hs => issue_illegal hs hill⟩
  · intro hmask
    exact ⟨i, hdec.trans (Decoded.ifUnusedZero_eq_instr.mpr ⟨OpcodeRow.admits_iff.mpr hmask, rfl⟩)⟩

end Sys2Proof
end

section
/-! PROOFS. The carriage of a word as 16 octets (O7): 30_encoding.md R89. Both directions of the round trip compare
bits: bit `j` of the word is bit `j % 8` of octet `j / 8`. -/

namespace Sys2Proof

/-! ### From octets to the word -/

theorem Command.ofOctets_cons (b : Octet) (bs : List Octet) :
    Command.ofOctets (b :: bs) = (Command.ofOctets bs <<< 8) ||| b.setWidth 128 := rfl

theorem Command.getLsbD_ofOctets (bs : List Octet) {j : Nat} (hj : j < 128) :
    (Command.ofOctets bs).getLsbD j = (bs.getD (j / 8) 0).getLsbD (j % 8) := by
  induction bs generalizing j with
  | nil => simp [Command.ofOctets]
  | cons b bs ih =>
    rw [Command.ofOctets_cons, BitVec.getLsbD_or, BitVec.getLsbD_shiftLeft, BitVec.getLsbD_setWidth]
    rcases Nat.lt_or_ge j 8 with h | h
    · simp [hj, h, Nat.div_eq_of_lt h, Nat.mod_eq_of_lt h]
    · obtain ⟨k, rfl⟩ : ∃ k, j = k + 8 := ⟨j - 8, by omega⟩
      simp [hj, ih (j := k) (by omega)]

/-! ### From the word to octets -/

@[simp] theorem Command.length_toOctets (w : Command) : (Command.toOctets w).length = 16 := by
  simp [Command.toOctets]

theorem Command.getElem?_toOctets (w : Command) {n : Nat} (hn : n < 16) :
    (Command.toOctets w)[n]? = some (w.extractLsb' (8 * n) 8) := by
  simp [Command.toOctets, hn]

/-- A part of a part of a word, by its place in the word. -/
theorem extractLsb'_of_extractLsb' {n len : Nat} (x : BitVec n) (start : Nat) {s l : Nat} (h : s + l ≤ len) :
    (x.extractLsb' start len).extractLsb' s l = x.extractLsb' (start + s) l := by
  refine BitVec.eq_of_getLsbD_eq fun k hk => ?_
  have hin : s + k < len := by omega
  simp [BitVec.getLsbD_extractLsb', hin, Nat.add_assoc]

/-- The octet at bit `s` of the field of `len` bits at bit `start`. -/
theorem Command.getElem?_toOctets_field (w : Command) (start len s : Nat) {n : Nat} (hn : n < 16)
    (hplace : 8 * n = start + s) (hlen : s + 8 ≤ len) :
    (Command.toOctets w)[n]? = some ((w.extractLsb' start len).extractLsb' s 8) := by
  rw [Command.getElem?_toOctets w hn, hplace, extractLsb'_of_extractLsb' w start hlen]

/-- The octets of the two halves of `a0` to `a3`. -/
theorem Command.getElem?_toOctets_index (w : Command) (start : Nat) {n : Nat} (hn : n + 1 < 16)
    (hplace : 8 * n = start) :
    (Command.toOctets w)[n]? = some ((w.extractLsb' start 16).extractLsb' 0 8) ∧
      (Command.toOctets w)[n + 1]? = some ((w.extractLsb' start 16).extractLsb' 8 8) :=
  ⟨w.getElem?_toOctets_field start 16 0 (by omega) hplace (by decide),
    w.getElem?_toOctets_field start 16 8 hn (by omega) (by decide)⟩

/-! ### There and back -/

theorem Command.ofOctets_toOctets (w : Command) : Command.ofOctets (Command.toOctets w) = w := by
  refine BitVec.eq_of_getLsbD_eq fun j hj => ?_
  have hn : j / 8 < 16 := by omega
  have hlow : j % 8 < 8 := by omega
  rw [Command.getLsbD_ofOctets _ hj, List.getD_eq_getElem?_getD, Command.getElem?_toOctets w hn, Option.getD_some,
    BitVec.getLsbD_extractLsb', Nat.div_add_mod]
  simp [hlow]

theorem Command.toOctets_ofOctets {bs : List Octet} (h : bs.length = 16) :
    Command.toOctets (Command.ofOctets bs) = bs := by
  refine List.ext_getElem (by simp [h]) fun n hn hn' => ?_
  rw [← Option.some_inj, ← List.getElem?_eq_getElem hn, Command.getElem?_toOctets _ (h ▸ hn'), Option.some_inj]
  refine BitVec.eq_of_getLsbD_eq fun k hk => ?_
  have hdiv : (8 * n + k) / 8 = n := by omega
  have hmod : (8 * n + k) % 8 = k := by omega
  rw [BitVec.getLsbD_extractLsb', Command.getLsbD_ofOctets bs (by omega), hdiv, hmod]
  simp [hk, hn']

/-! ### The octets of a command -/

/-- No command uses the field `z`: R80, R82. -/
theorem Instr.fields_z (i : Instr) : i.fields.z = 0 := by cases i <;> rfl

theorem encode_reserved_octets (i : Instr) {n : Nat} (hlo : 5 ≤ n) (hhi : n < 8) :
    (Command.toOctets (encode i))[n]? = some 0 := by
  have hz : (encode i).extractLsb' 40 24 = 0#24 := (congrArg Fields.z (Fields.ofWord_toWord i.fields)).trans i.fields_z
  rw [(encode i).getElem?_toOctets_field 40 24 (8 * n - 40) (by omega) (by omega) (by omega), hz,
    BitVec.extractLsb'_zero]
  rfl

/-- Settles O7: the fields by their places in the word, the reserved octets by `z`, and the two round trips. -/
theorem octetSerialisation : Obligations.OctetSerialisation := by
  refine ⟨fun w => ?_, fun i => ?_, fun _ => Command.toOctets_ofOctets⟩
  · obtain ⟨h8, h9⟩ := w.getElem?_toOctets_index 64 (n := 8) (by decide) rfl
    obtain ⟨h10, h11⟩ := w.getElem?_toOctets_index 80 (n := 10) (by decide) rfl
    obtain ⟨h12, h13⟩ := w.getElem?_toOctets_index 96 (n := 12) (by decide) rfl
    obtain ⟨h14, h15⟩ := w.getElem?_toOctets_index 112 (n := 14) (by decide) rfl
    exact ⟨w.length_toOctets, w.ofOctets_toOctets, fun _ => w.getElem?_toOctets, rfl, rfl, rfl, rfl, rfl,
      h8, h9, h10, h11, h12, h13, h14, h15⟩
  · exact ⟨encode_reserved_octets i (by decide) (by decide), encode_reserved_octets i (by decide) (by decide),
      encode_reserved_octets i (by decide) (by decide)⟩

end Sys2Proof
end

section
/-! PROOFS. The check of slot numbers (O17): every command makes it before its own rule (30_encoding.md R87, R88). -/

namespace Sys2Proof.Machine

/-- Every command is the conclusion of the slot check over exactly the slots it names. A command that names none
passes the check. -/
theorem exec_checks_slots (i : Instr) (s : State) :
    ∃ rest, exec i s = conclude (encode i) (withSlots s i.denseSlots i.sparseSlots rest) := by
  cases i with
  | fmul u x => exact ⟨.done _, rfl⟩
  | cmDestroy => exact ⟨.done _, rfl⟩
  | _ => exact ⟨_, rfl⟩

/-- Settles O17: a command that is not well formed fails the check it begins with. -/
theorem slotNumbersAreChecked : Obligations.SlotNumbersAreChecked := by
  intro i s hslots
  obtain ⟨rest, hexec⟩ := exec_checks_slots i s
  have hfail : withSlots s i.denseSlots i.sparseSlots rest = .raise .slot s :=
    withSlots_fail (by simpa only [Instr.WellFormed, List.all_eq_true, decide_eq_true_eq] using hslots)
  rw [haltsWith_iff, hexec, hfail, conclude_raise]

end Sys2Proof.Machine
end

section
/-! PROOFS. The statements of 40_field_multiply.md: the laws of the table product under TBL-FIELD (O25), the default
tables T_11D (O24) and FMUL (O23). -/

namespace Sys2Proof

/-! ### The two halves of an octet, and the operand mask of a row -/

theorem Nibble.setWidth_octet (n : Nibble) : (n.setWidth 8 : Octet) = 0#4 ++ n :=
  BitVec.setWidth_eq_append (by decide)

/-- An octet is the sum of its high half, in place, and its low half. -/
theorem Octet.high_xor_low (x : Octet) :
    x.extractLsb' 4 4 ++ 0#4 ^^^ (x.extractLsb' 0 4).setWidth 8 = x := by
  calc x.extractLsb' 4 4 ++ 0#4 ^^^ (x.extractLsb' 0 4).setWidth 8
      = x.extractLsb' 4 4 ++ x.extractLsb' 0 4 := by
        rw [Nibble.setWidth_octet, BitVec.xor_append, BitVec.xor_zero, BitVec.zero_xor]
    _ = x := BitVec.extractLsb'_append_extractLsb' (w := 4) (len := 4) (x := x)

/-- A word that a row admits has in `a0` the bits of the row's pattern. -/
theorem OpcodeRow.a0_of_admits {row : OpcodeRow} {w : Command} (h : row.admits w = true) :
    (Fields.ofWord w).a0 &&& (Fields.ofWord row.mask).a0 = (Fields.ofWord row.pattern).a0 :=
  congrArg Fields.a0 ((Fields.ofWord_and w row.mask).symm.trans (congrArg Fields.ofWord (OpcodeRow.admits_iff.mp h)))

end Sys2Proof

namespace Sys2Proof.Machine

/-! ### A field on the octets (R102) -/

theorem FieldMul.mul_zero {mul : Octet → Octet → Octet} (h : FieldMul mul) (x : Octet) : mul x 0 = 0 := by
  simpa using h.distrib x 0 0

theorem FieldMul.zero_mul {mul : Octet → Octet → Octet} (h : FieldMul mul) (x : Octet) : mul 0 x = 0 := by
  rw [h.comm, h.mul_zero]

/-- Multiplying by an inverse of the scalar undoes multiplying by the scalar. -/
theorem FieldMul.bijective {mul : Octet → Octet → Octet} (h : FieldMul mul) {u : Octet} (hu : u ≠ 0) :
    Function.Bijective (mul u) := by
  obtain ⟨v, huv⟩ := h.inverse u hu
  refine Function.bijective_iff_has_inverse.mpr ⟨mul v, fun x => ?_, fun x => ?_⟩
  · rw [← h.assoc, h.comm v u, huv, h.one]
  · rw [← h.assoc, huv, h.one]

/-! ### The table product (R100, R101) -/

/-- An operand below 16 reads entry 0 of the high table. -/
theorem Tables.tmul_nibble (t : Tables) (u : Octet) (n : Nibble) :
    t.tmul u (n.setWidth 8) = t.hiAt u 0 ^^^ t.loAt u n := by
  rw [Tables.tmul, Nibble.setWidth_octet, BitVec.extractLsb'_append_eq_left, BitVec.extractLsb'_append_eq_right]
  rfl

/-- The two table entries are the products with the two halves of the octet, and the product is additive. -/
theorem TblField.tmul_eq {tb : Tables} {mul : Octet → Octet → Octet} (h : TblField tb mul) (u x : Octet) :
    tb.tmul u x = mul u x := by
  obtain ⟨hfield, hhi, hlo⟩ := h
  rw [Tables.tmul, hhi, hlo, ← hfield.distrib, Octet.high_xor_low]

/-- Settles O25: the table product is the product of the field, and the entries are products with one half zero. -/
theorem fieldTablesGiveFieldLaws : Obligations.FieldTablesGiveFieldLaws := by
  intro tb mul h
  obtain rfl : tb.tmul = mul := funext₂ h.tmul_eq
  obtain ⟨hfield, hhi, hlo⟩ := h
  refine ⟨fun _ _ => rfl, hfield.zero_mul, hfield.mul_zero, hfield.one, hfield.distrib, hfield.comm,
    fun u v x => (hfield.assoc u v x).symm, fun _ => hfield.bijective, fun u => ⟨?_, ?_⟩, fun n => ⟨?_, ?_⟩⟩
  · exact (hhi u 0).trans (hfield.mul_zero u)
  · exact (hlo u 0).trans (hfield.mul_zero u)
  · exact (hlo 1 n).trans (hfield.one _)
  · exact (hhi 1 n).trans (hfield.one _)

/-! ### The default tables (R104) -/

theorem tableOf_row (entry : Nat → Nat → Octet) {u : Nat} (hu : u < 256) :
    (tableOf entry)[u].toList = (List.range 16).map (entry u) := by
  simp [tableOf]

theorem tables11D_hi_row {u : Nat} (hu : u < 256) : tables11D.hi[u].toList =
    (List.range 16).map fun h => polyMul11D (BitVec.ofNat 8 u) (BitVec.ofNat 8 (h * 16)) := tableOf_row _ hu

theorem tables11D_lo_row {u : Nat} (hu : u < 256) : tables11D.lo[u].toList =
    (List.range 16).map fun l => polyMul11D (BitVec.ofNat 8 u) (BitVec.ofNat 8 l) := tableOf_row _ hu

/-- Settles O24: by TBL-FIELD every entry and every table product is a product of R104's algorithm, which is run for
the samples. -/
theorem defaultTablesMatchSamples : Obligations.DefaultTablesMatchSamples := by
  refine ⟨tables11D_tblField, fun u n => ⟨tables11D_tblField.2.1 u n, tables11D_tblField.2.2 u n⟩, ?_⟩
  simp only [tables11D_hi_row, tables11D_lo_row, tables11D_tblField.tmul_eq]
  decide +kernel

/-! ### FMUL (R106) -/

/-- The fields of a command are those of its word: R80. -/
theorem encodedAs_iff {i : Instr} {f : Fields} : EncodedAs i f ↔ i.fields = f := by
  rw [EncodedAs, encode, Fields.ofWord_toWord]

/-- FMUL names no slot and has no fast path. -/
theorem exec_fmul (u x : Octet) (s : State) :
    exec (.fmul u x) s = .next { s with result := (s.params.tables.tmul u x).setWidth 32 } := rfl

/-- Settles O23: FMUL leaves the table product, and its row of the opcode table has the high octet of `a0` in its
mask. -/
theorem fmulReturnsTableProduct : Obligations.FmulReturnsTableProduct := by
  refine ⟨fun s u x => ⟨encodedAs_iff.mpr rfl, rfl⟩, fun s u n => ?_, fun w hop hhigh => ?_⟩
  · rw [exec_fmul, Tables.tmul_nibble]
  · obtain ⟨hillegal, -⟩ := unusedBitsAreIllegal _ (List.mem_cons_self : _ ∈ opcodeTable) w hop
    refine (hillegal fun hmask => hhigh ?_).1
    exact (Index.and_high_eq_zero _).mp (OpcodeRow.a0_of_admits (OpcodeRow.admits_iff.mpr hmask))

end Sys2Proof.Machine
end

section
/-! PROOFS. What CR_ADD and CR_SADD do once their no-operation case is past (44_sparse_convert_arith.md R173, R174),
said once for both, and the statement of CR_SADD (O54). -/

namespace Sys2Proof.Machine

/-! ### The branches of the sum through SCR: R173, R174 -/

theorem addThroughScratch_of_outside {f : Octet → Octet} {sa sb w : Index} {s : State}
    (h : ¬ ((s.row sa).IndicesBelow w.toNat ∧ (s.row sb).IndicesBelow w.toNat)) :
    addThroughScratch f sa sb w s = .raise .bounds s := by
  rw [addThroughScratch]
  by_cases ha : (s.row sa).IndicesBelow w.toNat
  · rw [if_neg (not_not.mpr ha), if_pos fun hb => h ⟨ha, hb⟩]
  · rw [if_pos ha]

theorem addThroughScratch_of_wide {f : Octet → Octet} {sa sb w : Index} {s : State}
    (ha : (s.row sa).IndicesBelow w.toNat) (hb : (s.row sb).IndicesBelow w.toNat) (hw : s.params.scrCap < w.toNat) :
    addThroughScratch f sa sb w s = .raise .alloc s := by
  rw [addThroughScratch, if_neg (not_not.mpr ha), if_neg (not_not.mpr hb), if_pos hw]

/-- Past the checks SCR holds the sum, column by column, and is packed into the destination row. -/
theorem addThroughScratch_of_inside {f : Octet → Octet} {sa sb w : Index} {s : State}
    (ha : (s.row sa).IndicesBelow w.toNat) (hb : (s.row sb).IndicesBelow w.toNat) (hw : w.toNat ≤ s.params.scrCap) :
    ∃ scr, (∀ c, c < w.toNat → (Memory.readRow scr 0 w.toNat).getD c 0 =
        (s.row sa).denseAt c ^^^ (s.row sb).xorAt f c) ∧
      addThroughScratch f sa sb w s = State.putRow { s with scr := scr } sa
        ((s.row sa).pack s.params (Memory.readRow scr 0 w.toNat)) := by
  refine ⟨scratchSum f s.scr (s.row sa) (s.row sb) w.toNat, fun c hc => ?_, ?_⟩
  · rw [List.getD_eq_getElem _ _ (by simpa using hc), Memory.getElem_readRow, Nat.zero_add,
      read_scratchSum f s.scr _ _ hc]
  · rw [addThroughScratch, if_neg (not_not.mpr ha), if_neg (not_not.mpr hb), if_neg (not_lt.mpr hw)]

/-- A command that comes to the sum through SCR does what `SumsThroughScratch` says: R174, R175. -/
theorem sumsThroughScratch_of_exec {i : Instr} {f : Octet → Octet} {sa sb w : Index} {s : State} (hs : s.Wf)
    (hsa : s.HasRow sa) (hexec : exec i s = conclude (encode i) (addThroughScratch f sa sb w s)) :
    SumsThroughScratch i f sa sb w s := by
  refine ⟨fun hout => ?_, fun ha hb hw => ?_, fun ha hb hw hcap => ?_, fun ha hb hw hcap => ?_⟩
  · rw [haltsWith_iff, hexec, addThroughScratch_of_outside hout, conclude_raise]
  · rw [haltsWith_iff, hexec, addThroughScratch_of_wide ha hb hw, conclude_raise]
  · obtain ⟨scr, hsum, hadd⟩ := addThroughScratch_of_inside (f := f) ha hb hw
    have hpack := SparseRow.pack_none (Memory.length_readRow scr 0 w.toNat) hsum hcap
    exact ⟨scr, by rw [hexec, hadd, hpack, State.putRow, conclude_raise]⟩
  · obtain ⟨scr, hsum, hadd⟩ := addThroughScratch_of_inside (f := f) ha hb hw
    obtain ⟨t, hpack, hpackOf, -⟩ := SparseRow.pack_some hs.legal (hs.row_wf hsa) (Nat.le_of_lt w.isLt)
      (Memory.length_readRow scr 0 w.toNat) hsum hcap
    refine ⟨State.setRow { s with scr := scr } sa t, ?_, onlyRow_setRow _ sa t, ?_⟩
    · rw [hexec, hadd, hpack, State.putRow, conclude_done]
    · rw [State.row_setRow_same]
      exacts [hpackOf, hs.row_lt hsa]

/-! ### CR_SADD (R175) -/

theorem exec_crSadd_zero {sa sb w : Index} {s : State} (ha : s.HasRow sa) (hb : s.HasRow sb) :
    exec (.crSadd sa sb 0 w) s = .next s := by
  rw [exec, execCrSadd, withSlots_sparse_two ha hb, if_pos rfl, conclude_done]

/-- Every scalar but 0 reads the tables, the scalar 1 too: R105. -/
theorem exec_crSadd_nonzero {sa sb w : Index} {u : Octet} {s : State} (ha : s.HasRow sa) (hb : s.HasRow sb)
    (hu : u ≠ 0) : exec (.crSadd sa sb u w) s =
      conclude (encode (.crSadd sa sb u w)) (addThroughScratch (s.params.tables.tmul u) sa sb w s) := by
  rw [exec, execCrSadd, withSlots_sparse_two ha hb, if_neg hu]

/-- Settles O54: the scalar 0 is told apart first, and every other scalar comes to the sum through SCR. -/
theorem crSaddSumsScaledRow : Obligations.CrSaddSumsScaledRow := by
  intro s sa sb u w hs ha hb
  refine ⟨encodedAs_iff.mpr rfl, ?_, fun hu => sumsThroughScratch_of_exec hs ha (exec_crSadd_nonzero ha hb hu)⟩
  rintro rfl
  exact exec_crSadd_zero ha hb

end Sys2Proof.Machine
end

section
/-! PROOFS. The statements of 41_dense_lifecycle_access.md: the lifecycle of a dense slot (O26, O27, O28) and the
access to its octets and elements (O29, O30, O31, O32). -/

namespace Sys2Proof.Machine

/-! ### Commands with one check -/

/-- A command over slots the block has, with one check of its own: it takes the fault when the check says so, and
completes otherwise (60_exceptions.md R204). -/
theorem exec_of_check {i : Instr} {s t : State} {ds : List Octet} {p : Prop} [Decidable p] {c : Cause}
    (hslots : ∀ a ∈ ds, s.HasSlot a)
    (hexec : exec i s = conclude (encode i) (withSlots s ds [] (if p then .raise c s else .done t))) :
    (p → HaltsWith i s c) ∧ (¬ p → exec i s = .next t) := by
  have hpass := withSlots_pass (rest := if p then .raise c s else .done t) hslots
    fun r hr => absurd hr List.not_mem_nil
  rw [hpass] at hexec
  refine ⟨fun hp => ?_, fun hp => ?_⟩
  · rw [haltsWith_iff, hexec, if_pos hp, conclude_raise]
  · rw [hexec, if_neg hp, conclude_done]

/-! ### A slot as a whole after an update -/

theorem State.len_setSlot_same (s : State) (a : Octet) (d : DenseSlot) (h : a.toNat < s.dense.length) :
    (s.setSlot a d).len a = d.len := by
  rw [State.len, s.slot_setSlot_same a d h]

theorem State.dRead_setSlot_same (s : State) (a : Octet) (d : DenseSlot) (o : Nat) (h : a.toNat < s.dense.length) :
    (s.setSlot a d).dRead a o = Memory.read d.buf o := by
  rw [State.dRead, State.buf, s.slot_setSlot_same a d h]

/-! ### What OM_RESIZE, OM_COPY and OM_DESTROY make of a slot: R111 to R113 -/

theorem exec_omResize {s : State} {a : Octet} (ha : s.HasSlot a) (rows cols : Index) :
    (s.params.dmCap < rows.toNat * s.params.stride cols.toNat → HaltsWith (.omResize a rows cols) s .alloc) ∧
    (¬ s.params.dmCap < rows.toNat * s.params.stride cols.toNat → exec (.omResize a rows cols) s = .next (s.setSlot a
      { valid := true, rows := rows, cols := cols, stride := BitVec.ofNat 17 (s.params.stride cols.toNat),
        buf := [] })) :=
  exec_of_check (ds := [a]) (by simpa using ha) rfl

/-- Settles O26: the stride fits its register, so the length is the checked product, and the buffer lists no octet. -/
theorem omResizeMakesZeroMatrix : Obligations.OmResizeMakesZeroMatrix := by
  intro s a rows cols hs ha
  obtain ⟨hhalt, hdone⟩ := exec_omResize ha rows cols
  refine ⟨encodedAs_iff.mpr rfl, hhalt, fun hn => ⟨_, hdone (not_lt.mpr hn), onlySlot_setSlot s a _, ?_⟩⟩
  have hstride := hs.legal.stride_index cols
  rw [s.slot_setSlot_same a _ (hs.slot_lt ha), s.len_setSlot_same a _ (hs.slot_lt ha)]
  refine ⟨rfl, rfl, rfl, hstride, ?_, fun o => ?_, ?_, ?_⟩
  · rw [DenseSlot.len, if_pos rfl, hstride]
  · rw [s.dRead_setSlot_same a _ o (hs.slot_lt ha), Memory.read_nil]
  · exact (Params.le_stride hs.align_pos cols.toNat).trans_eq hstride.symm
  · rw [hstride, Params.stride_mod]

/-- The `len(src)` octets that OM_COPY copies are the whole buffer of the source: R22, R112. -/
theorem State.Wf.below_buf {s : State} (h : s.Wf) {a : Octet} (ha : s.HasSlot a) :
    Memory.below (s.buf a) (s.len a) = s.buf a :=
  Memory.below_eq_self (h.buf_below ha)

theorem exec_omCopy {s : State} (hs : s.Wf) {dst src : Octet} (hd : s.HasSlot dst) (hsrc : s.HasSlot src) :
    ((s.slot dst).valid = true ∧ s.len dst < s.len src → HaltsWith (.omCopy dst src) s .bounds) ∧
    (¬ ((s.slot dst).valid = true ∧ s.len dst < s.len src) →
      exec (.omCopy dst src) s = .next (s.setSlot dst { s.slot src with valid := true })) := by
  have hcheck := exec_of_check (i := .omCopy dst src) (s := s) (ds := [dst, src]) (by simpa using ⟨hd, hsrc⟩) rfl
  rwa [hs.below_buf hsrc] at hcheck

/-- Settles O27: a slot is never shorter than itself, and an allocated one has its valid bit set already. -/
theorem omCopyIsDeepCopy : Obligations.OmCopyIsDeepCopy := by
  intro s dst src hs hd hsrc
  obtain ⟨hhalt, hdone⟩ := exec_omCopy hs hd hsrc
  refine ⟨encodedAs_iff.mpr rfl, fun hv hlen => hhalt ⟨hv, hlen⟩, fun hfit => ?_, ?_⟩
  · refine ⟨_, hdone ?_, onlySlot_setSlot s dst _, s.slot_setSlot_same dst _ (hs.slot_lt hd)⟩
    rintro ⟨hv, hlen⟩
    rcases hfit with hempty | hle
    · exact Bool.false_ne_true (hempty.symm.trans hv)
    · exact absurd hlen (not_lt.mpr hle)
  · rintro rfl hv
    have hself : { s.slot dst with valid := true } = s.slot dst := by rw [← hv]
    rw [hdone fun hlt => lt_irrefl _ hlt.2, hself, s.setSlot_self dst (hs.slot_lt hd)]

/-- The invariant leaves one value for a slot that is not valid: R21, R22. -/
theorem DenseSlot.Wf.eq_empty {p : Params} {d : DenseSlot} (h : d.Wf p) (hv : d.valid = false) : d = emptyDense := by
  obtain ⟨valid, rows, cols, stride, buf⟩ := d
  obtain ⟨-, -, hzero, -, hbelow⟩ := h
  obtain rfl : valid = false := hv
  obtain ⟨rfl, rfl, rfl⟩ : rows = 0 ∧ cols = 0 ∧ stride = 0 := hzero rfl
  obtain rfl : buf = [] := List.eq_nil_iff_forall_not_mem.mpr fun c hc => Nat.not_lt_zero c.1 (hbelow c hc)
  rfl

theorem exec_omDestroy {s : State} {a : Octet} (ha : s.HasSlot a) :
    exec (.omDestroy a) s = .next (s.setSlot a emptyDense) := by
  rw [exec, execOmDestroy, withSlots_dense_one ha, conclude_done]

/-- Settles O28: the second update of the slot is the first, and a slot that is not valid is the empty slot. -/
theorem omDestroyEmptiesTheSlot : Obligations.OmDestroyEmptiesTheSlot := by
  intro s a hs ha
  refine ⟨encodedAs_iff.mpr rfl, ⟨s.setSlot a emptyDense, exec_omDestroy ha, onlySlot_setSlot s a _,
    s.slot_setSlot_same a _ (hs.slot_lt ha), ?_⟩, fun hv => ?_⟩
  · have ht : (s.setSlot a emptyDense).HasSlot a := ha
    rw [exec_omDestroy ht, State.setSlot_setSlot]
  · rw [exec_omDestroy ha, ← (hs.slot_wf ha).eq_empty hv, s.setSlot_self a (hs.slot_lt ha)]

/-! ### Reading an octet and an element: R115, R117 -/

/-- Settles O29: the range check is the command's one check. -/
theorem omLdbReadsOneOctet : Obligations.OmLdbReadsOneOctet := by
  intro s a off ha
  obtain ⟨hhalt, hdone⟩ := exec_of_check (i := .omLdb a off) (ds := [a]) (by simpa using ha) rfl
  exact ⟨encodedAs_iff.mpr rfl, hhalt, fun hin => hdone (not_le.mpr hin)⟩

/-- Settles O31: the check of the two indices is the command's one check. -/
theorem omGetReadsOneElement : Obligations.OmGetReadsOneElement := by
  intro s a r c ha
  obtain ⟨hhalt, hdone⟩ := exec_of_check (i := .omGet a r c) (ds := [a]) (by simpa using ha) rfl
  exact ⟨encodedAs_iff.mpr rfl, hhalt, fun hr hc => hdone (not_not.mpr ⟨hr, hc⟩)⟩

/-! ### Writing an octet and an element: R116, R118 -/

theorem State.dRead_dWrite (s : State) (a : Octet) (o : Nat) (v : Octet) (b : Nat) (h : a.toNat < s.dense.length) :
    (s.dWrite a o v).dRead a b = if b = o then v else s.dRead a b := by
  rw [State.dWrite, State.dRead_setBuf s a _ b h, Memory.read_write, State.dRead]

/-- `DWrite` writes the octet it names and nothing else: R12. -/
theorem State.dWrite_frame (s : State) (a : Octet) (o : Nat) (v : Octet) (h : a.toNat < s.dense.length) :
    OnlyBufferOf a s (s.dWrite a o v) ∧ (s.dWrite a o v).dRead a o = v ∧
      ∀ b, b ≠ o → (s.dWrite a o v).dRead a b = s.dRead a b := by
  refine ⟨onlyBufferOf_setBuf s a _ h, ?_, fun b hb => ?_⟩
  · rw [s.dRead_dWrite a o v o h, if_pos rfl]
  · rw [s.dRead_dWrite a o v b h, if_neg hb]

/-- Settles O30: past the range check the command is one `DWrite`. -/
theorem omStbWritesOneOctet : Obligations.OmStbWritesOneOctet := by
  intro s a off value hs ha
  obtain ⟨hhalt, hdone⟩ := exec_of_check (i := .omStb a off value) (ds := [a]) (by simpa using ha) rfl
  exact ⟨encodedAs_iff.mpr rfl, hhalt, fun hin =>
    ⟨_, hdone (not_le.mpr hin), s.dWrite_frame a off.toNat value (hs.slot_lt ha)⟩⟩

/-- Settles O32: an element inside the descriptor is inside the buffer, and the command is one `DWrite` there. -/
theorem omPutWritesOneElement : Obligations.OmPutWritesOneElement := by
  intro s a r c value hs ha
  obtain ⟨hhalt, hdone⟩ := exec_of_check (i := .omPut a r c value) (ds := [a]) (by simpa using ha) rfl
  exact ⟨encodedAs_iff.mpr rfl, hhalt, fun hr hc => ⟨hs.elementOffset_lt ha ⟨hr, hc⟩,
    _, hdone (not_not.mpr ⟨hr, hc⟩), s.dWrite_frame a (s.elementOffset a r c) value (hs.slot_lt ha)⟩⟩

end Sys2Proof.Machine
end

section
/-! PROOFS. The statements of 42_dense_elementary.md about one dense row: COPY_ROW (O33), AXPY (O36), ADD_ROW (O37),
SCALE_ROW (O39), ZERO_ROW (O40). Each makes its checks and then writes one row of one buffer. -/

namespace Sys2Proof.Machine

/-! ### Commands with no-operation cases before the checks: R132 -/

/-- A command over slots the block has, whose no-operation case `n` comes before everything else. -/
theorem exec_of_noop {i : Instr} {s : State} {ds : List Octet} {n : Prop} [Decidable n] {rest : Attempt}
    (hslots : ∀ a ∈ ds, s.HasSlot a)
    (hexec : exec i s = conclude (encode i) (withSlots s ds [] (if n then .done s else rest))) :
    (n → exec i s = .next s) ∧ (¬ n → exec i s = conclude (encode i) (withSlots s ds [] rest)) := by
  refine ⟨fun hn => ?_, fun hn => by rwa [if_neg hn] at hexec⟩
  rw [hexec, withSlots_pass hslots fun r hr => absurd hr List.not_mem_nil, if_pos hn, conclude_done]

/-- A command over slots the block has, with two checks that raise the same fault. -/
theorem exec_of_two_checks {i : Instr} {s t : State} {ds : List Octet} {p q : Prop} [Decidable p] [Decidable q]
    {c : Cause} (hslots : ∀ a ∈ ds, s.HasSlot a)
    (hexec : exec i s = conclude (encode i) (withSlots s ds []
      (if ¬ p then .raise c s else if ¬ q then .raise c s else .done t))) :
    (¬ (p ∧ q) → HaltsWith i s c) ∧ (p → q → exec i s = .next t) := by
  rw [← ite_or] at hexec
  obtain ⟨hhalt, hdone⟩ := exec_of_check hslots hexec
  exact ⟨fun h => hhalt (not_and_or.mp h), fun hp hq => hdone (not_or.mpr ⟨not_not.mpr hp, not_not.mpr hq⟩)⟩

/-! ### A state that differs in one buffer -/

theorem OnlyBufferOf.eq_setBuf {a : Octet} {s t : State} (h : OnlyBufferOf a s t) (ha : a.toNat < s.dense.length) :
    t = s.setBuf a (t.buf a) := by
  obtain ⟨⟨hrest, hlen, hother⟩, hslot⟩ := h
  have hdense : t.dense = s.dense.set a.toNat { s.slot a with buf := t.buf a } := List.ext_getElem? fun n => by
    by_cases hn : n = a.toNat
    · subst hn
      have hlt : a.toNat < t.dense.length := hlen ▸ ha
      rw [List.getElem?_set_self ha, ← hslot, State.slot, List.getD_eq_getElem _ _ hlt, List.getElem?_eq_getElem hlt]
    · rw [hother n hn, List.getElem?_set_ne (Ne.symm hn)]
  calc t = { s with dense := t.dense } := hrest
    _ = s.setBuf a (t.buf a) := by rw [hdense]; rfl

theorem OnlyBufferOf.trans {a : Octet} {s t u : State} (h : OnlyBufferOf a s t) (h' : OnlyBufferOf a t u)
    (ha : a.toNat < s.dense.length) : OnlyBufferOf a s u := by
  have hta : a.toNat < t.dense.length := h.1.2.1 ▸ ha
  rw [h'.eq_setBuf hta, h.eq_setBuf ha, State.setBuf_setBuf]
  exact onlyBufferOf_setBuf s a _ ha

/-- A well-formed state in which one buffer may differ, and reads the same everywhere, is the same state. -/
theorem OnlyBufferOf.eq_self {a : Octet} {s t : State} (h : OnlyBufferOf a s t) (hs : s.Wf) (ht : t.Wf)
    (ha : s.HasSlot a) (hread : ∀ o, t.dRead a o = s.dRead a o) : t = s := by
  have hset := h.eq_setBuf (hs.slot_lt ha)
  have hat : t.HasSlot a := by rw [hset]; exact ha
  rw [hset]
  exact State.setBuf_eq_self hs ha (State.Wf.buf_wf ht hat) hread

/-! ### A buffer that changes in one row -/

/-- `t` is `s` with the octets `f 0 .. f (k-1)` from offset `b` of slot `a` up: what R133 to R141 ask of a command. -/
def RowSet (a : Octet) (b k : Nat) (f : Nat → Octet) (s t : State) : Prop :=
  OnlyBufferOf a s t ∧ (∀ c, c < k → t.dRead a (b + c) = f c) ∧
    ∀ o, ¬ (b ≤ o ∧ o < b + k) → t.dRead a o = s.dRead a o

theorem rowSet_writeRow {s : State} {a : Octet} {b k : Nat} {vs : List Octet} {f : Nat → Octet}
    (ha : a.toNat < s.dense.length) (hlen : vs.length = k) (hvs : ∀ c (hc : c < vs.length), vs[c] = f c) :
    RowSet a b k f s (s.writeRow a b vs) := by
  subst hlen
  exact ⟨onlyBufferOf_setBuf s a _ ha, fun c hc => (s.dRead_writeRow_inside a b vs c ha hc).trans (hvs c hc),
    fun o => s.dRead_writeRow_outside a b vs o ha⟩

theorem rowSet_clear {s : State} {a : Octet} (b k : Nat) (ha : a.toNat < s.dense.length) :
    RowSet a b k (fun _ => 0) s (s.setBuf a (Memory.clear (s.buf a) b k)) := by
  refine ⟨onlyBufferOf_setBuf s a _ ha, fun c hc => ?_, fun o ho => ?_⟩
  · rw [s.dRead_setBuf a _ _ ha, Memory.read_clear, if_pos (by omega)]
  · rw [s.dRead_setBuf a _ _ ha, Memory.read_clear, if_neg ho, State.dRead]

/-- A row that held these octets already. -/
theorem RowSet.eq_self {a : Octet} {b k : Nat} {f : Nat → Octet} {s t : State} (h : RowSet a b k f s t) (hs : s.Wf)
    (ht : t.Wf) (ha : s.HasSlot a) (hsame : ∀ c, c < k → f c = s.dRead a (b + c)) : t = s := by
  obtain ⟨honly, hrow, hout⟩ := h
  refine honly.eq_self hs ht ha fun o => ?_
  by_cases ho : b ≤ o ∧ o < b + k
  · obtain ⟨c, rfl⟩ := Nat.exists_eq_add_of_le ho.1
    have hc : c < k := by omega
    rw [hrow c hc, hsame c hc]
  · exact hout o ho

/-- A row of width 0: R132. -/
theorem RowSet.eq_self_of_width {a : Octet} {b w : Nat} {k : BitVec w} {f : Nat → Octet} {s t : State}
    (h : RowSet a b k.toNat f s t) (hs : s.Wf) (ht : t.Wf) (ha : s.HasSlot a) (hk : k = 0) : t = s :=
  h.eq_self hs ht ha fun c hc => absurd hc (by simp [hk])

/-! ### The commands -/

/-- Settles O33: the source row is read whole and written whole; a row written over itself is the same row. -/
theorem copyRowCopiesOneRow : Obligations.CopyRowCopiesOneRow := by
  intro s dst src i j k hs hd hsrc ins bd bs
  obtain ⟨hhalt, hdone⟩ := exec_of_two_checks (i := ins) (ds := [dst, src]) (by simpa using ⟨hd, hsrc⟩) rfl
  have hset := rowSet_writeRow (b := bd) (hs.slot_lt hd) (s.length_readRow src bs k.toNat)
    (s.getElem_readRow src bs k.toNat)
  refine ⟨encodedAs_iff.mpr rfl, hhalt, fun hfd hfs => ?_⟩
  have hexec := hdone hfd hfs
  have ht := exec_keeps_wf hs hexec
  obtain ⟨honly, hrow, hout⟩ := id hset
  refine ⟨_, hexec, honly, hrow, hout, ?_⟩
  rintro (hk | ⟨rfl, rfl⟩)
  · exact hset.eq_self_of_width hs ht hd hk
  · exact hset.eq_self hs ht hd fun _ _ => rfl

/-- Settles O36: the accumulation leaves at each column the octet XORed with the term of the scalar. -/
theorem axpyAccumulatesScaledRow : Obligations.AxpyAccumulatesScaledRow := by
  intro s dst src i j k u hs hd hsrc ins bd bs
  have hslots : ∀ b ∈ [dst, src], s.HasSlot b := by simpa using ⟨hd, hsrc⟩
  obtain ⟨hnoop, hrest⟩ := exec_of_noop (i := ins) hslots rfl
  have hcheck := fun hu => exec_of_two_checks hslots (hrest hu)
  have hset := rowSet_writeRow (b := bd) (k := k.toNat) (hs.slot_lt hd)
    (vs := s.params.tables.accumulate u (s.readRow dst bd k.toNat) (s.readRow src bs k.toNat))
    (f := fun c => s.dRead dst (bd + c) ^^^ s.params.tables.axpyTerm u (s.dRead src (bs + c)))
    (by simp) (by simp [Tables.accumulate])
  refine ⟨encodedAs_iff.mpr rfl, hnoop, fun hu => (hcheck hu).1, fun hu hfd hfs => ?_⟩
  have hexec := (hcheck hu).2 hfd hfs
  obtain ⟨honly, hrow, hout⟩ := id hset
  exact ⟨_, hexec, honly, hrow, hout, hset.eq_self_of_width hs (exec_keeps_wf hs hexec) hd⟩

/-- Settles O37: the XOR of the two rows is written whole, and an octet XORed with itself is zero. -/
theorem addRowXorsRows : Obligations.AddRowXorsRows := by
  intro s dst src i j k hs hd hsrc ins bd bs
  obtain ⟨hhalt, hdone⟩ := exec_of_two_checks (i := ins) (ds := [dst, src]) (by simpa using ⟨hd, hsrc⟩) rfl
  have hset := rowSet_writeRow (b := bd) (k := k.toNat) (hs.slot_lt hd)
    (vs := List.zipWith (fun d x => d ^^^ x) (s.readRow dst bd k.toNat) (s.readRow src bs k.toNat))
    (f := fun c => s.dRead dst (bd + c) ^^^ s.dRead src (bs + c)) (by simp) (by simp)
  refine ⟨encodedAs_iff.mpr rfl, hhalt, fun hfd hfs => ?_⟩
  have hexec := hdone hfd hfs
  obtain ⟨honly, hrow, hout⟩ := id hset
  refine ⟨_, hexec, honly, hrow, hout, ?_, hset.eq_self_of_width hs (exec_keeps_wf hs hexec) hd⟩
  rintro rfl rfl c hc
  exact (hrow c hc).trans BitVec.xor_self

/-- Settles O39: the products are written in place, and under TBL-FIELD the product by 1 is the octet. -/
theorem scaleRowScalesInPlace : Obligations.ScaleRowScalesInPlace := by
  intro s a i k u hs ha ins b
  have hslots : ∀ b ∈ [a], s.HasSlot b := by simpa using ha
  obtain ⟨hnoop, hrest⟩ := exec_of_noop (i := ins) hslots rfl
  have hcheck := fun hu => exec_of_check hslots (hrest hu)
  have hset := rowSet_writeRow (b := b) (k := k.toNat) (hs.slot_lt ha)
    (vs := (s.readRow a b k.toNat).map (s.params.tables.tmul u))
    (f := fun c => s.params.tables.tmul u (s.dRead a (b + c))) (by simp) (by simp)
  refine ⟨encodedAs_iff.mpr rfl, hnoop, fun hu => (hcheck hu).1, fun hu hfit => ?_⟩
  have hexec := (hcheck hu).2 (not_not.mpr hfit)
  have ht := exec_keeps_wf hs hexec
  obtain ⟨honly, hrow, hout⟩ := id hset
  refine ⟨_, hexec, honly, hrow, hout, hset.eq_self_of_width hs ht ha, ?_⟩
  rintro rfl mul htable
  exact hset.eq_self hs ht ha fun c _ => (htable.tmul_eq 1 _).trans (htable.1.one _)

/-- Beyond its length a buffer reads as zero: R22. -/
theorem State.Wf.dRead_of_len_le {s : State} (hs : s.Wf) {a : Octet} (ha : s.HasSlot a) {o : Nat}
    (ho : s.len a ≤ o) : s.dRead a o = 0 :=
  Memory.read_of_not_listed fun c hc => Nat.ne_of_lt (Nat.lt_of_lt_of_le (hs.buf_below ha c hc) ho)

/-- Settles O40: the cleared range is the row, and the row of the whole length at offset 0 is the buffer. -/
theorem zeroRowClearsOctets : Obligations.ZeroRowClearsOctets := by
  intro s a i k hs ha ins b
  obtain ⟨hhalt, hdone⟩ := exec_of_check (i := ins) (s := s) (ds := [a]) (by simpa using ha) rfl
  have hset := rowSet_clear b k.toNat (hs.slot_lt ha)
  refine ⟨encodedAs_iff.mpr rfl, hhalt, fun hfit => ?_⟩
  have hexec := hdone (not_not.mpr hfit)
  obtain ⟨honly, hrow, hout⟩ := id hset
  refine ⟨_, hexec, honly, hrow, hout, hset.eq_self_of_width hs (exec_keeps_wf hs hexec) ha, ?_⟩
  rintro rfl hk o
  have hb : b = 0 := Nat.zero_mul _
  by_cases ho : o < k.toNat
  · have hzero := hrow o ho
    rwa [show b + o = o by omega] at hzero
  · exact (hout o (by omega)).trans (hs.dRead_of_len_le ha (by omega))

end Sys2Proof.Machine
end

section
/-! PROOFS. The statements of 42_dense_elementary.md about the exchanges SWAP_ROW (O34) and SWAP_COL (O35). Both
exchange pairs of octets of one buffer, so both are undone by themselves. -/

namespace Sys2Proof.Machine

/-! ### Exchanging pairs of octets -/

/-- `t` is `s` with the octets at `p c` and `q c` of slot `a` exchanged, for every `c` below `k`: R134, R135. -/
def Exchanged (a : Octet) (k : Nat) (p q : Nat → Nat) (s t : State) : Prop :=
  OnlyBufferOf a s t ∧
  (∀ c, c < k → t.dRead a (p c) = s.dRead a (q c) ∧ t.dRead a (q c) = s.dRead a (p c)) ∧
  ∀ o, (∀ c, c < k → o ≠ p c ∧ o ≠ q c) → t.dRead a o = s.dRead a o

/-- The same exchange made again. -/
theorem Exchanged.undo {a : Octet} {k : Nat} {p q : Nat → Nat} {s t u : State} (h : Exchanged a k p q s t)
    (h' : Exchanged a k p q t u) (hs : s.Wf) (hu : u.Wf) (ha : s.HasSlot a) : u = s := by
  obtain ⟨honly, hpair, hout⟩ := h
  obtain ⟨honly', hpair', hout'⟩ := h'
  refine (honly.trans honly' (hs.slot_lt ha)).eq_self hs hu ha fun o => ?_
  by_cases ho : ∀ c, c < k → o ≠ p c ∧ o ≠ q c
  · rw [hout' o ho, hout o ho]
  · obtain ⟨c, hc, hpq⟩ : ∃ c, c < k ∧ (o = p c ∨ o = q c) := by
      by_contra hnone
      exact ho fun c hc => not_or.mp fun hpq => hnone ⟨c, hc, hpq⟩
    rcases hpq with rfl | rfl
    · rw [(hpair' c hc).1, (hpair c hc).2]
    · rw [(hpair' c hc).2, (hpair c hc).1]

/-- A command that does nothing in the case `n`, halts with BOUNDS outside `fits`, and else exchanges pairs. -/
def Exchanges (i : Instr) (a : Octet) (n fits : Prop) (k : Nat) (p q : Nat → Nat) (s : State) : Prop :=
  (n → exec i s = .next s) ∧ (¬ n → ¬ fits → HaltsWith i s .bounds) ∧
  (¬ n → fits → ∃ t, exec i s = .next t ∧ Exchanged a k p q s t)

theorem HaltsWith.halted {i : Instr} {s t : State} {c : Cause} (h : HaltsWith i s c) (he : exec i s = .next t) :
    t.halted = true := by
  obtain rfl : s.takeHalt c (encode i) = t := Host.Outcome.next.inj (((haltsWith_iff i s c).mp h).symm.trans he)
  exact s.takeHalt_halted c _

/-- Such a command, whose case, check and places do not depend on the octets of the buffer, is undone by itself. -/
theorem Exchanges.twice {i : Instr} {a : Octet} {n fits : Prop} {k : Nat} {p q : Nat → Nat} {s t : State}
    (h : Exchanges i a n fits k p q s) (hs : s.Wf) (ha : s.HasSlot a)
    (hagain : ∀ m, (s.setBuf a m).Wf → Exchanges i a n fits k p q (s.setBuf a m))
    (he : exec i s = .next t) (ht : t.halted = false) : exec i t = .next s := by
  obtain ⟨hnoop, hhalt, hdone⟩ := h
  by_cases hn : n
  · obtain rfl : s = t := Host.Outcome.next.inj ((hnoop hn).symm.trans he)
    exact he
  by_cases hf : fits
  · obtain ⟨t', he', hex⟩ := hdone hn hf
    obtain rfl : t = t' := Host.Outcome.next.inj (he.symm.trans he')
    obtain ⟨m, rfl⟩ : ∃ m, t = s.setBuf a m := ⟨_, hex.1.eq_setBuf (hs.slot_lt ha)⟩
    have htwf := exec_keeps_wf hs he
    obtain ⟨-, -, hdone'⟩ := hagain m htwf
    obtain ⟨u, hu, hexu⟩ := hdone' hn hf
    rw [hu, hex.undo hexu hs (exec_keeps_wf htwf hu) ha]
  · rw [(hhalt hn hf).halted he] at ht
    cases ht

/-- A range check reads no octet: R64. -/
theorem State.fits_setBuf (s : State) (a : Octet) (m : Memory 8) (b : Octet) (o n : Nat) :
    (s.setBuf a m).Fits b o n ↔ s.Fits b o n := by
  rw [State.Fits, State.len_setBuf]

@[simp] theorem State.setBuf_params (s : State) (a : Octet) (m : Memory 8) : (s.setBuf a m).params = s.params := rfl

/-! ### SWAP_ROW (R134) -/

/-- Writing each of two disjoint rows of width `k` over the other. -/
theorem exchanged_writeRow_writeRow {s : State} {a : Octet} {bi bj k : Nat} (ha : a.toNat < s.dense.length)
    (hdisj : ∀ c d, c < k → d < k → bi + c ≠ bj + d) :
    Exchanged a k (bi + ·) (bj + ·) s ((s.writeRow a bi (s.readRow a bj k)).writeRow a bj (s.readRow a bi k)) := by
  have hfirst := rowSet_writeRow ha (s.length_readRow a bj k) (b := bi) (s.getElem_readRow a bj k)
  obtain ⟨honly, hrow, hout⟩ := hfirst
  obtain ⟨honly', hrow', hout'⟩ := rowSet_writeRow (s := s.writeRow a bi (s.readRow a bj k)) (b := bj)
    (honly.1.2.1 ▸ ha) (s.length_readRow a bi k) (s.getElem_readRow a bi k)
  refine ⟨honly.trans honly' ha, fun c hc => ⟨?_, hrow' c hc⟩, fun o ho => ?_⟩
  · rw [hout' (bi + c), hrow c hc]
    rintro ⟨hlo, hhi⟩
    exact hdisj c (bi + c - bj) hc (by omega) (by omega)
  · rw [hout' o, hout o]
    · rintro ⟨hlo, hhi⟩
      exact (ho (o - bi) (by omega)).1 (Nat.add_sub_cancel' hlo).symm
    · rintro ⟨hlo, hhi⟩
      exact (ho (o - bj) (by omega)).2 (Nat.add_sub_cancel' hlo).symm

theorem exec_swapRow {s : State} {a : Octet} {i j k : Index} (hs : s.Wf) (ha : s.HasSlot a) :
    Exchanges (.swapRow a i j k) a (i = j)
      (s.Fits a (s.params.base i.toNat k.toNat) k.toNat ∧ s.Fits a (s.params.base j.toNat k.toNat) k.toNat) k.toNat
      (s.params.base i.toNat k.toNat + ·) (s.params.base j.toNat k.toNat + ·) s := by
  have hslots : ∀ b ∈ [a], s.HasSlot b := by simpa using ha
  obtain ⟨hnoop, hrest⟩ := exec_of_noop (i := .swapRow a i j k) hslots rfl
  have hcheck := fun hij => exec_of_two_checks hslots (hrest hij)
  refine ⟨hnoop, fun hij => (hcheck hij).1, fun hij hfit => ⟨_, (hcheck hij).2 hfit.1 hfit.2, ?_⟩⟩
  exact exchanged_writeRow_writeRow (hs.slot_lt ha) fun c d =>
    Params.rows_disjoint hs.align_pos fun h => hij (BitVec.eq_of_toNat_eq h)

/-- Settles O34: two different rows of one width do not overlap, so the command exchanges them and undoes itself. -/
theorem swapRowExchangesRows : Obligations.SwapRowExchangesRows := by
  intro s a i j k hs ha ins bi bj
  have hswap := exec_swapRow (i := i) (j := j) (k := k) hs ha
  obtain ⟨hnoop, hhalt, hdone⟩ := id hswap
  refine ⟨encodedAs_iff.mpr rfl, hnoop, hhalt, fun hij hfi hfj => ?_, fun _ t he ht => ?_⟩
  · obtain ⟨t, hexec, honly, hpair, hout⟩ := hdone hij ⟨hfi, hfj⟩
    refine ⟨t, hexec, honly, hpair, fun o hi hj => hout o fun c hc => ⟨?_, ?_⟩, ?_⟩
    · rintro rfl
      exact hi ⟨Nat.le_add_right _ _, Nat.add_lt_add_left hc _⟩
    · rintro rfl
      exact hj ⟨Nat.le_add_right _ _, Nat.add_lt_add_left hc _⟩
    · rintro rfl
      exact honly.eq_self hs (exec_keeps_wf hs hexec) ha fun o => hout o fun c hc => absurd hc (Nat.not_lt_zero c)
  · refine hswap.twice hs ha (fun m hm => ?_) he ht
    simpa only [State.fits_setBuf, State.setBuf_params] using exec_swapRow (i := i) (j := j) (k := k) hm ha

/-! ### SWAP_COL (R135) -/

theorem exec_swapCol {s : State} {a : Octet} {i j k w : Index} (hs : s.Wf) (ha : s.HasSlot a) :
    Exchanges (.swapCol a i j k w) a (i = j ∨ k = 0)
      ((i < w ∧ j < w) ∧ s.Fits a ((k.toNat - 1) * s.params.stride w.toNat) (max i.toNat j.toNat + 1)) k.toNat
      (· * s.params.stride w.toNat + i.toNat) (· * s.params.stride w.toNat + j.toNat) s := by
  have hslots : ∀ b ∈ [a], s.HasSlot b := by simpa using ha
  obtain ⟨hnoop, hrest⟩ := exec_of_noop (i := .swapCol a i j k w) (n := i = j ∨ k = 0) hslots
    (by rw [ite_or]; rfl)
  have hcheck := fun hn => exec_of_two_checks hslots (hrest hn)
  refine ⟨hnoop, fun hn => (hcheck hn).1, fun hn ⟨hw, hfit⟩ => ⟨_, (hcheck hn).2 hw hfit, ?_⟩⟩
  have hread := fun m o => s.dRead_setBuf a m o (hs.slot_lt ha)
  have hstride := Params.le_stride hs.align_pos w.toNat
  refine ⟨onlyBufferOf_setBuf s a _ (hs.slot_lt ha), fun r hr => ?_, fun o ho => ?_⟩
  · rw [hread, hread]
    exact read_swapColumns_row (Nat.lt_of_lt_of_le hw.1 hstride) (Nat.lt_of_lt_of_le hw.2 hstride) hr
  · rw [hread]
    exact read_swapColumns_other _ _ _ _ _ o ho

/-- Settles O35: columns below the width lie inside the stride, so the command exchanges them and undoes itself. -/
theorem swapColExchangesColumns : Obligations.SwapColExchangesColumns := by
  intro s a i j k w hs ha ins st
  have hswap := exec_swapCol (i := i) (j := j) (k := k) (w := w) hs ha
  obtain ⟨hnoop, hhalt, hdone⟩ := id hswap
  refine ⟨encodedAs_iff.mpr rfl, hnoop, fun hij hk hfit => ?_, fun hij hk hi hj hfit => ?_, fun _ t he ht => ?_⟩
  · exact hhalt (not_or.mpr ⟨hij, hk⟩) (and_assoc.not.mpr hfit)
  · exact hdone (not_or.mpr ⟨hij, hk⟩) ⟨⟨hi, hj⟩, hfit⟩
  · refine hswap.twice hs ha (fun m hm => ?_) he ht
    simpa only [State.fits_setBuf, State.setBuf_params] using exec_swapCol (i := i) (j := j) (k := k) (w := w) hm ha

end Sys2Proof.Machine
end

section
/-! PROOFS. The statements of 42_dense_elementary.md about GEMM: the sum of terms for all tables (O41), the matrix
product under TBL-FIELD and the identity law (O42). -/

namespace Sys2Proof.Machine

/-! ### The command (R142) -/

/-- The range checks of GEMM: the last row of each matrix, those of the operands only where there is a term. -/
def State.GemmFits (s : State) (a b c : Octet) (n k m : Index) : Prop :=
  s.Fits c ((n.toNat - 1) * s.params.stride m.toNat) m.toNat ∧
  (k ≠ 0 → s.Fits a ((n.toNat - 1) * s.params.stride k.toNat) k.toNat ∧
    s.Fits b ((k.toNat - 1) * s.params.stride m.toNat) m.toNat)

/-- The state GEMM leaves where it passes its checks. -/
def State.gemmDone (s : State) (a b c : Octet) (n k m : Index) : State :=
  s.setBuf c (gemmRows s.params.tables (s.buf a) (s.buf b) n.toNat k.toNat m.toNat (s.params.stride k.toNat)
    (s.params.stride m.toNat) (s.buf c))

theorem exec_gemm {s : State} {a b c : Octet} (n k m : Index) (ha : s.HasSlot a) (hb : s.HasSlot b)
    (hc : s.HasSlot c) :
    (n = 0 → exec (.gemm a b c n k m) s = .next s) ∧
    (n ≠ 0 → c = a ∨ c = b → HaltsWith (.gemm a b c n k m) s .aliasing) ∧
    (n ≠ 0 → ¬ (c = a ∨ c = b) → ¬ s.GemmFits a b c n k m → HaltsWith (.gemm a b c n k m) s .bounds) ∧
    (n ≠ 0 → ¬ (c = a ∨ c = b) → s.GemmFits a b c n k m →
      exec (.gemm a b c n k m) s = .next (s.gemmDone a b c n k m)) := by
  simp only [haltsWith_iff, exec, execGemm, withSlots_dense_three ha hb hc, ← ite_or]
  refine ⟨fun hn => ?_, fun hn hal => ?_, fun hn hal hfit => ?_, fun hn hal hfit => ?_⟩
  · rw [if_pos hn, conclude_done]
  · rw [if_neg hn, if_pos hal, conclude_raise]
  · rw [if_neg hn, if_neg hal, if_pos, conclude_raise]
    unfold State.GemmFits at hfit
    tauto
  · rw [if_neg hn, if_neg hal, if_neg, conclude_done, State.gemmDone]
    unfold State.GemmFits at hfit
    tauto

/-- An output octet of GEMM is the sum of its terms. -/
theorem State.dRead_gemmDone {s : State} (hs : s.Wf) {a b c : Octet} (hc : s.HasSlot c) {n k m : Index} {r q : Nat}
    (hr : r < n.toNat) (hq : q < m.toNat) :
    (s.gemmDone a b c n k m).dRead c (r * s.params.stride m.toNat + q) =
      (List.range k.toNat).foldl (fun acc x => acc ^^^ gemmProduct s.params.tables
        (s.dRead a (r * s.params.stride k.toNat + x)) (s.dRead b (x * s.params.stride m.toNat + q))) 0 := by
  rw [State.gemmDone, s.dRead_setBuf c _ _ (hs.slot_lt hc),
    read_gemmRows_inside _ _ _ _ (Params.le_stride hs.align_pos m.toNat) hr hq]
  rfl

theorem State.dRead_gemmDone_outside {s : State} (hs : s.Wf) {a b c : Octet} (hc : s.HasSlot c) {n k m : Index}
    {o : Nat} (ho : ∀ r q, r < n.toNat → q < m.toNat → o ≠ r * s.params.stride m.toNat + q) :
    (s.gemmDone a b c n k m).dRead c o = s.dRead c o := by
  rw [State.gemmDone, s.dRead_setBuf c _ _ (hs.slot_lt hc), read_gemmRows_outside _ _ _ _ ho]
  rfl

/-- Settles O41: the checks of the command in their order, and the loops read octet by octet. -/
theorem gemmAccumulatesProducts : Obligations.GemmAccumulatesProducts := by
  intro s a b c n k m hs ha hb hc ins sk sm inRange
  obtain ⟨hnoop, hshared, hbounds, hdone⟩ := exec_gemm n k m ha hb hc
  refine ⟨encodedAs_iff.mpr rfl, hnoop, hshared, fun hn hca hcb => hbounds hn (not_or.mpr ⟨hca, hcb⟩),
    fun hn hca hcb hfit => ⟨_, hdone hn (not_or.mpr ⟨hca, hcb⟩) hfit, onlyBufferOf_setBuf s c _ (hs.slot_lt hc),
      fun r q => State.dRead_gemmDone hs hc, fun o => State.dRead_gemmDone_outside hs hc⟩⟩

/-! ### The matrix product (R143) -/

/-- A GEMM that completes with an output octet passed every check. -/
theorem exec_gemm_completed {s t : State} {a b c : Octet} {n k m : Index} (hn : n ≠ 0)
    (he : exec (.gemm a b c n k m) s = .next t) (ht : t.halted = false) :
    s.HasSlot c ∧ t = s.gemmDone a b c n k m := by
  have hnohalt : ∀ cause, ¬ HaltsWith (.gemm a b c n k m) s cause := fun cause hh =>
    Bool.false_ne_true (ht.symm.trans (hh.halted he))
  have hwf : (Instr.gemm a b c n k m).WellFormed s.params := by
    by_contra hwf
    exact hnohalt _ (slotNumbersAreChecked _ s hwf)
  obtain ⟨ha, hb, hc⟩ : s.HasSlot a ∧ s.HasSlot b ∧ s.HasSlot c := by
    simpa [Instr.WellFormed, Instr.denseSlots, Instr.sparseSlots] using hwf
  obtain ⟨-, hshared, hbounds, hdone⟩ := exec_gemm n k m ha hb hc
  have hal : ¬ (c = a ∨ c = b) := fun h => hnohalt _ (hshared hn h)
  have hfit : s.GemmFits a b c n k m := by
    by_contra hfit
    exact hnohalt _ (hbounds hn hal hfit)
  exact ⟨hc, Host.Outcome.next.inj (he.symm.trans (hdone hn hal hfit))⟩

/-- Under TBL-FIELD the two special cases of a term are products of the field too. -/
theorem TblField.gemmProduct_eq {tb : Tables} {mul : Octet → Octet → Octet} (h : TblField tb mul) (x y : Octet) :
    gemmProduct tb x y = mul x y := by
  unfold gemmProduct
  by_cases h0 : x = 0
  · rw [if_pos h0, h0, h.1.zero_mul]
  by_cases h1 : x = 1
  · rw [if_neg h0, if_pos h1, h1, h.1.one]
  · rw [if_neg h0, if_neg h1, h.tmul_eq]

/-- A term of the identity matrix reads no table. -/
theorem gemmProduct_unit (tb : Tables) (p : Prop) [Decidable p] (y : Octet) :
    gemmProduct tb (if p then 1 else 0) y = if p then y else 0 := by
  by_cases hp : p <;> simp [gemmProduct, hp]

/-- A sum with one term that is not zero. -/
theorem foldl_xor_single (f : Nat → Octet) (r k : Nat) :
    (List.range k).foldl (fun acc x => acc ^^^ if r = x then f x else 0) 0 = if r < k then f r else 0 := by
  induction k with
  | zero => rfl
  | succ k ih =>
    rw [List.range_succ, List.foldl_append, ih, List.foldl_cons, List.foldl_nil]
    rcases Nat.lt_trichotomy r k with hlt | rfl | hgt
    · rw [if_pos hlt, if_neg (by omega), if_pos (by omega)]
      exact BitVec.xor_zero
    · rw [if_neg (by omega), if_pos rfl, if_pos (by omega)]
      exact BitVec.zero_xor
    · rw [if_neg (by omega), if_neg (by omega), if_neg (by omega)]
      exact BitVec.xor_zero

/-- Settles O42: term by term the product is that of the field, and a row of the identity matrix leaves one term. -/
theorem gemmIsMatrixProduct : Obligations.GemmIsMatrixProduct := by
  intro s t a b c n k m hs _ he ht sk sm
  have hterms : ∀ r q, r < n.toNat → q < m.toNat → t.dRead c (r * sm + q) =
      (List.range k.toNat).foldl (fun acc x => acc ^^^
        gemmProduct s.params.tables (s.dRead a (r * sk + x)) (s.dRead b (x * sm + q))) 0 := by
    intro r q hr hq
    have hn : n ≠ 0 := by
      rintro rfl
      exact Nat.not_lt_zero r hr
    obtain ⟨hc, rfl⟩ := exec_gemm_completed hn he ht
    exact State.dRead_gemmDone hs hc hr hq
  refine ⟨fun mul htable r q hr hq => ?_, fun hnk hunit r q hr hq => ?_⟩
  · simp only [hterms r q hr hq, htable.gemmProduct_eq]
  · have hr' : r < k.toNat := hnk ▸ hr
    have hone : ∀ acc, ∀ x ∈ List.range k.toNat,
        acc ^^^ gemmProduct s.params.tables (s.dRead a (r * sk + x)) (s.dRead b (x * sm + q)) =
          acc ^^^ if r = x then s.dRead b (x * sm + q) else 0 := by
      intro acc x hx
      rw [hunit r x hr (List.mem_range.mp hx), gemmProduct_unit]
    rw [hterms r q hr hq, List.foldl_ext _ _ 0 hone, foldl_xor_single fun x => s.dRead b (x * sm + q),
      if_pos hr']

end Sys2Proof.Machine
end

section
/-! PROOFS. The statements of 43_sparse_row_lifecycle_search.md about the lifecycle of a sparse row (O43, O44, O45)
and the reading of its fields (O49). -/

namespace Sys2Proof.Machine

/-! ### Commands over one sparse row -/

/-- A command over a sparse slot the block has, with one check of its own. -/
theorem exec_of_row_check {i : Instr} {s t : State} {r : Index} {p : Prop} [Decidable p] {c : Cause} (hr : s.HasRow r)
    (hexec : exec i s = conclude (encode i) (withSlots s [] [r] (if p then .raise c s else .done t))) :
    (p → HaltsWith i s c) ∧ (¬ p → exec i s = .next t) :=
  exec_of_check (ds := []) (by simp) (by rw [hexec, withSlots_sparse_one hr, withSlots_pass (by simp) (by simp)])

/-- A command that comes to a new content of one row, or to ALLOC where there is none: R150, R204. -/
theorem exec_of_putRow {i : Instr} {s : State} {r : Index} {o : Option SparseRow}
    (hexec : exec i s = conclude (encode i) (s.putRow r o)) :
    (o = none → HaltsWith i s .alloc) ∧ (∀ t, o = some t → exec i s = .next (s.setRow r t)) := by
  refine ⟨?_, ?_⟩
  · rintro rfl
    rw [haltsWith_iff, hexec, State.putRow, conclude_raise]
  · rintro t rfl
    rw [hexec, State.putRow, conclude_done]

/-! ### CR_RESIZE (R150) -/

theorem exec_crResize {s : State} {r : Index} (hr : s.HasRow r) (newNz : Index) : exec (.crResize r newNz) s =
    conclude (encode (.crResize r newNz)) (s.putRow r ((s.row r).resize s.params newNz.toNat)) := by
  rw [exec, execCrResize, withSlots_sparse_one hr]

/-- Settles O43: the command puts what `row_resize` makes of the row. -/
theorem crResizeSetsTheCount : Obligations.CrResizeSetsTheCount := by
  intro s r newNz hs hr
  obtain ⟨hhalt, hdone⟩ := exec_of_putRow (exec_crResize hr newNz)
  refine ⟨encodedAs_iff.mpr rfl, fun hcap => hhalt (SparseRow.resize_none hcap), fun hcap => ?_⟩
  obtain ⟨t, hresize, hgrown, hkeeps, -⟩ := SparseRow.resize_some hs.legal (hs.row_wf hr) hcap
  refine ⟨_, hdone t hresize, onlyRow_setRow s r t, ?_⟩
  rw [s.row_setRow_same r t (hs.row_lt hr)]
  exact ⟨hgrown, hkeeps⟩

/-! ### CR_COPY (R152) -/

/-- Storing the entries of row `q` copies its positions below the count and leaves the others. -/
theorem SparseRow.at_putEntries_entries (g q : SparseRow) (p : Nat) :
    (p < q.nz.toNat →
      (g.putEntries q.entries).idxAt p = q.idxAt p ∧ (g.putEntries q.entries).valAt p = q.valAt p) ∧
    (q.nz.toNat ≤ p →
      (g.putEntries q.entries).idxAt p = g.idxAt p ∧ (g.putEntries q.entries).valAt p = g.valAt p) := by
  rw [SparseRow.idxAt_putEntries, SparseRow.valAt_putEntries]
  refine ⟨fun hp => ?_, fun hp => ?_⟩
  · have hlt : p < q.entries.length := by rwa [SparseRow.length_entries]
    rw [dif_pos hlt, dif_pos hlt, SparseRow.getElem_entries]
    exact ⟨(BitVec.ofNat_toNat 16 _).trans (BitVec.setWidth_eq _), rfl⟩
  · have hge : ¬ p < q.entries.length := by rwa [SparseRow.length_entries, not_lt]
    rw [dif_neg hge, dif_neg hge]
    exact ⟨rfl, rfl⟩

/-- Storing its own entries leaves a row as it is. -/
theorem SparseRow.putEntries_entries_self {p : Params} {r : SparseRow} (hr : r.Wf p) : r.putEntries r.entries = r := by
  have hwf : (r.putEntries r.entries).Wf p := SparseRow.putEntries_wf hr (by rw [SparseRow.length_entries]; exact hr.1)
  refine SparseRow.eq_of_contents hwf hr rfl rfl fun q => ?_
  obtain ⟨hbelow, habove⟩ := r.at_putEntries_entries r q
  exact (Nat.lt_or_ge q r.nz.toNat).elim hbelow habove

theorem exec_crCopy {s : State} {sd ss : Index} (hd : s.HasRow sd) (hss : s.HasRow ss) :
    exec (.crCopy sd ss) s = conclude (encode (.crCopy sd ss)) (s.putRow sd
      (((s.row sd).resize s.params (s.row ss).nz.toNat).map fun t => t.putEntries (s.row ss).entries)) := by
  rw [exec, execCrCopy, withSlots_sparse_two hd hss]

/-- Settles O44: the destination can be grown to a count that the source has, and then takes the source's entries. -/
theorem crCopyCopiesEntries : Obligations.CrCopyCopiesEntries := by
  intro s sd ss hs hd hss
  obtain ⟨-, hdone⟩ := exec_of_putRow (exec_crCopy hd hss)
  refine ⟨encodedAs_iff.mpr rfl, ?_, ?_⟩
  · obtain ⟨g, hresize, hgrown, hkeeps, -⟩ := SparseRow.resize_some hs.legal (hs.row_wf hd)
      (SparseRow.canHold_of_row hs.legal (hs.row_wf hss))
    refine ⟨_, hdone _ (by rw [hresize]; rfl), onlyRow_setRow s sd _, ?_⟩
    rw [s.row_setRow_same sd _ (hs.row_lt hd)]
    refine ⟨hgrown, fun p => (g.at_putEntries_entries (s.row ss) p).1, fun q hq => ?_⟩
    obtain ⟨hidx, hval⟩ := (g.at_putEntries_entries (s.row ss) q).2 hq
    rw [hidx, hval]
    exact hkeeps q (Nat.zero_le q)
  · rintro rfl
    have hrow := hs.row_wf hd
    rw [hdone (s.row sd), s.setRow_self sd (hs.row_lt hd)]
    rw [SparseRow.resize_self hs.legal hrow, Option.map_some, SparseRow.putEntries_entries_self hrow]

/-! ### CR_DESTROY (R153) -/

/-- The invariant leaves one value for a row of capacity 0: R28. -/
theorem SparseRow.Wf.eq_empty {p : Params} {r : SparseRow} (h : r.Wf p) (hcap : r.cap = 0) : r = emptyRow := by
  refine SparseRow.eq_of_contents h (emptyRow_wf p) (BitVec.eq_of_toNat_eq ?_) hcap fun q => ?_
  · exact Nat.le_zero.mp (h.1.trans_eq (congrArg BitVec.toNat hcap))
  · exact h.beyond (by rw [hcap]; exact Nat.zero_le q)

theorem exec_crDestroy {s : State} {r : Index} (hr : s.HasRow r) :
    exec (.crDestroy r) s = .next (s.setRow r emptyRow) := by
  rw [exec, execCrDestroy, withSlots_sparse_one hr, conclude_done]

/-- Settles O45: a row of capacity 0 is the empty row already. -/
theorem crDestroyEmptiesTheRow : Obligations.CrDestroyEmptiesTheRow := by
  intro s r hs hr
  refine ⟨encodedAs_iff.mpr rfl, ⟨s.setRow r emptyRow, exec_crDestroy hr, onlyRow_setRow s r _,
    s.row_setRow_same r _ (hs.row_lt hr)⟩, fun hcap => ?_⟩
  rw [exec_crDestroy hr, ← (hs.row_wf hr).eq_empty hcap, s.setRow_self r (hs.row_lt hr)]

/-! ### The read-back commands (R158 to R161) -/

theorem exec_crGetnz {s : State} {r : Index} (hr : s.HasRow r) :
    exec (.crGetnz r) s = .next { s with result := (s.row r).nz.setWidth 32 } := by
  rw [exec, execCrGetnz, withSlots_sparse_one hr, conclude_done, State.setResult]

theorem exec_crGetcap {s : State} {r : Index} (hr : s.HasRow r) :
    exec (.crGetcap r) s = .next { s with result := (s.row r).cap.setWidth 32 } := by
  rw [exec, execCrGetcap, withSlots_sparse_one hr, conclude_done, State.setResult]

/-- Settles O49: the counts are read without a check, and the check of the position is the one check of the others. -/
theorem readBackReturnsStoredFields : Obligations.ReadBackReturnsStoredFields := by
  intro s r p hr
  obtain ⟨hidxHalt, hidxDone⟩ := exec_of_row_check (i := .crGetidx r p) hr rfl
  obtain ⟨hvalHalt, hvalDone⟩ := exec_of_row_check (i := .crGetval r p) hr rfl
  exact ⟨⟨encodedAs_iff.mpr rfl, exec_crGetnz hr⟩, ⟨encodedAs_iff.mpr rfl, exec_crGetcap hr⟩,
    ⟨encodedAs_iff.mpr rfl, hidxHalt, fun hp => hidxDone (not_le.mpr hp)⟩,
    ⟨encodedAs_iff.mpr rfl, hvalHalt, fun hp => hvalDone (not_le.mpr hp)⟩⟩

end Sys2Proof.Machine
end

section
/-! PROOFS. The statements of 43_sparse_row_lifecycle_search.md about the two searches: CR_FIND (O46, O47) and
CR_SCAN (O48). -/

namespace Sys2Proof.Machine

/-! ### The answer of a search (R155) -/

theorem positionWord_eq_getD (o : Option Nat) :
    positionWord o = (o.map fun p => BitVec.ofNat 32 p).getD 0xFFFFFFFF := by
  cases o <;> rfl

/-- A position of a row is far below NOT_FOUND. -/
theorem positionWord_some_toNat {p : Nat} {hi : Index} (h : p ≤ hi.toNat) : (positionWord (some p)).toNat = p := by
  have := hi.isLt
  rw [positionWord, BitVec.toNat_ofNat, Nat.mod_eq_of_lt (by omega)]

/-! ### A command that searches a range (R154, R157) -/

/-- What CR_FIND and CR_SCAN have in common: the empty range first, then the range check, then RESULT. -/
theorem exec_of_search {i : Instr} {s : State} {r lo hi : Index} {found : Option Nat} (hr : s.HasRow r)
    (hexec : exec i s = conclude (encode i) (withSlots s [] [r]
      (if hi < lo then .done (s.setResult notFound)
      else if (s.row r).cap.toNat ≤ hi.toNat then .raise .bounds s
      else .done (s.setResult (positionWord found))))) :
    (hi < lo → exec i s = .next { s with result := notFound }) ∧
    (lo ≤ hi → (s.row r).cap.toNat ≤ hi.toNat → HaltsWith i s .bounds) ∧
    (lo ≤ hi → hi.toNat < (s.row r).cap.toNat → exec i s = .next { s with result := positionWord found }) := by
  by_cases hempty : hi < lo
  · rw [if_pos hempty, withSlots_sparse_one hr, conclude_done] at hexec
    have hnot : ¬ lo ≤ hi := fun h => BitVec.not_lt.mpr h hempty
    exact ⟨fun _ => hexec, fun h => absurd h hnot, fun h => absurd h hnot⟩
  · rw [if_neg hempty] at hexec
    obtain ⟨hhalt, hdone⟩ := exec_of_row_check hr hexec
    exact ⟨fun h => absurd h hempty, fun _ => hhalt, fun _ hcap => hdone (not_le.mpr hcap)⟩

theorem exec_crFind {s : State} {r : Index} (hr : s.HasRow r) (lo hi x : Index) :
    (hi < lo → exec (.crFind r lo hi x) s = .next { s with result := notFound }) ∧
    (lo ≤ hi → (s.row r).cap.toNat ≤ hi.toNat → HaltsWith (.crFind r lo hi x) s .bounds) ∧
    (lo ≤ hi → hi.toNat < (s.row r).cap.toNat → exec (.crFind r lo hi x) s =
      .next { s with result := positionWord ((s.row r).bsearch lo.toNat hi.toNat x) }) :=
  exec_of_search hr rfl

theorem exec_crScan {s : State} {r : Index} (hr : s.HasRow r) (lo hi x : Index) :
    (hi < lo → exec (.crScan r lo hi x) s = .next { s with result := notFound }) ∧
    (lo ≤ hi → (s.row r).cap.toNat ≤ hi.toNat → HaltsWith (.crScan r lo hi x) s .bounds) ∧
    (lo ≤ hi → hi.toNat < (s.row r).cap.toNat → exec (.crScan r lo hi x) s =
      .next { s with result := positionWord ((s.row r).scan lo.toNat hi.toNat x) }) :=
  exec_of_search hr rfl

/-! ### CR_FIND (R154, R156) -/

/-- One turn of the loop of `bsearch`: R154. -/
theorem SparseRow.bsearch_step (row : SparseRow) {lo hi : Int} (x : Index) (h : lo ≤ hi) : row.bsearch lo hi x =
    if row.idxAt (lo + (hi - lo) / 2).toNat = x then some (lo + (hi - lo) / 2).toNat
    else if row.idxAt (lo + (hi - lo) / 2).toNat < x then row.bsearch (lo + (hi - lo) / 2 + 1) hi x
    else row.bsearch lo (lo + (hi - lo) / 2 - 1) x :=
  bsearchLoop_step row.idxAt x lo hi h

/-- Settles O46: the branches of the command, and the loop by one turn of it. -/
theorem crFindRunsTheSearchLoop : Obligations.CrFindRunsTheSearchLoop := by
  refine ⟨fun s r lo hi x hr => ?_, fun row lo hi x => ?_⟩
  · obtain ⟨hempty, hbounds, hdone⟩ := exec_crFind hr lo hi x
    refine ⟨encodedAs_iff.mpr rfl, hempty, hbounds, fun hle hcap => ?_⟩
    rw [hdone hle hcap, positionWord_eq_getD]
  · by_cases h : lo ≤ hi
    · rw [if_pos h]
      exact row.bsearch_step x h
    · rw [if_neg h, row.bsearch_empty x (not_le.mp h)]

/-- Settles O47: the search is sound on every range, and complete on an ascending one. -/
theorem crFindGuarantees : Obligations.CrFindGuarantees := by
  intro s r lo hi x _ hr hle hcap
  obtain ⟨-, -, hdone⟩ := exec_crFind hr lo hi x
  refine ⟨_, hdone hle hcap, rfl, fun hfound => ?_, fun hasc => ⟨fun p hlo hhi hp => ?_, fun habsent => ?_⟩⟩
  · cases hsearch : (s.row r).bsearch lo.toNat hi.toNat x with
    | none => exact absurd (congrArg positionWord hsearch) hfound
    | some p =>
      obtain ⟨hlo, hhi, hp⟩ := SparseRow.bsearch_sound (Int.natCast_nonneg _) hsearch
      have hle : p ≤ hi.toNat := Int.ofNat_le.mp hhi
      simp only [positionWord_some_toNat hle]
      exact ⟨Int.ofNat_le.mp hlo, hle, hp⟩
  · simp only [SparseRow.bsearch_complete hasc hlo hhi hp, positionWord_some_toNat hhi]
  · simp only [SparseRow.bsearch_none habsent]
    rfl

/-! ### CR_SCAN (R157) -/

/-- On strictly ascending indices the lowest match is the only one, so the two searches agree: R157. -/
theorem SparseRow.scan_eq_bsearch {r : SparseRow} {lo hi : Nat} (hasc : r.Ascending lo (hi + 1)) (x : Index) :
    r.scan lo hi x = r.bsearch lo hi x := by
  by_cases h : ∃ p, lo ≤ p ∧ p ≤ hi ∧ r.idxAt p = x
  · obtain ⟨p, hlo, hhi, hp⟩ := h
    have hlowest : ∀ q, lo ≤ q → q < p → r.idxAt q ≠ x := fun q hq hqp he =>
      BitVec.lt_irrefl x (by simpa only [he, hp] using hasc q p hq hqp (Nat.lt_succ_of_le hhi))
    rw [SparseRow.scan_some hlo hhi hp hlowest, SparseRow.bsearch_complete hasc hlo hhi hp]
  · have habsent : ∀ p, lo ≤ p → p ≤ hi → r.idxAt p ≠ x := fun p hlo hhi hp => h ⟨p, hlo, hhi, hp⟩
    rw [SparseRow.scan_none habsent, SparseRow.bsearch_none habsent]

/-- Settles O48: the lowest match by the linear search, and CR_FIND by the agreement of the two searches. -/
theorem crScanFindsTheLowest : Obligations.CrScanFindsTheLowest := by
  intro s r lo hi x _ hr
  obtain ⟨hempty, hbounds, hdone⟩ := exec_crScan hr lo hi x
  refine ⟨encodedAs_iff.mpr rfl, hempty, hbounds, fun hle hcap => ⟨_, hdone hle hcap, rfl,
    fun p hlo hhi hp hlowest => ?_, fun habsent => ?_, fun hasc => ?_⟩⟩
  · simp only [SparseRow.scan_some hlo hhi hp hlowest, positionWord_some_toNat hhi]
  · simp only [SparseRow.scan_none habsent]
    rfl
  · obtain ⟨-, -, hfind⟩ := exec_crFind hr lo hi x
    rw [hfind hle hcap, SparseRow.scan_eq_bsearch hasc]

end Sys2Proof.Machine
end

section
/-! PROOFS. The capacity of a sparse row never decreases while the row lives (O21): 43_sparse_row_lifecycle_search.md
R150, R162. -/

namespace Sys2Proof.Machine

/-! ### The relocation of CR_SWAPCOL (R177) -/

/-- Mode ORDERED keeps the capacity, and mode LEGACY_APPEND resizes the row. -/
theorem SparseRow.cap_le_relocate {p : Params} (hp : p.Legal) {r t : SparseRow} (hr : r.Wf p) {k : Nat} {x : Index}
    (h : r.relocate p k x = some t) : r.cap.toNat ≤ t.cap.toNat := by
  unfold SparseRow.relocate at h
  split at h
  · cases h
    exact le_refl _
  · obtain ⟨g, hg, rfl⟩ := Option.map_eq_some_iff.mp h
    exact (SparseRow.resize_keeps hp hr hg).2.1

/-! ### Attempts that do not shrink a row -/

/-- In the state an attempt ends in, or takes its fault in, row `r` has at least the capacity it has in `s`. -/
def Attempt.KeepsCapacity (s : State) (r : Index) : Attempt → Prop
  | .done t => (s.row r).cap.toNat ≤ (t.row r).cap.toNat
  | .raise _ t => (s.row r).cap.toNat ≤ (t.row r).cap.toNat

theorem Attempt.KeepsCapacity.of_conclude {s t : State} {r : Index} {x : Attempt} {w : Command}
    (h : x.KeepsCapacity s r) (ht : conclude w x = .next t) : (s.row r).cap.toNat ≤ (t.row r).cap.toNat := by
  cases x with
  | done u => cases ht; exact h
  | raise c u => cases ht; exact h

theorem Attempt.KeepsCapacity.raise (s : State) (r : Index) (c : Cause) : (Attempt.raise c s).KeepsCapacity s r :=
  le_refl (s.row r).cap.toNat

theorem Attempt.KeepsCapacity.ite {s : State} {r : Index} {p : Prop} [Decidable p] {x y : Attempt}
    (hx : x.KeepsCapacity s r) (hy : y.KeepsCapacity s r) : (if p then x else y).KeepsCapacity s r := by
  split
  · exact hx
  · exact hy

theorem Attempt.KeepsCapacity.withSlots {s : State} {r : Index} {ds : List Octet} {rs : List Index} {x : Attempt}
    (hx : x.KeepsCapacity s r) : (withSlots s ds rs x).KeepsCapacity s r := .ite hx (.raise s r _)

/-- A new content of the row with at least its capacity, whatever SCR holds. -/
theorem Attempt.KeepsCapacity.putRow {s : State} {r : Index} (hr : r.toNat < s.sparse.length) (scr : Memory 8)
    {o : Option SparseRow} (h : ∀ t, o = some t → (s.row r).cap.toNat ≤ t.cap.toNat) :
    (State.putRow { s with scr := scr } r o).KeepsCapacity s r := by
  cases o with
  | none => exact le_refl (s.row r).cap.toNat
  | some t =>
    have hrow : (State.setRow { s with scr := scr } r t).row r = t := State.row_setRow_same _ r t hr
    change (s.row r).cap.toNat ≤ ((State.setRow { s with scr := scr } r t).row r).cap.toNat
    rw [hrow]
    exact h t rfl

/-- The re-pack of the sum: R171, R174. -/
theorem Attempt.KeepsCapacity.addThroughScratch {s : State} (hs : s.Wf) {sa : Index} (ha : s.HasRow sa)
    (f : Octet → Octet) (sb w : Index) : (addThroughScratch f sa sb w s).KeepsCapacity s sa := by
  refine .ite (.raise s sa _) (.ite (.raise s sa _) (.ite (.raise s sa _) (.putRow (hs.row_lt ha) _ fun t ht => ?_)))
  have hwidth : w.toNat ≤ 65536 := w.isLt.le
  exact (SparseRow.pack_keeps hs.legal (hs.row_wf ha) (by rwa [Memory.length_readRow]) ht).2

/-- The four outcomes of the two searches: R177. -/
theorem exec_crSwapcol_keepsCapacity {s : State} (hs : s.Wf) {r : Index} (hr : s.HasRow r) (i j : Index) :
    ∃ x, exec (.crSwapcol r i j) s = conclude (encode (.crSwapcol r i j)) x ∧ x.KeepsCapacity s r := by
  have hrow := hs.row_wf hr
  refine ⟨_, rfl, .withSlots ?_⟩
  simp only
  split
  case h_1 => exact le_refl (s.row r).cap.toNat
  case h_2 pi pj _ _ =>
    exact .putRow (o := some _) (hs.row_lt hr) s.scr fun t ht => by cases ht; exact le_refl _
  case h_3 pi _ _ => exact .putRow (hs.row_lt hr) s.scr fun t ht => SparseRow.cap_le_relocate hs.legal hrow ht
  case h_4 pj _ _ => exact .putRow (hs.row_lt hr) s.scr fun t ht => SparseRow.cap_le_relocate hs.legal hrow ht

/-- The commands that write one sparse row, CR_DESTROY left out, resize it, pack it or keep its capacity. -/
theorem exec_target_keepsCapacity {i : Instr} {s : State} {r : Index} (hs : s.Wf) (hr : s.HasRow r)
    (htarget : sparseTarget i = some r) (hlives : i ≠ .crDestroy r) :
    ∃ x, exec i s = conclude (encode i) x ∧ x.KeepsCapacity s r := by
  have hrow := hs.row_wf hr
  have hlt := hs.row_lt hr
  cases i with
  | crResize q newNz =>
    cases htarget
    exact ⟨_, rfl, .withSlots (.putRow hlt s.scr fun t ht => (SparseRow.resize_keeps hs.legal hrow ht).2.1)⟩
  | crCopy sd ss =>
    cases htarget
    refine ⟨_, rfl, .withSlots (.putRow hlt s.scr fun t ht => ?_)⟩
    obtain ⟨g, hg, rfl⟩ := Option.map_eq_some_iff.mp ht
    exact (SparseRow.resize_keeps hs.legal hrow hg).2.1
  | crDestroy q =>
    cases htarget
    exact absurd rfl hlives
  | crPack q a i k =>
    cases htarget
    refine ⟨_, rfl, .withSlots (.ite (.raise s _ _) (.putRow hlt s.scr fun t ht => ?_))⟩
    have hwidth : k.toNat ≤ 65536 := k.isLt.le
    exact (SparseRow.pack_keeps hs.legal hrow (by rwa [State.length_readRow]) ht).2
  | crAdd sa sb w =>
    cases htarget
    exact ⟨_, rfl, .withSlots (.addThroughScratch hs hr _ sb w)⟩
  | crSadd sa sb u w =>
    cases htarget
    exact ⟨_, rfl, .withSlots (.ite (le_refl (s.row _).cap.toNat) (.addThroughScratch hs hr _ sb w))⟩
  | crSwapcol q i j =>
    cases htarget
    exact exec_crSwapcol_keepsCapacity hs hr i j
  | _ => cases htarget

/-- Settles O21: a command that does not name the row as its destination leaves it alone (O20), and one that does keeps
its capacity. -/
theorem sparseCapacityNeverDecreases : Obligations.SparseCapacityNeverDecreases := by
  intro i s t r hs hr he hlives hagg
  by_cases htarget : sparseTarget i = some r
  · obtain ⟨x, hx, hkeeps⟩ := exec_target_keepsCapacity hs hr htarget hlives
    exact hkeeps.of_conclude (hx.symm.trans he)
  · obtain ⟨-, -, -, hframe⟩ := sparseWritesStayInNamedRow i s t he hagg
    rw [hframe r htarget]

end Sys2Proof.Machine
end

section
/-! PROOFS. The statements of 44_sparse_convert_arith.md about the converters CR_UNPACK (O50) and CR_PACK (O51), their
round trip (O52), and the sums through SCR: CR_ADD (O53) and the sums of dense views (O55). -/

namespace Sys2Proof.Machine

/-! ### CR_UNPACK (R170) -/

/-- The empty row is told apart before both checks. -/
theorem exec_crUnpack {s : State} {r : Index} {a : Octet} {i k : Index} (hr : s.HasRow r) (ha : s.HasSlot a) :
    ((s.row r).nz = 0 → exec (.crUnpack r a i k) s = .next s) ∧
    ((s.row r).nz ≠ 0 →
      ¬ ((s.row r).IndicesBelow k.toNat ∧ s.Fits a (s.params.base i.toNat k.toNat) k.toNat) →
      HaltsWith (.crUnpack r a i k) s .bounds) ∧
    ((s.row r).nz ≠ 0 → (s.row r).IndicesBelow k.toNat → s.Fits a (s.params.base i.toNat k.toNat) k.toNat →
      exec (.crUnpack r a i k) s = .next (s.setBuf a
        (Memory.scatter (s.buf a) (s.params.base i.toNat k.toNat) (s.row r).entries))) := by
  have hslots : ∀ b ∈ ([] : List Octet), s.HasSlot b := by simp
  obtain ⟨hnoop, hrest⟩ := exec_of_noop (i := .crUnpack r a i k) (n := (s.row r).nz = 0) hslots
    (by rw [exec, execCrUnpack, withSlots_both ha hr, withSlots_pass hslots (by simp)])
  have hcheck := fun hnz => exec_of_two_checks hslots (hrest hnz)
  exact ⟨hnoop, fun hnz => (hcheck hnz).1, fun hnz => (hcheck hnz).2⟩

/-- Settles O50: scattering the entries writes the dense view where the row names a column, and nothing elsewhere. -/
theorem crUnpackScattersEntries : Obligations.CrUnpackScattersEntries := by
  intro s r a i k hs hr ha ins b
  obtain ⟨hnoop, hhalt, hdone⟩ := exec_crUnpack (i := i) (k := k) hr ha
  refine ⟨encodedAs_iff.mpr rfl, hnoop, hhalt, fun hnz hidx hfit => ⟨_, hdone hnz hidx hfit,
    onlyBufferOf_setBuf s a _ (hs.slot_lt ha), fun p hp => ?_, fun o ho => ?_, fun hzero c hc => ?_⟩⟩
  all_goals rw [s.dRead_setBuf a _ _ (hs.slot_lt ha)]
  · exact ((s.row r).read_scatter_entries _ b _).1 p hp rfl
  · exact ((s.row r).read_scatter_entries _ b o).2 ho
  · exact (s.row r).read_scatter_zeroed (hzero c hc)

/-! ### CR_PACK (R171) -/

theorem exec_crPack_outside {s : State} {r : Index} {a : Octet} {i k : Index} (hr : s.HasRow r) (ha : s.HasSlot a)
    (h : ¬ s.Fits a (s.params.base i.toNat k.toNat) k.toNat) : HaltsWith (.crPack r a i k) s .bounds := by
  rw [haltsWith_iff, exec, execCrPack, withSlots_both ha hr, if_pos h, conclude_raise]

theorem exec_crPack_inside {s : State} {r : Index} {a : Octet} {i k : Index} (hr : s.HasRow r) (ha : s.HasSlot a)
    (h : s.Fits a (s.params.base i.toNat k.toNat) k.toNat) :
    exec (.crPack r a i k) s = conclude (encode (.crPack r a i k)) (s.putRow r
      ((s.row r).pack s.params (s.readRow a (s.params.base i.toNat k.toNat) k.toNat))) := by
  rw [exec, execCrPack, withSlots_both ha hr, if_neg (not_not.mpr h)]

theorem State.getD_readRow (s : State) (a : Octet) (o n c : Nat) (hc : c < n) :
    (s.readRow a o n).getD c 0 = s.dRead a (o + c) := by
  rw [List.getD_eq_getElem _ _ (by rwa [State.length_readRow]), State.getElem_readRow]

/-- Settles O51: past the range check the command puts what `row_pack` makes of the row. -/
theorem crPackGathersNonzeros : Obligations.CrPackGathersNonzeros := by
  intro s r a i k hs hr ha ins b d cnt
  have hput := fun hfit => exec_of_putRow (exec_crPack_inside (i := i) (k := k) hr ha hfit)
  have hlen := s.length_readRow a b k.toNat
  have hread := s.getD_readRow a b k.toNat
  refine ⟨encodedAs_iff.mpr rfl, exec_crPack_outside hr ha, fun hfit hcap => ?_, fun hfit hcap => ?_⟩
  · exact (hput hfit).1 (SparseRow.pack_none hlen hread hcap)
  · obtain ⟨t, hpack, hpackOf, -⟩ := SparseRow.pack_some hs.legal (hs.row_wf hr) k.isLt.le hlen hread hcap
    refine ⟨_, (hput hfit).2 t hpack, onlyRow_setRow s r t, ?_⟩
    rwa [s.row_setRow_same r t (hs.row_lt hr)]

/-! ### The round trip (R172) -/

/-- A range check reads the dense slots only: R64. -/
theorem State.fits_congr {s t : State} (h : t.dense = s.dense) (a : Octet) (o n : Nat) :
    t.Fits a o n ↔ s.Fits a o n := by
  rw [State.Fits, State.Fits, State.len, State.len, State.slot, State.slot, h]

/-- A range check reads no octet: R64. -/
theorem OnlyBufferOf.fits_iff {a : Octet} {s t : State} (h : OnlyBufferOf a s t) (ha : a.toNat < s.dense.length)
    (b : Octet) (o n : Nat) : t.Fits b o n ↔ s.Fits b o n := by
  rw [h.eq_setBuf ha, State.fits_setBuf]

/-- The row commands write neither the parameters nor the dense slots. -/
theorem OnlyRow.dense_eq {r : Index} {s t : State} (h : OnlyRow r s t) : t.dense = s.dense := by
  rw [h.1]

theorem OnlyRow.params_eq {r : Index} {s t : State} (h : OnlyRow r s t) : t.params = s.params := by
  rw [h.1]

theorem OnlyBufferOf.params_eq {a : Octet} {s t : State} (h : OnlyBufferOf a s t) : t.params = s.params := by
  rw [h.1.1]

theorem OnlyBufferOf.row_eq {a : Octet} {s t : State} (h : OnlyBufferOf a s t) (r : Index) : t.row r = s.row r := by
  rw [h.1.1, State.row, State.row]

/-- Unpacking onto zeroed columns completes with the dense view, for the empty row too. -/
theorem exec_crUnpack_zeroed {s : State} {r : Index} {a : Octet} {i k : Index} (hs : s.Wf) (hr : s.HasRow r)
    (ha : s.HasSlot a) (hidx : (s.row r).IndicesBelow k.toNat)
    (hfit : s.Fits a (s.params.base i.toNat k.toNat) k.toNat)
    (hzero : ∀ c, c < k.toNat → s.dRead a (s.params.base i.toNat k.toNat + c) = 0) :
    ∃ t, exec (.crUnpack r a i k) s = .next t ∧
      ∀ c, c < k.toNat → t.dRead a (s.params.base i.toNat k.toNat + c) = (s.row r).denseAt c := by
  obtain ⟨-, hempty, -, hdone⟩ := crUnpackScattersEntries s r a i k hs hr ha
  by_cases hnz : (s.row r).nz = 0
  · refine ⟨s, hempty hnz, fun c hc => ?_⟩
    rw [hzero c hc, SparseRow.denseAt_none fun p hp => absurd hp (by simp [hnz])]
  · obtain ⟨t, hexec, -, -, -, hview⟩ := hdone hnz hidx hfit
    exact ⟨t, hexec, hview hzero⟩

/-- Settles O52: the packed row has the dense view of what was packed, and unpacks to it onto the zeroed row. -/
theorem packThenUnpackRestores : Obligations.PackThenUnpackRestores := by
  intro s r a b i j k hs hr ha hb d hfa hfb hcap
  obtain ⟨-, -, -, hpack⟩ := crPackGathersNonzeros s r a i k hs hr ha
  obtain ⟨t₁, he₁, honly₁, hpackOf⟩ := hpack hfa hcap
  have ht₁ := exec_keeps_wf hs he₁
  have hb₁ : t₁.HasSlot b := by rwa [State.HasSlot, honly₁.params_eq]
  have hwidth : (k.setWidth 32).toNat = k.toNat := BitVec.toNat_setWidth_of_le (by decide)
  obtain ⟨-, -, hzero⟩ := zeroRowClearsOctets t₁ b j (k.setWidth 32) ht₁ hb₁
  rw [hwidth, honly₁.params_eq, State.fits_congr honly₁.dense_eq] at hzero
  obtain ⟨t₂, he₂, honly₂, hcleared, -, -⟩ := hzero hfb
  have ht₂ := exec_keeps_wf ht₁ he₂
  have hparams : t₂.params = s.params := honly₂.params_eq.trans honly₁.params_eq
  have hfit : t₂.Fits b (s.params.base j.toNat k.toNat) k.toNat := by
    rwa [honly₂.fits_iff (ht₁.slot_lt hb₁), State.fits_congr honly₁.dense_eq]
  have hunpack := exec_crUnpack_zeroed (r := r) (a := b) (i := j) (k := k) ht₂
    (by rwa [State.HasRow, hparams]) (by rwa [State.HasSlot, hparams])
  rw [hparams, honly₂.row_eq] at hunpack
  obtain ⟨-, -, -, hentry, -, -⟩ := id hpackOf
  obtain ⟨t₃, he₃, hview⟩ := hunpack (fun p hp => (hentry p hp).1) hfit hcleared
  exact ⟨t₁, t₂, t₃, he₁, he₂, he₃, fun c hc => ⟨(hview c hc).trans (hpackOf.denseAt hc), hpackOf.denseAt hc⟩⟩

/-! ### CR_ADD (R174) -/

theorem exec_crAdd {sa sb w : Index} {s : State} (ha : s.HasRow sa) (hb : s.HasRow sb) :
    exec (.crAdd sa sb w) s = conclude (encode (.crAdd sa sb w)) (addThroughScratch (fun v => v) sa sb w s) := by
  rw [exec, execCrAdd, withSlots_sparse_two ha hb]

/-- Settles O53: CR_ADD has no case before the sum through SCR. -/
theorem crAddSumsThroughScratch : Obligations.CrAddSumsThroughScratch :=
  fun _ _ _ _ hs ha hb => ⟨encodedAs_iff.mpr rfl, sumsThroughScratch_of_exec hs ha (exec_crAdd ha hb)⟩

/-! ### The sums in dense views (R174, R175) -/

/-- A sum that completes leaves, column by column, the dense view plus the sum of the scaled entries. -/
theorem SumsThroughScratch.denseAt {i : Instr} {f : Octet → Octet} {sa sb w : Index} {s t : State}
    (h : SumsThroughScratch i f sa sb w s) (he : exec i s = .next t) (ht : t.halted = false) {c : Nat}
    (hc : c < w.toNat) : (t.row sa).denseAt c = (s.row sa).denseAt c ^^^ (s.row sb).xorAt f c := by
  obtain ⟨hbounds, hwide, halloc, hdone⟩ := h
  have hnot : ∀ cause, ¬ HaltsWith i s cause := fun cause hhalt =>
    Bool.false_ne_true (ht.symm.trans (hhalt.halted he))
  by_cases hidx : (s.row sa).IndicesBelow w.toNat ∧ (s.row sb).IndicesBelow w.toNat
  case neg => exact absurd (hbounds hidx) (hnot _)
  obtain ⟨hia, hib⟩ := hidx
  by_cases hw : s.params.scrCap < w.toNat
  case pos => exact absurd (hwide hia hib hw) (hnot _)
  by_cases hcap : (s.row sa).CanHold s.params ((List.range w.toNat).filter fun c =>
      (s.row sa).denseAt c ^^^ (s.row sb).xorAt f c != 0).length
  case neg =>
    obtain ⟨scr, hhalt⟩ := halloc hia hib (not_lt.mp hw) hcap
    obtain rfl := Host.Outcome.next.inj (he.symm.trans hhalt)
    exact absurd (State.takeHalt_halted _ _ _) (by rw [ht]; exact Bool.false_ne_true)
  obtain ⟨t', hexec, -, hpackOf⟩ := hdone hia hib (not_lt.mp hw) hcap
  obtain rfl := Host.Outcome.next.inj (he.symm.trans hexec)
  exact hpackOf.denseAt hc

/-- Settles O55: where no index of the second row repeats, the sum of a column is its scaled dense view. -/
theorem sparseSumsAddDenseViews : Obligations.SparseSumsAddDenseViews := by
  intro s t sa sb w hs ha hb _ hdistinct ht
  refine ⟨fun he c hc => ?_, fun u mul htable he c hc => ?_⟩
  · obtain ⟨-, hsum⟩ := crAddSumsThroughScratch s sa sb w hs ha hb
    rw [hsum.denseAt he ht hc, SparseRow.xorAt_distinct _ rfl hdistinct]
  · have hfield := htable.1
    obtain ⟨-, hzero, hsum⟩ := crSaddSumsScaledRow s sa sb u w hs ha hb
    by_cases hu : u = 0
    · obtain rfl := Host.Outcome.next.inj (he.symm.trans (hzero hu))
      rw [hu, hfield.zero_mul]
      exact BitVec.xor_zero.symm
    · have hkeeps : s.params.tables.tmul u 0 = 0 := (htable.tmul_eq u 0).trans (hfield.mul_zero u)
      rw [(hsum hu).denseAt he ht hc, SparseRow.xorAt_distinct _ hkeeps hdistinct, htable.tmul_eq]

end Sys2Proof.Machine
end

section
/-! PROOFS. The statements of 44_sparse_convert_arith.md about what CR_SWAPCOL does to the stored entries: the four
outcomes of its searches and the relocation of mode ORDERED (O56), and that of mode LEGACY_APPEND (O57). -/

namespace Sys2Proof.Machine

/-! ### The outcomes of the two searches (R177) -/

/-- The search of CR_SWAPCOL finds one of the indices `i` and `j`, at position `p`, and `x` is the other one. -/
def SparseRow.FindsOne (row : SparseRow) (i j : Index) (p : Nat) (x : Index) : Prop :=
  (row.bsearch 0 ((row.nz.toNat : Int) - 1) i = some p ∧ row.bsearch 0 ((row.nz.toNat : Int) - 1) j = none ∧ x = j) ∨
  (row.bsearch 0 ((row.nz.toNat : Int) - 1) i = none ∧ row.bsearch 0 ((row.nz.toNat : Int) - 1) j = some p ∧ x = i)

theorem SparseRow.FindsOne.lt {row : SparseRow} {i j x : Index} {p : Nat} (h : row.FindsOne i j p x) :
    p < row.nz.toNat := by
  rcases h with ⟨hi, -, -⟩ | ⟨-, hj, -⟩
  · exact SparseRow.bsearch_lt hi
  · exact SparseRow.bsearch_lt hj

theorem exec_crSwapcol_neither {s : State} {r i j : Index} (hr : s.HasRow r)
    (hi : (s.row r).bsearch 0 (((s.row r).nz.toNat : Int) - 1) i = none)
    (hj : (s.row r).bsearch 0 (((s.row r).nz.toNat : Int) - 1) j = none) : exec (.crSwapcol r i j) s = .next s := by
  simp only [exec, execCrSwapcol, withSlots_sparse_one hr, hi, hj, conclude_done]

theorem exec_crSwapcol_both {s : State} {r i j : Index} {p q : Nat} (hr : s.HasRow r)
    (hi : (s.row r).bsearch 0 (((s.row r).nz.toNat : Int) - 1) i = some p)
    (hj : (s.row r).bsearch 0 (((s.row r).nz.toNat : Int) - 1) j = some q) : exec (.crSwapcol r i j) s =
      .next (s.setRow r { s.row r with val := Memory.swap (s.row r).val p q }) := by
  simp only [exec, execCrSwapcol, withSlots_sparse_one hr, hi, hj, conclude_done]

theorem exec_crSwapcol_one {s : State} {r i j x : Index} {p : Nat} (hr : s.HasRow r)
    (h : (s.row r).FindsOne i j p x) : exec (.crSwapcol r i j) s =
      conclude (encode (.crSwapcol r i j)) (s.putRow r ((s.row r).relocate s.params p x)) := by
  rcases h with ⟨hi, hj, rfl⟩ | ⟨hi, hj, rfl⟩ <;>
    simp only [exec, execCrSwapcol, withSlots_sparse_one hr, hi, hj]

theorem SparseRow.valAt_swap (row : SparseRow) (p q o : Nat) :
    SparseRow.valAt { row with val := Memory.swap row.val p q } o =
      if o = q then row.valAt p else if o = p then row.valAt q else row.valAt o :=
  Memory.read_swap row.val p q o

/-! ### Relocation in mode ORDERED (R178) -/

theorem SparseRow.relocate_ordered {ps : Params} (h : ps.swapcolMode = .ordered) (row : SparseRow) (p : Nat)
    (x : Index) : row.relocate ps p x = some (row.relocateOrdered p x) := by
  simp only [SparseRow.relocate, h]

theorem exec_crSwapcol_ordered {s : State} {r i j x : Index} {p : Nat} (hr : s.HasRow r)
    (hmode : s.params.swapcolMode = .ordered) (h : (s.row r).FindsOne i j p x) :
    exec (.crSwapcol r i j) s = .next (s.setRow r ((s.row r).relocateOrdered p x)) :=
  (exec_of_putRow (exec_crSwapcol_one hr h)).2 _ (SparseRow.relocate_ordered hmode _ p x)

/-- The place of the insertion: the entries before it have no larger index, and the first one after it has. -/
theorem SparseRow.relocateOrdered_place {ps : Params} {row : SparseRow} (hw : row.Wf ps) {k : Nat} (x : Index)
    (hk : k < row.nz.toNat) :
    ∃ q, (∀ e ∈ (row.entries.eraseIdx k).take q, e.1 ≤ x.toNat) ∧
      (∀ e, ((row.entries.eraseIdx k).drop q).head? = some e → x.toNat < e.1) ∧
      (row.relocateOrdered k x).entries =
        (row.entries.eraseIdx k).take q ++ (x.toNat, row.valAt k) :: (row.entries.eraseIdx k).drop q := by
  obtain ⟨-, -, -, -, hentries⟩ := SparseRow.relocateOrdered_spec hw x hk
  obtain ⟨htake, hdrop⟩ := takeWhile_eq_take (fun z : Nat × Octet => decide (z.1 ≤ x.toNat)) (row.entries.eraseIdx k)
  rw [htake, hdrop] at hentries
  refine ⟨_, fun e he => ?_, fun e he => ?_, hentries⟩
  · rw [← htake] at he
    exact of_decide_eq_true (List.mem_takeWhile_imp (p := fun z : Nat × Octet => decide (z.1 ≤ x.toNat)) he)
  · rw [← hdrop] at he
    have hnot := List.head?_dropWhile_not (fun z : Nat × Octet => decide (z.1 ≤ x.toNat)) (row.entries.eraseIdx k)
    rw [he] at hnot
    exact not_le.mp (of_decide_eq_false hnot)

/-- Settles O56: the outcomes of the searches, the exchange of two values, and the place of the insertion. -/
theorem crSwapcolMovesEntries : Obligations.CrSwapcolMovesEntries := by
  intro s r i j hs hr ins row pi pj relocates
  have hrow := hs.row_wf hr
  have hsame := fun t => s.row_setRow_same r t (hs.row_lt hr)
  have hrelocates : s.params.swapcolMode = .ordered → ∀ p x, row.FindsOne i j p x → relocates p x := by
    intro hmode p x hfinds
    obtain ⟨-, hnz, hcap, hkeeps, -⟩ := SparseRow.relocateOrdered_spec hrow x hfinds.lt
    refine ⟨_, exec_crSwapcol_ordered hr hmode hfinds, onlyRow_setRow s r _, ?_⟩
    rw [hsame]
    exact ⟨hnz, hcap, hkeeps, SparseRow.relocateOrdered_place hrow x hfinds.lt⟩
  refine ⟨encodedAs_iff.mpr rfl, exec_crSwapcol_neither hr, fun p q hp hq => ?_,
    fun hmode p hp hj => hrelocates hmode p j (.inl ⟨hp, hj, rfl⟩),
    fun hmode p hi hp => hrelocates hmode p i (.inr ⟨hi, hp, rfl⟩)⟩
  refine ⟨_, exec_crSwapcol_both hr hp hq, onlyRow_setRow s r _, ?_⟩
  rw [hsame]
  refine ⟨rfl, ?_, ?_, fun o hop hoq => ?_⟩
  · rw [SparseRow.valAt_swap, if_pos rfl]
    exact ite_eq_right_iff.mpr fun h => h ▸ rfl
  · rw [SparseRow.valAt_swap, if_pos rfl]
  · rw [SparseRow.valAt_swap, if_neg hoq, if_neg hop]

/-! ### Relocation in mode LEGACY_APPEND (R179) -/

theorem SparseRow.relocate_legacyAppend {ps : Params} (h : ps.swapcolMode = .legacyAppend) (row : SparseRow) (p : Nat)
    (x : Index) : row.relocate ps p x = row.relocateAppend ps p x := by
  simp only [SparseRow.relocate, h]

theorem SparseRow.relocateAppend_none {ps : Params} {row : SparseRow} (h : ¬ row.CanHold ps (row.nz.toNat + 1))
    (p : Nat) (x : Index) : row.relocateAppend ps p x = none := by
  rw [SparseRow.relocateAppend, SparseRow.resize_none h, Option.map_none]

/-- Row `t` is row `row` with one more entry, index `x` with the value of position `k`, whose value is zeroed. -/
def SparseRow.AppendedFrom (row t : SparseRow) (k : Nat) (x : Index) : Prop :=
  (∀ q, t.idxAt q = if q = row.nz.toNat then x else row.idxAt q) ∧
  ∀ q, t.valAt q = if q = k then 0 else if q = row.nz.toNat then row.valAt k else row.valAt q

/-- A resized row reads as the row did, at every position: R150. -/
theorem SparseRow.resize_reads {ps : Params} {row t : SparseRow} (hrow : row.Wf ps) (ht : t.Wf ps)
    (h : row.KeepsFrom t 0) (q : Nat) : t.idxAt q = row.idxAt q ∧ t.valAt q = row.valAt q := by
  obtain ⟨hkept, hadded⟩ := h q (Nat.zero_le q)
  by_cases hq : q < row.cap.toNat
  · exact hkept hq
  · obtain ⟨hidx, hval⟩ := hrow.beyond (not_lt.mp hq)
    rw [hidx, hval]
    by_cases hqt : q < t.cap.toNat
    · exact hadded (not_lt.mp hq) hqt
    · exact ht.beyond (not_lt.mp hqt)

theorem SparseRow.relocateAppend_some {ps : Params} (hps : ps.Legal) {row : SparseRow} (hrow : row.Wf ps)
    (h : row.CanHold ps (row.nz.toNat + 1)) (k : Nat) (x : Index) :
    ∃ t, row.relocateAppend ps k x = some t ∧ row.GrownTo ps t (row.nz.toNat + 1) ∧ row.AppendedFrom t k x := by
  obtain ⟨g, hresize, hgrown, hkeeps, hwf⟩ := SparseRow.resize_some hps hrow h
  have hreads := SparseRow.resize_reads hrow hwf hkeeps
  refine ⟨{ g with idx := Memory.write g.idx row.nz.toNat x
                   val := Memory.write (Memory.write g.val row.nz.toNat (row.valAt k)) k 0 },
    by rw [SparseRow.relocateAppend, hresize, Option.map_some], hgrown, fun q => ?_, fun q => ?_⟩
  · rw [← (hreads q).1]
    exact Memory.read_write _ _ _ _
  · rw [← (hreads q).2, SparseRow.valAt, Memory.read_write, Memory.read_write]
    rfl

/-- Settles O57: the row is resized by one, and then reads as it did but for the appended entry and the zeroed one. -/
theorem crSwapcolLegacyAppends : Obligations.CrSwapcolLegacyAppends := by
  intro s r i j hs hr hmode ins row n pi pj p x hfinds
  have hrow : row.Wf s.params := hs.row_wf hr
  have hp : p < n := SparseRow.FindsOne.lt hfinds
  obtain ⟨hhalt, hdone⟩ := exec_of_putRow (exec_crSwapcol_one hr hfinds)
  rw [SparseRow.relocate_legacyAppend hmode] at hhalt hdone
  refine ⟨fun hcap => hhalt (SparseRow.relocateAppend_none hcap p x), fun hcap => ?_⟩
  obtain ⟨t, happend, hgrown, hidx, hval⟩ := SparseRow.relocateAppend_some hs.legal hrow hcap p x
  refine ⟨_, hdone t happend, onlyRow_setRow s r t, ?_⟩
  rw [s.row_setRow_same r t (hs.row_lt hr)]
  refine ⟨hgrown, ?_, ?_, ?_, fun q hq => ?_, fun q hq hqp => ?_, fun q hq => ?_⟩
  · rw [hidx, if_pos rfl]
  · rw [hval, if_neg hp.ne', if_pos rfl]
  · rw [hval, if_pos rfl]
  · rw [hidx, if_neg hq.ne]
  · rw [hval, if_neg hqp, if_neg hq.ne]
  · rw [hidx, hval, if_neg (by omega), if_neg (by omega), if_neg (by omega)]
    exact ⟨fun _ => ⟨rfl, rfl⟩, fun hbeyond _ => hrow.beyond hbeyond⟩

end Sys2Proof.Machine
end

section
/-! PROOFS. The law of CR_SWAPCOL on ascending rows (O58): it exchanges two columns of the dense view in both modes,
and undoes itself in mode ORDERED (44_sparse_convert_arith.md R177, R178). Both modes give the relocated value another
column; the entries at the other positions, `entries.eraseIdx p`, stay. -/

namespace Sys2Proof.Machine

/-! ### Rows as lists of entries -/

/-- No index is stored twice: R29 (a) without the order. -/
def SparseRow.Distinct (r : SparseRow) : Prop := ∀ p q, p < q → q < r.nz.toNat → r.idxAt p ≠ r.idxAt q

theorem SparseRow.Distinct.eq_of_idxAt {r : SparseRow} (h : r.Distinct) {p q : Nat} (hp : p < r.nz.toNat)
    (hq : q < r.nz.toNat) (he : r.idxAt p = r.idxAt q) : p = q := by
  rcases Nat.lt_trichotomy p q with hlt | heq | hlt
  · exact absurd he (h p q hlt hq)
  · exact heq
  · exact absurd he.symm (h q p hlt hp)

/-- Where no index repeats, a nonzero octet of the dense view is a stored entry. -/
theorem SparseRow.Distinct.denseAt_eq_iff {r : SparseRow} (h : r.Distinct) {c : Nat} {v : Octet} (hv : v ≠ 0) :
    r.denseAt c = v ↔ (c, v) ∈ r.entries := by
  rw [SparseRow.mem_entries]
  refine ⟨fun hc => ?_, ?_⟩
  · by_contra hnone
    have hzero : r.denseAt c = 0 := SparseRow.denseAt_none fun p hp hpc =>
      hnone ⟨p, hp, by rw [← hc, ← hpc, SparseRow.denseAt_distinct h hp]⟩
    exact hv (hc.symm.trans hzero)
  · rintro ⟨p, hp, he⟩
    obtain ⟨rfl, rfl⟩ := Prod.mk.inj he
    exact SparseRow.denseAt_distinct h hp

theorem SparseRow.denseAt_absent {r : SparseRow} {x : Index} (h : ∀ p, p < r.nz.toNat → r.idxAt p ≠ x) :
    r.denseAt x.toNat = 0 :=
  SparseRow.denseAt_none fun p hp he => h p hp (BitVec.eq_of_toNat_eq he)

theorem SparseRow.ascending_iff_entries (r : SparseRow) :
    r.Ascending 0 r.nz.toNat ↔ r.entries.Pairwise fun e f => e.1 < f.1 := by
  rw [List.pairwise_iff_getElem]
  simp only [SparseRow.length_entries, SparseRow.getElem_entries]
  exact ⟨fun h p q _ hq hpq => h p q (Nat.zero_le p) hpq hq, fun h p q _ hpq hq => h p q (hpq.trans hq) hq hpq⟩

theorem SparseRow.noStoredZero_iff_entries (r : SparseRow) : r.NoStoredZero ↔ ∀ e ∈ r.entries, e.2 ≠ 0 := by
  refine ⟨fun h e he => ?_, fun h p hp => h _ ((r.mem_entries _).mpr ⟨p, hp, rfl⟩)⟩
  obtain ⟨p, hp, rfl⟩ := (r.mem_entries e).mp he
  exact h p hp

/-- The entries at the positions other than `p`. -/
theorem SparseRow.mem_eraseIdx_entries (r : SparseRow) (p : Nat) (e : Nat × Octet) :
    e ∈ r.entries.eraseIdx p ↔ ∃ q, q < r.nz.toNat ∧ q ≠ p ∧ e = ((r.idxAt q).toNat, r.valAt q) := by
  rw [List.mem_eraseIdx_iff_getElem]
  refine ⟨fun ⟨q, hq, hqp, he⟩ => ?_, fun ⟨q, hq, hqp, he⟩ => ?_⟩
  · exact ⟨q, by rwa [SparseRow.length_entries] at hq, hqp, by rw [← he, SparseRow.getElem_entries]⟩
  · exact ⟨q, by rwa [SparseRow.length_entries], hqp, by rw [he, SparseRow.getElem_entries]⟩

theorem SparseRow.entries_perm_cons_eraseIdx (r : SparseRow) {p : Nat} (hp : p < r.nz.toNat) :
    r.entries.Perm (((r.idxAt p).toNat, r.valAt p) :: r.entries.eraseIdx p) := by
  have hlt : p < r.entries.length := by rwa [SparseRow.length_entries]
  rw [← r.getElem_entries p hlt]
  exact (List.getElem_cons_eraseIdx_perm hlt).symm

theorem SparseRow.KeepsFrom.trans {r t u : SparseRow} {n : Nat} (h : r.KeepsFrom t n) (hcap : t.cap = r.cap)
    (h' : t.KeepsFrom u n) : r.KeepsFrom u n := by
  intro q hq
  obtain ⟨hkept, -⟩ := h q hq
  obtain ⟨hkept', hadded'⟩ := h' q hq
  rw [hcap] at hkept' hadded'
  exact ⟨fun hc => ⟨(hkept' hc).1.trans (hkept hc).1, (hkept' hc).2.trans (hkept hc).2⟩, hadded'⟩

/-- Well-formed rows with equal counts, equal entries and equal contents above the count are the same. -/
theorem SparseRow.eq_of_entries {ps : Params} {r t : SparseRow} (hr : r.Wf ps) (ht : t.Wf ps) (hnz : t.nz = r.nz)
    (hcap : t.cap = r.cap) (hentries : t.entries = r.entries) (habove : r.KeepsFrom t r.nz.toNat) : t = r := by
  refine SparseRow.eq_of_contents ht hr hnz hcap fun q => ?_
  by_cases hq : q < r.nz.toNat
  · have hget := congrArg (fun l => l[q]?) hentries
    simp only [SparseRow.entries, List.getElem?_map, List.getElem?_range, hnz, hq, Option.map_some,
      Option.some.injEq, Prod.mk.injEq] at hget
    exact ⟨BitVec.eq_of_toNat_eq hget.1, hget.2⟩
  · obtain ⟨hkept, -⟩ := habove q (not_lt.mp hq)
    by_cases hc : q < r.cap.toNat
    · exact hkept hc
    · obtain ⟨hidx, hval⟩ := hr.beyond (not_lt.mp hc)
      rw [hidx, hval]
      exact ht.beyond (by rw [hcap]; exact not_lt.mp hc)

/-! ### Both entries present: the two values are exchanged (R177) -/

theorem SparseRow.denseAt_swap {r : SparseRow} (h : r.Distinct) {p q : Nat} (hp : p < r.nz.toNat)
    (hq : q < r.nz.toNat) (c : Nat) : SparseRow.denseAt { r with val := Memory.swap r.val p q } c =
      r.denseAt (Equiv.swap (r.idxAt p).toNat (r.idxAt q).toNat c) := by
  set t : SparseRow := { r with val := Memory.swap r.val p q }
  have hview : ∀ o, o < r.nz.toNat → t.denseAt (r.idxAt o).toNat = t.valAt o := fun o ho =>
    SparseRow.denseAt_distinct (r := t) h ho
  have hval := r.valAt_swap p q
  by_cases hc : ∃ o, o < r.nz.toNat ∧ (r.idxAt o).toNat = c
  · obtain ⟨o, ho, rfl⟩ := hc
    rw [hview o ho, hval]
    by_cases hoq : o = q
    · rw [if_pos hoq, hoq, Equiv.swap_apply_right, SparseRow.denseAt_distinct h hp]
    by_cases hop : o = p
    · rw [if_neg hoq, if_pos hop, hop, Equiv.swap_apply_left, SparseRow.denseAt_distinct h hq]
    · rw [if_neg hoq, if_neg hop, Equiv.swap_apply_of_ne_of_ne, SparseRow.denseAt_distinct h ho]
      · exact fun he => hop (h.eq_of_idxAt ho hp (BitVec.eq_of_toNat_eq he))
      · exact fun he => hoq (h.eq_of_idxAt ho hq (BitVec.eq_of_toNat_eq he))
  · push Not at hc
    rw [Equiv.swap_apply_of_ne_of_ne (hc p hp).symm (hc q hq).symm, SparseRow.denseAt_none hc]
    exact SparseRow.denseAt_none (r := t) hc

theorem SparseRow.swap_swap {ps : Params} {r : SparseRow} (hr : r.Wf ps) {p q : Nat} (hp : p < r.nz.toNat)
    (hq : q < r.nz.toNat) : { r with val := Memory.swap (Memory.swap r.val p q) p q } = r := by
  have hwf := SparseRow.wf_swapVals (SparseRow.wf_swapVals hr hp hq) hp hq
  refine SparseRow.eq_of_contents hwf hr rfl rfl fun o => ⟨rfl, ?_⟩
  change Memory.read (Memory.swap (Memory.swap r.val p q) p q) o = Memory.read r.val o
  simp only [Memory.read_swap]
  grind

/-! ### One entry present: it takes the other index (R178, R179) -/

/-- The nonzero entries of `t` are those of `r`, with index `x` for the entry at position `p`: what the relocation
does in both modes. -/
def SparseRow.MovesEntry (r t : SparseRow) (p : Nat) (x : Index) : Prop :=
  ∀ e : Nat × Octet, e.2 ≠ 0 → (e ∈ t.entries ↔ e = (x.toNat, r.valAt p) ∨ e ∈ r.entries.eraseIdx p)

/-- Then the two columns are exchanged, since nothing else is stored in either. -/
theorem SparseRow.MovesEntry.denseAt {r t : SparseRow} {p : Nat} {x : Index} (h : r.MovesEntry t p x)
    (hr : r.Distinct) (ht : t.Distinct) (hp : p < r.nz.toNat) (hx : ∀ q, q < r.nz.toNat → r.idxAt q ≠ x) (c : Nat) :
    t.denseAt c = r.denseAt (Equiv.swap (r.idxAt p).toNat x.toNat c) := by
  have hcols : ∀ d v, (d, v) ∈ r.entries.eraseIdx p → d ≠ (r.idxAt p).toNat ∧ d ≠ x.toNat := by
    intro d v he
    obtain ⟨q, hq, hqp, he⟩ := (r.mem_eraseIdx_entries p _).mp he
    obtain ⟨rfl, rfl⟩ := Prod.mk.inj he
    exact ⟨fun heq => hqp (hr.eq_of_idxAt hq hp (BitVec.eq_of_toNat_eq heq)),
      fun heq => hx q hq (BitVec.eq_of_toNat_eq heq)⟩
  have hiff : ∀ v, v ≠ 0 →
      (t.denseAt c = v ↔ r.denseAt (Equiv.swap (r.idxAt p).toNat x.toNat c) = v) := by
    intro v hv
    rw [ht.denseAt_eq_iff hv, hr.denseAt_eq_iff hv, h _ hv, (r.entries_perm_cons_eraseIdx hp).mem_iff, List.mem_cons,
      Prod.mk.injEq, Prod.mk.injEq, Equiv.swap_apply_eq_iff, Equiv.swap_apply_left]
    refine or_congr_right ⟨fun he => ?_, fun he => ?_⟩
    · obtain ⟨hne, hnx⟩ := hcols _ v he
      rwa [Equiv.swap_apply_of_ne_of_ne hne hnx]
    · obtain ⟨hne, hnx⟩ := hcols _ v he
      have hfix := Equiv.swap_apply_of_ne_of_ne hne hnx
      rw [Equiv.swap_apply_self] at hfix
      rwa [← hfix] at he
  by_cases hz : t.denseAt c = 0
  · by_contra hne
    rw [hz] at hne
    exact hne (hz.symm.trans ((hiff _ (Ne.symm hne)).mpr rfl))
  · exact ((hiff _ hz).mp rfl).symm

/-! ### Mode ORDERED -/

theorem SparseRow.relocateOrdered_perm {ps : Params} {r : SparseRow} (hr : r.Wf ps) {p : Nat} (x : Index)
    (hp : p < r.nz.toNat) :
    (r.relocateOrdered p x).entries.Perm ((x.toNat, r.valAt p) :: r.entries.eraseIdx p) := by
  obtain ⟨q, -, -, hentries⟩ := SparseRow.relocateOrdered_place hr x hp
  rw [hentries]
  refine List.perm_middle.trans (.cons _ ?_)
  rw [List.take_append_drop]

/-- Inserting an index that is not stored at its place keeps the indices ascending: R178. -/
theorem SparseRow.relocateOrdered_ascending {ps : Params} {r : SparseRow} (hr : r.Wf ps)
    (hasc : r.Ascending 0 r.nz.toNat) {p : Nat} {x : Index} (hp : p < r.nz.toNat)
    (hx : ∀ q, q < r.nz.toNat → r.idxAt q ≠ x) :
    (r.relocateOrdered p x).Ascending 0 (r.relocateOrdered p x).nz.toNat := by
  obtain ⟨q, hbefore, hafter, hentries⟩ := SparseRow.relocateOrdered_place hr x hp
  have hsorted : (r.entries.eraseIdx p).Pairwise fun e f => e.1 < f.1 :=
    (r.ascending_iff_entries.mp hasc).sublist (List.eraseIdx_sublist _ _)
  have hne : ∀ e ∈ r.entries.eraseIdx p, e.1 ≠ x.toNat := by
    intro e he
    obtain ⟨o, ho, -, rfl⟩ := (r.mem_eraseIdx_entries p e).mp he
    exact fun heq => hx o ho (BitVec.eq_of_toNat_eq heq)
  have hlow : ∀ e ∈ (r.entries.eraseIdx p).take q, e.1 < x.toNat := fun e he =>
    lt_of_le_of_ne (hbefore e he) (hne e (List.mem_of_mem_take he))
  have hhigh : ∀ e ∈ (r.entries.eraseIdx p).drop q, x.toNat < e.1 := by
    intro e he
    have hdrop := hsorted.sublist (List.drop_sublist q _)
    cases hd : (r.entries.eraseIdx p).drop q with
    | nil => rw [hd] at he; cases he
    | cons f fs =>
      rw [hd] at he hdrop hafter
      have hf := hafter f rfl
      rcases List.mem_cons.mp he with rfl | he
      · exact hf
      · exact hf.trans ((List.pairwise_cons.mp hdrop).1 e he)
  rw [SparseRow.ascending_iff_entries, hentries, List.pairwise_append, List.pairwise_cons]
  refine ⟨hsorted.sublist (List.take_sublist q _), ⟨hhigh, hsorted.sublist (List.drop_sublist q _)⟩, ?_⟩
  intro e he f hf
  rcases List.mem_cons.mp hf with rfl | hf
  · exact hlow e he
  · exact (hlow e he).trans (hhigh f hf)

theorem SparseRow.relocateOrdered_noStoredZero {ps : Params} {r : SparseRow} (hr : r.Wf ps) (h : r.NoStoredZero)
    {p : Nat} (x : Index) (hp : p < r.nz.toNat) : (r.relocateOrdered p x).NoStoredZero := by
  rw [SparseRow.noStoredZero_iff_entries]
  intro e he
  rcases List.mem_cons.mp ((SparseRow.relocateOrdered_perm hr x hp).mem_iff.mp he) with rfl | he
  · exact h p hp
  · exact r.noStoredZero_iff_entries.mp h e (List.mem_of_mem_eraseIdx he)

/-- Relocating the entry back: both rows are ascending and hold the same entries. -/
theorem SparseRow.relocateOrdered_undo {ps : Params} {r : SparseRow} (hr : r.Wf ps)
    (hasc : r.Ascending 0 r.nz.toNat) {p p' : Nat} {x : Index} (hp : p < r.nz.toNat)
    (hx : ∀ q, q < r.nz.toNat → r.idxAt q ≠ x) (hp' : p' < (r.relocateOrdered p x).nz.toNat)
    (hfound : (r.relocateOrdered p x).idxAt p' = x)
    (hy : ∀ q, q < (r.relocateOrdered p x).nz.toNat → (r.relocateOrdered p x).idxAt q ≠ r.idxAt p) :
    (r.relocateOrdered p x).relocateOrdered p' (r.idxAt p) = r := by
  obtain ⟨hwf, hnz, hcap, hkeeps, -⟩ := SparseRow.relocateOrdered_spec hr x hp
  have hperm := SparseRow.relocateOrdered_perm hr x hp
  have hascT := SparseRow.relocateOrdered_ascending hr hasc hp hx
  generalize r.relocateOrdered p x = t at *
  obtain ⟨hwf', hnz', hcap', hkeeps', -⟩ := SparseRow.relocateOrdered_spec hwf (r.idxAt p) hp'
  have hmoved := t.entries_perm_cons_eraseIdx hp'
  have hval : t.valAt p' = r.valAt p := by
    have hmem := (hmoved.symm.trans hperm).mem_iff.mp List.mem_cons_self
    rcases List.mem_cons.mp hmem with he | he
    · exact (Prod.mk.inj he).2
    · obtain ⟨q, hq, -, he⟩ := (r.mem_eraseIdx_entries p _).mp he
      exact absurd (BitVec.eq_of_toNat_eq (Prod.mk.inj he).1.symm) (hfound ▸ hx q hq)
  have hothers : (t.entries.eraseIdx p').Perm (r.entries.eraseIdx p) := by
    rw [hfound, hval] at hmoved
    exact (hmoved.symm.trans hperm).cons_inv
  have hentries : (t.relocateOrdered p' (r.idxAt p)).entries = r.entries := by
    refine List.Perm.eq_of_pairwise (le := fun e f => e.1 < f.1) (fun e f _ _ hef hfe => absurd hef hfe.not_gt)
      ((SparseRow.ascending_iff_entries _).mp (SparseRow.relocateOrdered_ascending hwf hascT hp' hy))
      (r.ascending_iff_entries.mp hasc) ?_
    refine (SparseRow.relocateOrdered_perm hwf (r.idxAt p) hp').trans ?_
    rw [hval]
    exact (hothers.cons _).trans (r.entries_perm_cons_eraseIdx hp).symm
  exact SparseRow.eq_of_entries hr hwf' (hnz'.trans hnz) (hcap'.trans hcap) hentries
    (hkeeps.trans hcap (hnz ▸ hkeeps'))

theorem SparseRow.movesEntry_relocateOrdered {ps : Params} {r : SparseRow} (hr : r.Wf ps) {p : Nat} (x : Index)
    (hp : p < r.nz.toNat) : r.MovesEntry (r.relocateOrdered p x) p x := fun e _ => by
  rw [(SparseRow.relocateOrdered_perm hr x hp).mem_iff, List.mem_cons]

/-! ### Mode LEGACY_APPEND -/

theorem SparseRow.AppendedFrom.distinct {r t : SparseRow} {k : Nat} {x : Index} (h : r.AppendedFrom t k x)
    (hnz : t.nz.toNat = r.nz.toNat + 1) (hr : r.Distinct) (hx : ∀ q, q < r.nz.toNat → r.idxAt q ≠ x) :
    t.Distinct := by
  obtain ⟨hidx, -⟩ := h
  intro p q hpq hq
  have hp : p < r.nz.toNat := by omega
  rw [hidx, hidx, if_neg hp.ne]
  by_cases hlast : q = r.nz.toNat
  · rw [if_pos hlast]
    exact hx p hp
  · rw [if_neg hlast]
    exact hr p q hpq (by omega)

/-- The old entry stays with a zero value, so it does not count: R179. -/
theorem SparseRow.AppendedFrom.movesEntry {r t : SparseRow} {p : Nat} {x : Index} (h : r.AppendedFrom t p x)
    (hnz : t.nz.toNat = r.nz.toNat + 1) (hp : p < r.nz.toNat) : r.MovesEntry t p x := by
  obtain ⟨hidx, hval⟩ := h
  intro e he
  rw [SparseRow.mem_entries, SparseRow.mem_eraseIdx_entries]
  constructor
  · rintro ⟨q, hq, rfl⟩
    have hqp : q ≠ p := fun hqp => he ((hval q).trans (if_pos hqp))
    rw [hidx, hval, if_neg hqp]
    by_cases hlast : q = r.nz.toNat
    · rw [if_pos hlast, if_pos hlast]
      exact .inl rfl
    · rw [if_neg hlast, if_neg hlast]
      exact .inr ⟨q, by omega, hqp, rfl⟩
  · rintro (rfl | ⟨q, hq, hqp, rfl⟩)
    · exact ⟨r.nz.toNat, by omega, by rw [hidx, hval, if_pos rfl, if_neg hp.ne', if_pos rfl]⟩
    · exact ⟨q, by omega, by rw [hidx, hval, if_neg hq.ne, if_neg hqp, if_neg hq.ne]⟩

/-! ### The searches on an ascending row -/

theorem SparseRow.bsearch_eq_none_iff {r : SparseRow} (hasc : r.Ascending 0 r.nz.toNat) (x : Index) :
    r.bsearch 0 ((r.nz.toNat : Int) - 1) x = none ↔ ∀ q, q < r.nz.toNat → r.idxAt q ≠ x := by
  rcases SparseRow.bsearch_stored hasc x with ⟨p, hp, hpx, hfound⟩ | ⟨habsent, hnone⟩
  · exact ⟨fun h => absurd (hfound.symm.trans h) (by simp), fun h => absurd hpx (h p hp)⟩
  · exact ⟨fun _ => habsent, fun _ => hnone⟩

theorem SparseRow.bsearch_eq_some_iff {r : SparseRow} (hasc : r.Ascending 0 r.nz.toNat) (x : Index) (p : Nat) :
    r.bsearch 0 ((r.nz.toNat : Int) - 1) x = some p ↔ p < r.nz.toNat ∧ r.idxAt p = x := by
  refine ⟨fun h => ⟨SparseRow.bsearch_lt h, (SparseRow.bsearch_sound (le_refl 0) h).2.2⟩, fun ⟨hp, hpx⟩ => ?_⟩
  rcases SparseRow.bsearch_stored hasc x with ⟨q, hq, hqx, hfound⟩ | ⟨habsent, -⟩
  · rw [hfound, SparseRow.Distinct.eq_of_idxAt hasc.distinct hq hp (hqx.trans hpx.symm)]
  · exact absurd hpx (habsent p hp)

theorem SparseRow.findsOne_iff {r : SparseRow} (hasc : r.Ascending 0 r.nz.toNat) {i j x : Index} {p : Nat} :
    r.FindsOne i j p x ↔ p < r.nz.toNat ∧ (∀ q, q < r.nz.toNat → r.idxAt q ≠ x) ∧
      ((r.idxAt p = i ∧ x = j) ∨ (r.idxAt p = j ∧ x = i)) := by
  simp only [SparseRow.FindsOne, SparseRow.bsearch_eq_none_iff hasc, SparseRow.bsearch_eq_some_iff hasc]
  constructor
  · rintro (⟨⟨hp, hpi⟩, hj, rfl⟩ | ⟨hi, ⟨hp, hpj⟩, rfl⟩)
    · exact ⟨hp, hj, .inl ⟨hpi, rfl⟩⟩
    · exact ⟨hp, hi, .inr ⟨hpj, rfl⟩⟩
  · rintro ⟨hp, hx, ⟨hpi, rfl⟩ | ⟨hpj, rfl⟩⟩
    · exact .inl ⟨⟨hp, hpi⟩, hx, rfl⟩
    · exact .inr ⟨hx, ⟨hp, hpj⟩, rfl⟩

/-- A row that holds neither index, a row that holds both, and a row that holds one. -/
theorem SparseRow.bsearch_cases (r : SparseRow) (i j : Index) :
    (r.bsearch 0 ((r.nz.toNat : Int) - 1) i = none ∧ r.bsearch 0 ((r.nz.toNat : Int) - 1) j = none) ∨
    (∃ p q, r.bsearch 0 ((r.nz.toNat : Int) - 1) i = some p ∧ r.bsearch 0 ((r.nz.toNat : Int) - 1) j = some q) ∨
    ∃ p x, r.FindsOne i j p x := by
  cases hi : r.bsearch 0 ((r.nz.toNat : Int) - 1) i with
  | none => cases hj : r.bsearch 0 ((r.nz.toNat : Int) - 1) j with
    | none => exact .inl ⟨rfl, rfl⟩
    | some q => exact .inr (.inr ⟨q, i, .inr ⟨hi, hj, rfl⟩⟩)
  | some p => cases hj : r.bsearch 0 ((r.nz.toNat : Int) - 1) j with
    | none => exact .inr (.inr ⟨p, j, .inl ⟨hi, hj, rfl⟩⟩)
    | some q => exact .inr (.inl ⟨p, q, rfl, rfl⟩)

/-- On the relocated row the searches find the other index, and relocating it back restores the row: R178. -/
theorem SparseRow.FindsOne.undo {ps : Params} {r : SparseRow} (hr : r.Wf ps) (hasc : r.Ascending 0 r.nz.toNat)
    {i j x : Index} {p : Nat} (h : r.FindsOne i j p x) :
    ∃ p', (r.relocateOrdered p x).FindsOne i j p' (r.idxAt p) ∧
      (r.relocateOrdered p x).relocateOrdered p' (r.idxAt p) = r := by
  obtain ⟨hp, hx, hij⟩ := (SparseRow.findsOne_iff hasc).mp h
  have hascT := SparseRow.relocateOrdered_ascending hr hasc hp hx
  have hperm := SparseRow.relocateOrdered_perm hr x hp
  obtain ⟨p', hp', he⟩ := (SparseRow.mem_entries _ _).mp (hperm.mem_iff.mpr List.mem_cons_self)
  have hfound : (r.relocateOrdered p x).idxAt p' = x := (BitVec.eq_of_toNat_eq (Prod.mk.inj he).1).symm
  have hy : ∀ q, q < (r.relocateOrdered p x).nz.toNat → (r.relocateOrdered p x).idxAt q ≠ r.idxAt p := by
    intro q hq heq
    have hmem := hperm.mem_iff.mp ((SparseRow.mem_entries _ _).mpr ⟨q, hq, rfl⟩)
    rw [heq] at hmem
    rcases List.mem_cons.mp hmem with he | he
    · exact hx p hp (BitVec.eq_of_toNat_eq (Prod.mk.inj he).1)
    · obtain ⟨o, ho, hop, he⟩ := (r.mem_eraseIdx_entries p _).mp he
      exact hop (SparseRow.Distinct.eq_of_idxAt hasc.distinct ho hp (BitVec.eq_of_toNat_eq (Prod.mk.inj he).1.symm))
  refine ⟨p', (SparseRow.findsOne_iff hascT).mpr ⟨hp', hy, ?_⟩,
    SparseRow.relocateOrdered_undo hr hasc hp hx hp' hfound hy⟩
  rcases hij with ⟨hpi, rfl⟩ | ⟨hpj, rfl⟩
  · exact .inr ⟨hfound, hpi⟩
  · exact .inl ⟨hfound, hpj⟩

/-! ### The command -/

/-- What R177 and R178 say of CR_SWAPCOL on an ascending row, from the state before to the state after. -/
def ExchangesColumns (r i j : Index) (s t : State) : Prop :=
  (∀ c, (t.row r).denseAt c = (s.row r).denseAt (Equiv.swap i.toNat j.toNat c)) ∧
  (s.params.swapcolMode = .ordered → (t.row r).Ascending 0 (t.row r).nz.toNat ∧
    ((s.row r).NoStoredZero → (t.row r).NoStoredZero) ∧ exec (.crSwapcol r i j) t = .next s)

theorem State.setRow_setRow (s : State) (r : Index) (t u : SparseRow) : (s.setRow r t).setRow r u = s.setRow r u := by
  simp [State.setRow]

section
variable {s t : State} {r i j : Index} (hr : s.HasRow r) (hasc : (s.row r).Ascending 0 (s.row r).nz.toNat)
include hr hasc

theorem exchangesColumns_of_neither (hi : (s.row r).bsearch 0 (((s.row r).nz.toNat : Int) - 1) i = none)
    (hj : (s.row r).bsearch 0 (((s.row r).nz.toNat : Int) - 1) j = none)
    (he : exec (.crSwapcol r i j) s = .next t) : ExchangesColumns r i j s t := by
  obtain rfl := Host.Outcome.next.inj (he.symm.trans (exec_crSwapcol_neither hr hi hj))
  have hzi := SparseRow.denseAt_absent ((SparseRow.bsearch_eq_none_iff hasc i).mp hi)
  have hzj := SparseRow.denseAt_absent ((SparseRow.bsearch_eq_none_iff hasc j).mp hj)
  refine ⟨fun c => ?_, fun _ => ⟨hasc, id, he⟩⟩
  rw [Equiv.swap_apply_def]
  split_ifs with hci hcj
  · rw [hci, hzi, hzj]
  · rw [hcj, hzi, hzj]
  · rfl

variable (hs : s.Wf)
include hs

theorem exchangesColumns_of_both {p q : Nat}
    (hi : (s.row r).bsearch 0 (((s.row r).nz.toNat : Int) - 1) i = some p)
    (hj : (s.row r).bsearch 0 (((s.row r).nz.toNat : Int) - 1) j = some q)
    (he : exec (.crSwapcol r i j) s = .next t) : ExchangesColumns r i j s t := by
  obtain rfl := Host.Outcome.next.inj (he.symm.trans (exec_crSwapcol_both hr hi hj))
  obtain ⟨hp, rfl⟩ := (SparseRow.bsearch_eq_some_iff hasc i p).mp hi
  obtain ⟨hq, rfl⟩ := (SparseRow.bsearch_eq_some_iff hasc j q).mp hj
  have hrow := s.row_setRow_same r { s.row r with val := Memory.swap (s.row r).val p q } (hs.row_lt hr)
  refine ⟨fun c => ?_, fun _ => ⟨?_, fun hnonzero o ho => ?_, ?_⟩⟩
  · rw [hrow]
    exact SparseRow.denseAt_swap hasc.distinct hp hq c
  · rw [hrow]
    exact hasc
  · rw [hrow] at ho ⊢
    rw [SparseRow.valAt_swap]
    split_ifs
    exacts [hnonzero p hp, hnonzero q hq, hnonzero o ho]
  · have hagain := exec_crSwapcol_both (s := s.setRow r { s.row r with val := Memory.swap (s.row r).val p q })
      (p := p) (q := q) hr (by rw [hrow]; exact hi) (by rw [hrow]; exact hj)
    rw [hagain, hrow, State.setRow_setRow, SparseRow.swap_swap (hs.row_wf hr) hp hq, s.setRow_self r (hs.row_lt hr)]

theorem exchangesColumns_of_one {p : Nat} {x : Index} (h : (s.row r).FindsOne i j p x)
    (he : exec (.crSwapcol r i j) s = .next t) (ht : t.halted = false) : ExchangesColumns r i j s t := by
  obtain ⟨hp, hx, hij⟩ := (SparseRow.findsOne_iff hasc).mp h
  have hrow := hs.row_wf hr
  have hswap : Equiv.swap ((s.row r).idxAt p).toNat x.toNat = Equiv.swap i.toNat j.toNat := by
    rcases hij with ⟨rfl, rfl⟩ | ⟨rfl, rfl⟩
    · rfl
    · exact Equiv.swap_comm _ _
  cases hmode : s.params.swapcolMode with
  | ordered =>
    obtain rfl := Host.Outcome.next.inj (he.symm.trans (exec_crSwapcol_ordered hr hmode h))
    have hnew := s.row_setRow_same r ((s.row r).relocateOrdered p x) (hs.row_lt hr)
    have hascT := SparseRow.relocateOrdered_ascending hrow hasc hp hx
    obtain ⟨p', hfinds, hundo⟩ := h.undo hrow hasc
    refine ⟨fun c => ?_, fun _ => ⟨by rwa [hnew], fun hnonzero => ?_, ?_⟩⟩
    · rw [hnew, (SparseRow.movesEntry_relocateOrdered hrow x hp).denseAt hasc.distinct hascT.distinct hp hx, hswap]
    · rw [hnew]
      exact SparseRow.relocateOrdered_noStoredZero hrow hnonzero x hp
    · have hagain := exec_crSwapcol_ordered (s := s.setRow r ((s.row r).relocateOrdered p x)) hr hmode
        (by rwa [hnew])
      rw [hagain, hnew, hundo, State.setRow_setRow, s.setRow_self r (hs.row_lt hr)]
  | legacyAppend =>
    refine ⟨fun c => ?_, fun hordered => absurd (hmode.symm.trans hordered) (by decide)⟩
    obtain ⟨hhalt, hdone⟩ := exec_of_putRow (exec_crSwapcol_one hr h)
    rw [SparseRow.relocate_legacyAppend hmode] at hhalt hdone
    by_cases hcap : (s.row r).CanHold s.params ((s.row r).nz.toNat + 1)
    · obtain ⟨g, happend, ⟨hnz, -⟩, happended⟩ := SparseRow.relocateAppend_some hs.legal hrow hcap p x
      obtain rfl := Host.Outcome.next.inj (he.symm.trans (hdone g happend))
      rw [s.row_setRow_same r g (hs.row_lt hr), ← hswap]
      exact (happended.movesEntry hnz hp).denseAt hasc.distinct (happended.distinct hnz hasc.distinct hx) hp hx c
    · have hhalted := (hhalt (SparseRow.relocateAppend_none hcap p x)).halted he
      exact absurd (ht.symm.trans hhalted) Bool.false_ne_true

end

/-- Settles O58: the three outcomes of the searches. -/
theorem crSwapcolExchangesColumns : Obligations.CrSwapcolExchangesColumns := by
  intro s t r i j hs hr _ hasc he ht
  simp only [← Equiv.swap_apply_def]
  rcases (s.row r).bsearch_cases i j with ⟨hi, hj⟩ | ⟨p, q, hi, hj⟩ | ⟨p, x, hfinds⟩
  · exact exchangesColumns_of_neither hr hasc hi hj he
  · exact exchangesColumns_of_both hr hasc hs hi hj he
  · exact exchangesColumns_of_one hr hasc hs hfinds he ht

end Sys2Proof.Machine
end

section
/-! PROOFS. The statement of 45_sparse_matrix.md about the sparse matrix aggregate (O59): CM_RESIZE and CM_DESTROY
empty a prefix of the sparse file and set CM_ROWS and CM_COLS. Where the count is at most NSROW, the model's
`emptyRows` empties every slot below it. -/

namespace Sys2Proof.Machine

/-! ### Emptying the first rows -/

theorem getElem?_emptyRows_lt {n k : Nat} {rs : List SparseRow} (hn : n ≤ rs.length) (hk : k < n) :
    (emptyRows n rs)[k]? = some emptyRow := by
  rw [getElem?_emptyRows, if_pos ⟨hk, hk.trans_le hn⟩]

theorem getElem?_emptyRows_ge {n k : Nat} (rs : List SparseRow) (hk : n ≤ k) : (emptyRows n rs)[k]? = rs[k]? := by
  rw [getElem?_emptyRows, if_neg fun h => h.1.not_ge hk]

/-! ### The commands (R190, R191) -/

theorem exec_cmResize (rows cols : Index) (s : State) :
    (s.params.nsrow < rows.toNat → HaltsWith (.cmResize rows cols) s .alloc) ∧
    (¬ s.params.nsrow < rows.toNat → exec (.cmResize rows cols) s =
      .next { s with sparse := emptyRows rows.toNat s.sparse, cmRows := rows.setWidth 17, cmCols := cols }) :=
  exec_of_check (ds := []) (by simp) rfl

theorem exec_cmDestroy (s : State) : exec .cmDestroy s =
    .next { s with sparse := emptyRows s.cmRows.toNat s.sparse, cmRows := 0, cmCols := 0 } := by
  rw [exec, execCmDestroy, conclude_done]

/-- Settles O59: a row count that completes is at most NSROW, as CM_ROWS is in every well-formed state (R32), so the
emptied slots exist; the second CM_DESTROY finds CM_ROWS zero and empties none. -/
theorem aggregateEmptiesItsRows : Obligations.AggregateEmptiesItsRows := by
  intro s hs
  have hlength := hs.sparse_length
  refine ⟨fun rows cols => ?_, encodedAs_iff.mpr rfl, _, exec_cmDestroy s, rfl, length_emptyRows _ _, ?_, ?_, ?_⟩
  · obtain ⟨hhalt, hdone⟩ := exec_cmResize rows cols s
    refine ⟨encodedAs_iff.mpr rfl, hhalt, fun hrows => ⟨_, hdone (not_lt.mpr hrows), rfl, ?_, length_emptyRows _ _,
      fun n => getElem?_emptyRows_lt (hrows.trans_eq hlength.symm), fun n => getElem?_emptyRows_ge s.sparse⟩⟩
    exact BitVec.toNat_setWidth_of_le (by decide)
  · obtain ⟨-, -, -, hcount, -⟩ := hs
    exact fun n => getElem?_emptyRows_lt (hcount.trans_eq hlength.symm)
  · exact fun n => getElem?_emptyRows_ge s.sparse
  · rw [exec_cmDestroy]
    rfl

end Sys2Proof.Machine
end

section
/-! PROOFS. The statements of 60_exceptions.md: a block in HALT refuses every command (O9), only reset leaves HALT
(O15), and a fault writes STATUS, CAUSE and FCMD and nothing else (O16). -/

namespace Sys2Proof.Machine

/-! ### The block in HALT (R205, R206) -/

/-- The word is not decoded: `w` is not in the state after the step. -/
theorem step_of_command_halted {s : State} {w : Command} {rest : List HostEvent} (hs : s.halted = true)
    (h : s.pending = .command w :: rest) : step s = .next { s with pending := rest, reply := .refused } :=
  (step_of_event h).trans (issue_of_halted w hs)

theorem State.goneWrong_of_halted {s : State} (h : s.halted = true) : s.goneWrong = true := by
  rw [State.goneWrong, h, Bool.true_or]

theorem State.goneWrong_of_refused {s : State} (h : s.reply = .refused) : s.goneWrong = true := by
  rw [State.goneWrong, h, Bool.or_true]

theorem State.goneWrong_of_ok {s : State} (hs : s.halted = false) (h : s.reply = .ok) : s.goneWrong = false := by
  rw [State.goneWrong, hs, h, Bool.or_false]

/-- Settles O9: the step of a halted block on a command word and on a register read, and the cases of the mark. -/
theorem haltedBlockRefuses : Obligations.HaltedBlockRefuses :=
  ⟨fun _ _ _ => step_of_command_halted, fun _ _ _ _ => step_of_regRead, fun _ => State.goneWrong_of_halted,
    fun _ => State.goneWrong_of_refused, fun _ => State.goneWrong_of_ok⟩

theorem State.takeReset_halted (s : State) : s.takeReset.halted = false := by
  simp [State.halted, State.takeReset_status]

/-- Settles O15: idle, refusing a command and answering a read write `pending` and `reply` at most; the event left is
reset. -/
theorem haltEndsOnlyWithReset : Obligations.HaltEndsOnlyWithReset := by
  intro s t hs hstep
  cases hp : s.pending with
  | nil =>
    rw [step_of_idle hp] at hstep
    cases hstep
    exact .inl ⟨hs, rfl⟩
  | cons e rest =>
    cases e with
    | command w =>
      rw [step_of_command_halted hs hp] at hstep
      cases hstep
      exact .inl ⟨hs, rfl⟩
    | regRead addr =>
      rw [step_of_regRead hp] at hstep
      cases hstep
      exact .inl ⟨hs, rfl⟩
    | reset =>
      rw [step_of_reset hp] at hstep
      cases hstep
      exact .inr ⟨rfl, State.takeReset_halted _, rfl, rfl, rfl, rfl⟩

/-! ### Taking a fault (R203, R204) -/

/-- No command that completes writes CAUSE. -/
theorem Effect.done_cause {i : Instr} {s t : State} (h : Effect i s (.done t)) : t.cause = s.cause := by
  cases h <;> rfl

/-- No command that completes writes FCMD. -/
theorem Effect.done_fcmd {i : Instr} {s t : State} (h : Effect i s (.done t)) : t.fcmd = s.fcmd := by
  cases h <;> rfl

/-- A fault is taken in the state before the command, but for SCR. -/
theorem Effect.raise_state {i : Instr} {s t : State} {c : Cause} (h : Effect i s (.raise c t)) :
    ∃ scr, t = { s with scr := scr } ∧ (scr = s.scr ∨ UsesScratch i) := by
  cases h with
  | raise c scr hscr => exact ⟨scr, rfl, hscr⟩

/-- The commands that use SCR are known by their opcodes, CR_ADD 0x42 and CR_SADD 0x43: R84. -/
theorem UsesScratch.opcode {i : Instr} (h : UsesScratch i) :
    (Fields.ofWord (encode i)).op = 0x42 ∨ (Fields.ofWord (encode i)).op = 0x43 := by
  rw [encode, Fields.ofWord_toWord]
  rcases h with ⟨sa, sb, w, rfl⟩ | ⟨sa, sb, u, w, rfl⟩
  · exact .inl rfl
  · exact .inr rfl

/-- The host is told the cause of the fault. -/
theorem State.takeHalt_outcomeReply (s : State) (c : Cause) (w : Command) :
    (s.takeHalt c w).outcomeReply = .halt c.code := by
  rw [State.outcomeReply, if_pos (s.takeHalt_halted c w), State.takeHalt_cause]

/-- Outside HALT a state says that its command completed. -/
theorem State.outcomeReply_of_running {t : State} (h : t.halted = false) : t.outcomeReply = .ok := by
  simp [State.outcomeReply, h]

/-- Settles O16: an illegal word takes its fault in the state as it is, and a command has an effect that either
completes or takes its fault in a state that differs in SCR at most. -/
theorem faultsArePrecise : Obligations.FaultsArePrecise := by
  intro w s hs
  cases hw : decode w with
  | illegal why => exact ⟨_, issue_illegal hs hw, .inr ⟨.illegal, s.scr, rfl, .inl rfl⟩⟩
  | instr i =>
    obtain rfl : encode i = w := encodeOfDecode w i hw
    obtain ⟨x, hx, he⟩ := exec_effect i s
    rw [issue_of_instr hs hw, hx]
    cases x with
    | done t =>
      have hreply : t.outcomeReply = .ok := State.outcomeReply_of_running (he.done_halted.trans hs)
      exact ⟨_, rfl, .inl ⟨hreply, he.done_status, he.done_cause, he.done_fcmd⟩⟩
    | raise c t =>
      obtain ⟨scr, rfl, hscr⟩ := he.raise_state
      refine ⟨_, rfl, .inr ⟨c, scr, ?_, hscr.imp_right UsesScratch.opcode⟩⟩
      rw [State.takeHalt_outcomeReply]
      rfl

end Sys2Proof.Machine
end
